-- ==== Sys2Proof/Word.lean ====
section
/-! DEFINITION. The word types of the block (spec/00_scope.md R13, R14): octets, 16-bit registers and fields,
32-bit timers and counters. All values are unsigned. -/

namespace Sys2Proof

/-- An octet, 8 bits (R13). -/
abbrev Octet := BitVec 8

/-- A 16-bit register, field or variable index (R13, R14). -/
abbrev Word16 := BitVec 16

/-- A 32-bit timer, rate or counter (R31 to R33, R37, R50). -/
abbrev Word32 := BitVec 32

end Sys2Proof
end

