-- ==== Sys2Proof/Config.lean ====
section
/-! DEFINITION. What one build of the block fixes (spec/00_scope.md R7 to R11, spec/10_state.md R34).
The spec makes these parameters of the model. They are held as plain data in the machine's state, so a statement about
every state is a statement about every build (log 1). -/

namespace Sys2Proof

/-- The constants of one build (R34). `hash` is the build content-hash string of R290; `HASH_LEN` is its length. -/
structure Build where
  /-- `MAX_FRAME` (R7) -/
  maxFrame : Nat
  /-- `MAX_SRV_CLIENTS` (R8) -/
  maxSrvClients : Nat
  /-- `N_COILS` (R9) -/
  nCoils : Nat
  /-- `N_DISC` (R9) -/
  nDisc : Nat
  /-- `N_HOLD` (R9) -/
  nHold : Nat
  /-- `N_INREG` (R9) -/
  nInreg : Nat
  /-- the build content-hash string, ASCII octets, no terminator (R106, R290) -/
  hash : List Octet
  deriving DecidableEq, Repr

/-- `RX_CAP`, the capacity of the receive queue and of the frame buffer (R11). -/
def Build.rxCap (b : Build) : Nat := b.maxFrame + 3

/-- `HASH_LEN` (R11). -/
def Build.hashLen (b : Build) : Nat := b.hash.length

/-- The legal builds (R354): no behaviour is given for any other. -/
abbrev Build.Legal (b : Build) : Prop :=
  16 ≤ b.maxFrame ∧ b.maxFrame ≤ 65534 ∧ 1 ≤ b.maxSrvClients ∧
  b.nCoils ≤ 65536 ∧ b.nDisc ≤ 65536 ∧ b.nHold ≤ 65536 ∧ b.nInreg ≤ 65536 ∧
  2 + b.hashLen ≤ b.maxFrame

end Sys2Proof
end

