-- ==== Sys2Proof/Syntax.lean ====
section
/-! DEFINITION. The instructions: one request PDU for each row of spec/opcode_table.json (spec/30_encoding.md R95 to
R108). An operand that is `none` is the short form: the PDU ends before the fixed part of its format (R112, R223,
R292). The variable parts (`data`, `value`, `idx`) hold what is present in the PDU, which may be less than the format
announces (R112). -/

namespace Sys2Proof

/-- Format `RD` (R96). -/
structure RdOps where
  start : Word16
  count : Word16
  deriving DecidableEq, Repr

/-- Format `WR1` (R98): the element address and its `status` or `value`. -/
structure Wr1Ops where
  addr : Word16
  value : Word16
  deriving DecidableEq, Repr

/-- Format `WRN` (R99). `data` is what is present of `P[6..6+byteCount)`. -/
structure WrnOps where
  start : Word16
  count : Word16
  byteCount : Octet
  data : List Octet
  deriving DecidableEq, Repr

/-- 0x42 Set Trace (R103). `value` is what is present of `P[6..6+length)`. -/
structure SetOps where
  index : Word16
  force : Octet
  length : Word16
  value : List Octet
  deriving DecidableEq, Repr

/-- 0x43 Get Trace, range (R104). -/
structure GetOps where
  startIndex : Word16
  endIndex : Word16
  deriving DecidableEq, Repr

/-- 0x44 Get Trace, explicit list (R105). `idx` is what is present of `idx_0 .. idx_{n-1}`. -/
structure ListOps where
  n : Word16
  idx : List Word16
  deriving DecidableEq, Repr

/-- The thirteen request PDUs (R108), in the order of the opcode table. -/
inductive Instr where
  /-- 0x01 Read Coils (R272) -/
  | rdcoil (o : Option RdOps)
  /-- 0x02 Read Discrete Inputs (R273) -/
  | rddisc (o : Option RdOps)
  /-- 0x03 Read Holding Registers (R250) -/
  | rdhold (o : Option RdOps)
  /-- 0x04 Read Input Registers (R251) -/
  | rdinreg (o : Option RdOps)
  /-- 0x05 Write Single Coil (R274) -/
  | wrcoil (o : Option Wr1Ops)
  /-- 0x06 Write Single Register (R252) -/
  | wrreg (o : Option Wr1Ops)
  /-- 0x0F Write Multiple Coils (R275) -/
  | wrcoils (o : Option WrnOps)
  /-- 0x10 Write Multiple Registers (R253) -/
  | wrregs (o : Option WrnOps)
  /-- 0x41 Get Info (R294) -/
  | dbginfo
  /-- 0x42 Set Trace (R295) -/
  | dbgset (o : Option SetOps)
  /-- 0x43 Get Trace, range (R298) -/
  | dbgget (o : Option GetOps)
  /-- 0x44 Get Trace, explicit list (R302) -/
  | dbglist (o : Option ListOps)
  /-- 0x45 Get MD5 / negotiate endianness (R305): the marker -/
  | dbgmd5 (marker : Option Word16)
  deriving DecidableEq, Repr

end Sys2Proof
end

