-- ==== Sys2Proof/WellFormed.lean ====
section
/-! DEFINITION. Which instructions are request PDUs: a variable part is never longer than its length field says, since
octets beyond the format are no operand (spec/30_encoding.md R99, R103, R105, R112). -/

namespace Sys2Proof

/-- R99: the data octets of format `WRN` lie in `P[6..6+byteCount)`. -/
def WrnOps.wf (o : WrnOps) : Bool := o.data.length ≤ o.byteCount.toNat

/-- R103: the value octets of 0x42 lie in `P[6..6+length)`. -/
def SetOps.wf (o : SetOps) : Bool := o.value.length ≤ o.length.toNat

/-- R105: the list of 0x44 has at most `n` entries. -/
def ListOps.wf (o : ListOps) : Bool := o.idx.length ≤ o.n.toNat

/-- Well-formed instructions: the terms that are some request PDU's. -/
def Instr.wf : Instr → Bool
  | .rdcoil _ | .rddisc _ | .rdhold _ | .rdinreg _ => true
  | .wrcoil _ | .wrreg _ => true
  | .wrcoils o => o.all WrnOps.wf
  | .wrregs o => o.all WrnOps.wf
  | .dbginfo => true
  | .dbgset o => o.all SetOps.wf
  | .dbgget _ => true
  | .dbglist o => o.all ListOps.wf
  | .dbgmd5 _ => true

end Sys2Proof
end

