-- ==== Sys2Proof/Decode.lean ====
section
/-! DEFINITION. Octet order, the decoder from PDU octets to instructions, and the encoder back
(spec/00_scope.md R14, spec/20_memory.md R63 to R65, spec/30_encoding.md R95 to R112). -/

namespace Sys2Proof

/-! ## Octet order (R14) -/

/-- The high octet of a 16-bit value (R13). -/
def hi8 (w : Word16) : Octet := w.extractLsb' 8 8

/-- The low octet of a 16-bit value (R13). -/
def lo8 (w : Word16) : Octet := w.extractLsb' 0 8

/-- The 16-bit big-endian field whose first octet is `hi` (R14: `B[i] * 256 + B[i+1]`). -/
def be16 (hi lo : Octet) : Word16 := hi ++ lo

/-- R14: a 16-bit value, high octet first. -/
def be16enc (w : Word16) : List Octet := [hi8 w, lo8 w]

/-- R14: a 32-bit value, high octet first. -/
def be32enc (w : Word32) : List Octet :=
  [w.extractLsb' 24 8, w.extractLsb' 16 8, w.extractLsb' 8 8, w.extractLsb' 0 8]

/-- The big-endian 16-bit fields that stand whole in a sequence of octets, in order. -/
def be16s : List Octet → List Word16
  | hi :: lo :: rest => be16 hi lo :: be16s rest
  | _ => []

/-! ## The decoder (R95, R108 to R112) -/

/-- Why a sequence of octets is no instruction. -/
inductive DecodeError where
  /-- no function code: not a request PDU (R198, R220) -/
  | emptyPdu
  /-- the function code is none of the thirteen (R109) -/
  | unknownFunction (fc : Octet)
  deriving DecidableEq, Repr

/-- Format `RD` after the function code (R96); octets beyond it are ignored (R112). -/
def decodeRd : List Octet → Option RdOps
  | s1 :: s0 :: c1 :: c0 :: _ => some ⟨be16 s1 s0, be16 c1 c0⟩
  | _ => none

/-- Format `WR1` after the function code (R98). -/
def decodeWr1 : List Octet → Option Wr1Ops
  | a1 :: a0 :: v1 :: v0 :: _ => some ⟨be16 a1 a0, be16 v1 v0⟩
  | _ => none

/-- Format `WRN` after the function code (R99). -/
def decodeWrn : List Octet → Option WrnOps
  | s1 :: s0 :: c1 :: c0 :: bc :: rest => some ⟨be16 s1 s0, be16 c1 c0, bc, rest.take bc.toNat⟩
  | _ => none

/-- 0x42 after the function code (R103). -/
def decodeSet : List Octet → Option SetOps
  | i1 :: i0 :: f :: l1 :: l0 :: rest => some ⟨be16 i1 i0, f, be16 l1 l0, rest.take (be16 l1 l0).toNat⟩
  | _ => none

/-- 0x43 after the function code (R104). -/
def decodeGet : List Octet → Option GetOps
  | s1 :: s0 :: e1 :: e0 :: _ => some ⟨be16 s1 s0, be16 e1 e0⟩
  | _ => none

/-- 0x44 after the function code (R105). -/
def decodeList : List Octet → Option ListOps
  | n1 :: n0 :: rest => some ⟨be16 n1 n0, (be16s rest).take (be16 n1 n0).toNat⟩
  | _ => none

/-- 0x45 after the function code (R106). -/
def decodeMarker : List Octet → Option Word16
  | m0 :: m1 :: _ => some (be16 m0 m1)
  | _ => none

/-- The opcode map (R108): an exact match of all eight bits of `P[0]`, which no other octet takes part in. -/
def decodeFunction (fc : Octet) (payload : List Octet) : Option Instr :=
  if fc = 0x01#8 then some (.rdcoil (decodeRd payload))
  else if fc = 0x02#8 then some (.rddisc (decodeRd payload))
  else if fc = 0x03#8 then some (.rdhold (decodeRd payload))
  else if fc = 0x04#8 then some (.rdinreg (decodeRd payload))
  else if fc = 0x05#8 then some (.wrcoil (decodeWr1 payload))
  else if fc = 0x06#8 then some (.wrreg (decodeWr1 payload))
  else if fc = 0x0F#8 then some (.wrcoils (decodeWrn payload))
  else if fc = 0x10#8 then some (.wrregs (decodeWrn payload))
  else if fc = 0x41#8 then some .dbginfo
  else if fc = 0x42#8 then some (.dbgset (decodeSet payload))
  else if fc = 0x43#8 then some (.dbgget (decodeGet payload))
  else if fc = 0x44#8 then some (.dbglist (decodeList payload))
  else if fc = 0x45#8 then some (.dbgmd5 (decodeMarker payload))
  else none

/-- The decoder: total on any octets, rejecting by name. -/
def decode : List Octet → Except DecodeError Instr
  | [] => .error .emptyPdu
  | fc :: payload =>
    match decodeFunction fc payload with
    | some i => .ok i
    | none => .error (.unknownFunction fc)

/-! ## The encoder (R96 to R106) -/

/-- The function code of an instruction (R108). -/
def functionCode : Instr → Octet
  | .rdcoil _ => 0x01#8
  | .rddisc _ => 0x02#8
  | .rdhold _ => 0x03#8
  | .rdinreg _ => 0x04#8
  | .wrcoil _ => 0x05#8
  | .wrreg _ => 0x06#8
  | .wrcoils _ => 0x0F#8
  | .wrregs _ => 0x10#8
  | .dbginfo => 0x41#8
  | .dbgset _ => 0x42#8
  | .dbgget _ => 0x43#8
  | .dbglist _ => 0x44#8
  | .dbgmd5 _ => 0x45#8

/-- Format `RD` (R96). -/
def encodeRd (o : RdOps) : List Octet := be16enc o.start ++ be16enc o.count

/-- Format `WR1` (R98). -/
def encodeWr1 (o : Wr1Ops) : List Octet := be16enc o.addr ++ be16enc o.value

/-- Format `WRN` (R99). -/
def encodeWrn (o : WrnOps) : List Octet := be16enc o.start ++ be16enc o.count ++ [o.byteCount] ++ o.data

/-- 0x42 (R103). -/
def encodeSet (o : SetOps) : List Octet := be16enc o.index ++ [o.force] ++ be16enc o.length ++ o.value

/-- 0x43 (R104). -/
def encodeGet (o : GetOps) : List Octet := be16enc o.startIndex ++ be16enc o.endIndex

/-- 0x44 (R105). -/
def encodeList (o : ListOps) : List Octet := be16enc o.n ++ o.idx.flatMap be16enc

/-- The octets after the function code; a short form is written with none. -/
def encodePayload : Instr → List Octet
  | .rdcoil o | .rddisc o | .rdhold o | .rdinreg o => (o.map encodeRd).getD []
  | .wrcoil o | .wrreg o => (o.map encodeWr1).getD []
  | .wrcoils o | .wrregs o => (o.map encodeWrn).getD []
  | .dbginfo => []
  | .dbgset o => (o.map encodeSet).getD []
  | .dbgget o => (o.map encodeGet).getD []
  | .dbglist o => (o.map encodeList).getD []
  | .dbgmd5 m => (m.map be16enc).getD []

/-- The request PDU of an instruction. -/
def encode (i : Instr) : List Octet := functionCode i :: encodePayload i

/-! ## The opcode table's numbering of an instruction's bits -/

/-- The octets of an instruction whose bits are `w`, bit 0 the least significant bit of the first octet, zero above
`nbits`, laid out to at least the six octets of the longest format whose variable part is empty (R99, R103). -/
def tableOctets (nbits w : Nat) : List Octet :=
  (List.range (max (nbits / 8) 6)).map fun k => BitVec.ofNat 8 ((w % 2 ^ nbits) >>> (8 * k))

/-- The instruction the decoder reads from those octets. -/
def decodeTableWord (nbits w : Nat) : Option Instr :=
  match decode (tableOctets nbits w) with
  | .ok i => some i
  | .error _ => none

end Sys2Proof
end

