-- ==== Sys2Proof/Machine/State.lean ====
section
/-! DEFINITION. The state of the block as plain data (spec/10_state.md), the input and output events (R45, R46), the
reasons a step can stop, and the state after reset (R52, R53). -/

namespace Sys2Proof.Machine

open Sys2Proof

/-! ## Names -/

/-- The states of the Serial Framer (R35). -/
inductive Fsm where
  | idle | collecting | validating | dispatching | responding
  deriving DecidableEq, Repr

/-- The sub-states of `Responding` (R39). -/
inductive TxPhase where
  | leadIn | flush | frameDelay
  deriving DecidableEq, Repr

/-- Which endianness marker the master last sent with 0x45 (R49). -/
inductive DbgOrder where
  | asDEAD | asADDE
  deriving DecidableEq, Repr

/-- The address spaces of 1-bit elements (R60). -/
inductive BitSpace where
  | coil | disc
  deriving DecidableEq, Repr

/-- The address spaces of 16-bit elements (R60). -/
inductive WordSpace where
  | hold | inreg
  deriving DecidableEq, Repr

/-- The four Modbus exception codes (R101, R321). -/
inductive ExcCode where
  | illegalFunction | illegalAddress | illegalValue | slaveFailure
  deriving DecidableEq, Repr

/-- The causes of a silent drop (R322). They are labels: a drop leaves no record in the state (R161). -/
inductive Drop where
  | overrun | tooShort | badCrc | foreignAddress
  | notModbus | zeroLength | tooLong | lengthMismatch | emptyPdu
  deriving DecidableEq, Repr

/-! ## The Register Bank (R20 (a), R21 to R24) -/

/-- A table of elements: its (index, element) pairs, indices strictly rising, no entry equal to what an unlisted
element reads as (log 2). -/
abbrev Table (α : Type) := List (Nat × α)

/-- The Register Bank: four tables (R21 to R24). -/
structure Memory where
  coils : Table Bool
  discreteInputs : Table Bool
  holdingRegisters : Table Word16
  inputRegisters : Table Word16
  deriving DecidableEq, Repr

/-- One element written by the application: how `AppWrite(f)` is written down (R76, log 2). -/
inductive BankWrite where
  | bit (sp : BitSpace) (i : Nat) (v : Bool)
  | word (sp : WordSpace) (i : Nat) (v : Word16)
  deriving DecidableEq, Repr

/-! ## Connections (R43, R47) -/

/-- One slot of the TCP Framer's connection table. -/
structure Slot where
  live : Bool
  /-- `hdr[s]`, six octets -/
  hdr : List Octet
  /-- `hdr_len[s]`, 0..6 (log 5) -/
  hdrLen : Nat
  declLen : Word16
  sockq : List Octet
  deriving DecidableEq, Repr

/-! ## Events -/

/-- What the environment supplies with `Reset` (R53): the configuration, the contents the application gives the
Register Bank, and the values the spec leaves unspecified after reset (log 2, 3, 4, 6). -/
structure Launch where
  slaveId : Octet
  baud : Word32
  txenPresent : Bool
  txenLeadIn : Word32
  bank : List BankWrite
  frame : List Octet
  hdrs : List (List Octet)
  tick : Word32
  deriving DecidableEq, Repr

/-- One change the runtime makes to an input it owns: `tick` goes up, modulo 2^32 (R50), or the octets of a variable
are other ones (R290). -/
inductive RuntimeChange where
  | tickAdvance (n : Word32)
  | varBytes (index : Nat) (value : List Octet)
  deriving DecidableEq, Repr

/-- The input events (R45). The last one is the runtime changing its own inputs between events (R50, R290, log 6).
`pollTcp` carries what the runtime changes within the pass: entry `k` of `between` before slot `k` is served. That a
pass may see such a change, although "nothing else happens between its slots" (R190), is the model's choice (log 15). -/
inductive Event where
  | reset (l : Launch)
  | pollSerial
  | pollTcp (between : List (List RuntimeChange))
  | tick
  | rxByte (b : Octet)
  | txDrained
  | tcpConnect
  | tcpConnectWithdraw
  | tcpData (slot : Nat) (octets : List Octet)
  | tcpClose (slot : Nat)
  | appWrite (ws : List BankWrite)
  | runtime (changes : List RuntimeChange)
  deriving DecidableEq, Repr

/-- The output events (R46). -/
inductive Output where
  | txEnAssert
  | txEnDeassert
  | txByte (b : Octet)
  | tcpSend (slot : Nat) (octets : List Octet)
  | setTrace (index : Word16) (force : Bool) (value : List Octet)
  deriving DecidableEq, Repr

/-! ## The reasons a step can stop -/

/-- Faults. The block has no fault state (R328). -/
inductive Fault where
  /-- Raised by `MemRead`/`MemWrite` on a 1-bit space for `a + n > size` (R15). Safe: every meaning establishes the
  bound first (R26), so none reaches it. -/
  | bitRange (sp : BitSpace)
  /-- Raised by `MemRead`/`MemWrite` on a 16-bit space for `a + n > size` (R15). Safe, as `bitRange`. -/
  | wordRange (sp : WordSpace)
  deriving DecidableEq, Repr

/-- Refusals. -/
inductive Refusal where
  /-- Raised by an arm of `exec` whose instruction has no meaning yet: none. Safe. -/
  | notModelled (mnemonic : String)
  /-- Raised by `step` in a state whose configuration is illegal, and by the `Reset` event for an illegal one (R31,
  R354: refused by the model, no behaviour is given). Safe. -/
  | illegalConfiguration
  /-- Raised by `dispatch` of an empty PDU, for which R220 gives nothing. Safe: neither framer dispatches one (R162,
  R198). -/
  | emptyPdu
  deriving DecidableEq, Repr

/-! ## The state (R20) -/

/-- The state of the block. -/
structure State where
  /-- the constants of this build (R34) -/
  build : Build
  /-- the Register Bank (R21 to R24) -/
  mem : Memory
  /-- configuration registers (R30 to R33) -/
  slaveId : Octet
  baud : Word32
  t15 : Word32
  t35 : Word32
  txenPresent : Bool
  txenLeadIn : Word32
  /-- Serial Framer working registers (R35 to R39) -/
  fsm : Fsm
  frame : List Octet
  frameLen : Nat
  lastCount : Nat
  winTimer : Word32
  crcHi : Octet
  crcLo : Octet
  isBroadcast : Bool
  rxOverrun : Bool
  txPhase : TxPhase
  txen : Bool
  /-- the serial receive queue (R40) -/
  rxq : List Octet
  /-- inbound connection attempts not yet accepted (R44) -/
  connPending : Nat
  /-- the connection table (R43, R47) -/
  slots : List Slot
  /-- the negotiated debug byte order (R49) -/
  dbgOrder : DbgOrder
  /-- the runtime's tick counter, an input (R50, log 6, log 15) -/
  tick : Word32
  /-- the runtime's debug variables, an input: entry `i` is `VarBytes(i)` (R290, log 6, log 15) -/
  vars : List (List Octet)
  /-- the output trace, oldest first (R46) -/
  trace : List Output
  /-- the model's own: input events not handled yet, oldest first (R45, log 7) -/
  inputs : List Event
  /-- the model's own: the response PDU `Q` on its way from the dispatcher to the framer (R220, R227, log 8) -/
  respPdu : List Octet
  deriving DecidableEq, Repr

/-- The build of the spec's worked examples (spec/95_test_vectors.md, spec/46_debug_functions.md; log 1). -/
def exampleBuild : Build where
  maxFrame := 256
  maxSrvClients := 2
  nCoils := 16
  nDisc := 16
  nHold := 10
  nInreg := 8
  hash := [0x64#8, 0x34#8, 0x31#8, 0x64#8, 0x38#8, 0x63#8, 0x64#8, 0x39#8] ++
    [0x38#8, 0x66#8, 0x30#8, 0x30#8, 0x62#8, 0x32#8, 0x30#8, 0x34#8] ++
    [0x65#8, 0x39#8, 0x38#8, 0x30#8, 0x30#8, 0x39#8, 0x39#8, 0x38#8] ++
    [0x65#8, 0x63#8, 0x66#8, 0x38#8, 0x34#8, 0x32#8, 0x37#8, 0x65#8]

/-- A free slot as reset leaves it (R47, R52; `hdr` log 4). -/
def freeSlot : Slot where
  live := false
  hdr := [0#8, 0#8, 0#8, 0#8, 0#8, 0#8]
  hdrLen := 0
  declLen := 0#16
  sockq := []

/-- The machine right after reset and configuration (R52, R53, R351). The values of R52 are the spec's; the build, the
configuration, the bank, the residues of `frame` and `hdr`, `tick` and the variables are named in log 1 to 4 and 6. -/
def State.reset : State where
  build := exampleBuild
  mem := ⟨[], [], [], []⟩
  slaveId := 0x01#8
  baud := 9600#32
  t15 := 1718#32
  t35 := 6013#32
  txenPresent := true
  txenLeadIn := 100#32
  fsm := .idle
  frame := List.replicate 259 0#8
  frameLen := 0
  lastCount := 0
  winTimer := 0#32
  crcHi := 0xFF#8
  crcLo := 0xFF#8
  isBroadcast := false
  rxOverrun := false
  txPhase := .leadIn
  txen := false
  rxq := []
  connPending := 0
  slots := [freeSlot, freeSlot]
  dbgOrder := .asDEAD
  tick := 0x00000064#32
  vars := [[0x01#8], [0x12#8, 0x34#8], [0xDE#8, 0xAD#8, 0xBE#8, 0xEF#8], [0x00#8, 0x2A#8]]
  trace := []
  inputs := []
  respPdu := []

end Sys2Proof.Machine
end

