-- ==== Sys2Proof/Machine/Ops.lean ====
section
/-! DEFINITION. The shared operations: the Register Bank's MemRead and MemWrite, output, answering a request, and
raising an exception (spec/00_scope.md R15, spec/20_memory.md, spec/43_pdu_mux.md R224 to R226). -/

namespace Sys2Proof.Machine

open Sys2Proof

/-- What a step of this machine answers. -/
abbrev Result := Host.Outcome State Fault Refusal

/-- Go on with `k` from the next state; a fault or a refusal ends the step. -/
def andThen (r : Result) (k : State → Result) : Result :=
  match r with
  | .next s => k s
  | .fault e => .fault e
  | .refused e => .refused e

/-! ## Tables of elements -/

/-- The element `i` of a table whose unlisted elements read as `d`. -/
def Table.read {α : Type} (d : α) (t : Table α) (i : Nat) : α :=
  match t with
  | [] => d
  | (k, x) :: rest => if k = i then x else Table.read d rest i

/-- Write element `i`, keeping the canonical form. -/
def Table.write {α : Type} [DecidableEq α] (d : α) (t : Table α) (i : Nat) (v : α) : Table α :=
  match t with
  | [] => if v = d then [] else [(i, v)]
  | (k, x) :: rest =>
    if i < k then (if v = d then (k, x) :: rest else (i, v) :: (k, x) :: rest)
    else if i = k then (if v = d then rest else (i, v) :: rest)
    else (k, x) :: Table.write d rest i v

/-- Write consecutive elements from `a` on, in ascending order. -/
def Table.writeRun {α : Type} [DecidableEq α] (d : α) (t : Table α) (a : Nat) (vs : List α) : Table α :=
  match vs with
  | [] => t
  | v :: rest => Table.writeRun d (Table.write d t a v) (a + 1) rest

/-- The canonical form of a table: indices strictly rising, nothing listed that reads the same unlisted. -/
abbrev Table.wf {α : Type} [DecidableEq α] (d : α) (t : Table α) : Prop :=
  t.Pairwise (fun a b => a.1 < b.1) ∧ ∀ c ∈ t, c.2 ≠ d

/-- Every listed element exists in a table of `n` elements. -/
abbrev Table.within {α : Type} (n : Nat) (t : Table α) : Prop := ∀ c ∈ t, c.1 < n

/-! ## The Register Bank (R60 to R62) -/

/-- The table of a 1-bit space. -/
def Memory.bits (m : Memory) : BitSpace → Table Bool
  | .coil => m.coils
  | .disc => m.discreteInputs

/-- The table of a 16-bit space. -/
def Memory.words (m : Memory) : WordSpace → Table Word16
  | .hold => m.holdingRegisters
  | .inreg => m.inputRegisters

/-- Put the table of a 1-bit space. -/
def Memory.setBits (m : Memory) (sp : BitSpace) (t : Table Bool) : Memory :=
  match sp with
  | .coil => { m with coils := t }
  | .disc => { m with discreteInputs := t }

/-- Put the table of a 16-bit space. -/
def Memory.setWords (m : Memory) (sp : WordSpace) (t : Table Word16) : Memory :=
  match sp with
  | .hold => { m with holdingRegisters := t }
  | .inreg => { m with inputRegisters := t }

/-- What an element of a 1-bit space that nothing has written reads as (log 2). -/
def bitDefault : Bool := false

/-- What an element of a 16-bit space that nothing has written reads as (log 2). -/
def wordDefault : Word16 := 0#16

/-- The element `i` of a 1-bit space. -/
def Memory.bit (m : Memory) (sp : BitSpace) (i : Nat) : Bool := Table.read bitDefault (m.bits sp) i

/-- The element `i` of a 16-bit space. -/
def Memory.word (m : Memory) (sp : WordSpace) (i : Nat) : Word16 := Table.read wordDefault (m.words sp) i

/-- The canonical form of the bank: each of its four tables has it. -/
abbrev Memory.wf (m : Memory) : Prop :=
  Table.wf bitDefault m.coils ∧ Table.wf bitDefault m.discreteInputs ∧
  Table.wf wordDefault m.holdingRegisters ∧ Table.wf wordDefault m.inputRegisters

/-- Storage unit `j` of a 1-bit space: element `i` is bit `i % 8` of unit `i / 8` (R21). -/
def Memory.storageUnit (m : Memory) (sp : BitSpace) (j : Nat) : Octet :=
  BitVec.ofFnLE fun (b : Fin 8) => m.bit sp (8 * j + b)

/-- The size of a 1-bit space (R9, R60). -/
def bitSize (b : Build) : BitSpace → Nat
  | .coil => b.nCoils
  | .disc => b.nDisc

/-- The size of a 16-bit space (R9, R60). -/
def wordSize (b : Build) : WordSpace → Nat
  | .hold => b.nHold
  | .inreg => b.nInreg

/-- Every listed element lies inside its space. -/
abbrev Memory.within (b : Build) (m : Memory) : Prop :=
  Table.within b.nCoils m.coils ∧ Table.within b.nDisc m.discreteInputs ∧
  Table.within b.nHold m.holdingRegisters ∧ Table.within b.nInreg m.inputRegisters

/-- `MemRead` of a 1-bit space (R15): the `n` elements from `a` on, handed to `k`. -/
def memReadBits (sp : BitSpace) (a n : Nat) (s : State) (k : List Bool → Result) : Result :=
  if a + n ≤ bitSize s.build sp then k ((List.range' a n).map (s.mem.bit sp))
  else .fault (.bitRange sp)

/-- `MemRead` of a 16-bit space (R15). -/
def memReadWords (sp : WordSpace) (a n : Nat) (s : State) (k : List Word16 → Result) : Result :=
  if a + n ≤ wordSize s.build sp then k ((List.range' a n).map (s.mem.word sp))
  else .fault (.wordRange sp)

/-- The state after `MemWrite` of a 1-bit space (R15). -/
def State.writeBits (s : State) (sp : BitSpace) (a : Nat) (vs : List Bool) : State :=
  { s with mem := s.mem.setBits sp (Table.writeRun bitDefault (s.mem.bits sp) a vs) }

/-- The state after `MemWrite` of a 16-bit space (R15). -/
def State.writeWords (s : State) (sp : WordSpace) (a : Nat) (vs : List Word16) : State :=
  { s with mem := s.mem.setWords sp (Table.writeRun wordDefault (s.mem.words sp) a vs) }

/-- `MemWrite` of a 1-bit space (R15), then `k`. -/
def memWriteBits (sp : BitSpace) (a : Nat) (vs : List Bool) (s : State) (k : State → Result) : Result :=
  if a + vs.length ≤ bitSize s.build sp then k (s.writeBits sp a vs) else .fault (.bitRange sp)

/-- `MemWrite` of a 16-bit space (R15), then `k`. -/
def memWriteWords (sp : WordSpace) (a : Nat) (vs : List Word16) (s : State) (k : State → Result) : Result :=
  if a + vs.length ≤ wordSize s.build sp then k (s.writeWords sp a vs) else .fault (.wordRange sp)

/-! ## Output and answers -/

/-- `emit E` (R15): append an output event to the trace. -/
def State.emit (s : State) (e : Output) : State := { s with trace := s.trace ++ [e] }

/-- Leave the response PDU `Q` for the framer (R220, R227). -/
def State.reply (s : State) (q : List Octet) : State := { s with respPdu := q }

/-- A handler ends with the response PDU `Q`. -/
def answer (q : List Octet) (s : State) : Result := .next (s.reply q)

/-! ## Exceptions (R224, R326) -/

/-- The number of an exception code (R101). -/
def excOctet : ExcCode → Octet
  | .illegalFunction => 0x01#8
  | .illegalAddress => 0x02#8
  | .illegalValue => 0x03#8
  | .slaveFailure => 0x04#8

/-- `EXC_BUILD` (R224): `[fc | 0x80, code]`. -/
def excBuild (fc : Octet) (code : ExcCode) : List Octet := [fc ||| 0x80#8, excOctet code]

/-- `raise Exc(code)` (R224, R326): the handler stops, nothing is saved or switched, no Register Bank element changes,
and the exception response goes to the framer. The return from it (R327) is the framer's: it sends this PDU exactly
like a normal response (`rtuRespond`, `mbapEmit`). -/
def raiseExc (fc : Octet) (code : ExcCode) (s : State) : Result := answer (excBuild fc code) s

/-- `CAPACITY_GUARD` (R226), then `k`. -/
def capacityGuard (fc : Octet) (lenQ : Nat) (s : State) (k : Result) : Result :=
  if s.build.maxFrame < lenQ then raiseExc fc .slaveFailure s else k

end Sys2Proof.Machine
end

