-- ==== Sys2Proof/Machine/Operands.lean ====
section
/-! DEFINITION. Operand forms: packed bits, register octets, and the fixed buffers of the framers
(spec/45_bit_functions.md R270, R271; spec/20_memory.md R63, R67; spec/10_state.md R36, R47). -/

namespace Sys2Proof.Machine

open Sys2Proof

/-- `ceil(n/8) = (n + 7) / 8` (R13, R228). -/
def ceil8 (n : Nat) : Nat := (n + 7) / 8

/-- One packed octet: bit `m` is element `m`, absent elements are 0 (R270). -/
def packOctet (bits : List Bool) : Octet := BitVec.ofFnLE fun (m : Fin 8) => bits.getD m false

/-- `PACK(bits)` (R270): octet `j` holds elements `8j .. 8j+7`, lowest address in bit 0. -/
def pack (bits : List Bool) : List Octet :=
  (List.range (ceil8 bits.length)).map fun j => packOctet (bits.drop (8 * j))

/-- `UNPACK(D, k)` (R271): bit `i` is bit `i % 8` of octet `i / 8`; bits at positions `>= k` are ignored. -/
def unpack (d : List Octet) (k : Nat) : List Bool :=
  (List.range k).map fun i => (d.getD (i / 8) 0#8).getLsbD (i % 8)

/-- Registers on the wire, each high octet first, in ascending order (R63). -/
def wordOctets (ws : List Word16) : List Octet := ws.flatMap be16enc

/-- Overwrite a buffer from octet `off` on (the frame buffer is written in place, R36, R163). -/
def overwrite (buf : List Octet) (off : Nat) (bs : List Octet) : List Octet :=
  buf.take off ++ bs ++ buf.drop (off + bs.length)

/-- A buffer of exactly `n` octets with the given contents, as far as they go. -/
def fitTo (n : Nat) (bs : List Octet) : List Octet := (bs ++ List.replicate n 0#8).take n

end Sys2Proof.Machine
end

