-- ==== Sys2Proof/Machine/Flags.lean ====
section
/-! DEFINITION. The one-bit registers' conditions. No function of this block writes a flag (spec/43_pdu_mux.md R228);
the block's flags are `is_broadcast` and `rx_overrun` (spec/10_state.md R39), and the boolean a coil is written with
(spec/45_bit_functions.md R274). -/

namespace Sys2Proof.Machine

open Sys2Proof

/-- The broadcast address (R91, R160; 90_conflicts C7: 0xFF, and 0x00 is an ordinary address). -/
def broadcastAddr : Octet := 0xFF#8

/-- `is_broadcast <- (addr = 0xFF)` (R159). -/
def broadcastFlag (addr : Octet) : Bool := addr == broadcastAddr

/-- `rx_overrun <- 1` when an octet arrives with the receive queue full (R40). -/
def overrunFlag (old : Bool) (cap : Nat) (q : List Octet) : Bool := old || decide (cap ≤ q.length)

/-- The two legal statuses of 0x05 (R98, R274). -/
def coilStatusLegal (status : Word16) : Bool := status == 0x0000#16 || status == 0xFF00#16

/-- `coils[coil] = (status == 0xFF00)` (R274). -/
def coilStatusOn (status : Word16) : Bool := status == 0xFF00#16

/-- The force flag of 0x42: 0 is false, any other value true (R103). -/
def forceFlag (f : Octet) : Bool := f != 0x00#8

end Sys2Proof.Machine
end

