-- ==== Sys2Proof/Machine/Bits.lean ====
section
/-! DEFINITION. The bit functions 0x01, 0x02, 0x05, 0x0F (spec/45_bit_functions.md R272 to R275). The checks stand in
the order of spec/43_pdu_mux.md R225. -/

namespace Sys2Proof.Machine

open Sys2Proof

/-- Read `count` bits of a space (R272, R273): function code, byte count, packed bits. -/
def readBits (fc : Octet) (sp : BitSpace) (o : Option RdOps) (s : State) : Result :=
  match o with
  | none => raiseExc fc .illegalValue s
  | some ⟨start, count⟩ =>
    if count.toNat < 1 ∨ 0x7D0 < count.toNat then raiseExc fc .illegalValue s
    else if bitSize s.build sp < start.toNat + count.toNat then raiseExc fc .illegalAddress s
    else
      capacityGuard fc (2 + ceil8 count.toNat) s <|
        memReadBits sp start.toNat count.toNat s fun bits =>
          answer ([fc, BitVec.ofNat 8 (ceil8 count.toNat)] ++ pack bits) s

/-- `RDCOIL`, Read Coils (R272). -/
def execRdcoil (o : Option RdOps) (s : State) : Result := readBits 0x01#8 .coil o s

/-- `RDDISC`, Read Discrete Inputs (R273). -/
def execRddisc (o : Option RdOps) (s : State) : Result := readBits 0x02#8 .disc o s

/-- `WRCOIL`, Write Single Coil (R274). The response is the request's first five octets. -/
def execWrcoil (o : Option Wr1Ops) (s : State) : Result :=
  match o with
  | none => raiseExc 0x05#8 .illegalValue s
  | some ⟨coil, status⟩ =>
    if coilStatusLegal status = false then raiseExc 0x05#8 .illegalValue s
    else if s.build.nCoils ≤ coil.toNat then raiseExc 0x05#8 .illegalAddress s
    else
      memWriteBits .coil coil.toNat [coilStatusOn status] s
        (answer ([0x05#8] ++ be16enc coil ++ be16enc status))

/-- `WRCOILS`, Write Multiple Coils (R275). The response echoes start and count. -/
def execWrcoils (o : Option WrnOps) (s : State) : Result :=
  match o with
  | none => raiseExc 0x0F#8 .illegalValue s
  | some ⟨start, count, bc, data⟩ =>
    if count.toNat < 1 ∨ 0x7B0 < count.toNat then raiseExc 0x0F#8 .illegalValue s
    else if bc.toNat ≠ ceil8 count.toNat then raiseExc 0x0F#8 .illegalValue s
    else if data.length < bc.toNat then raiseExc 0x0F#8 .illegalValue s
    else if s.build.nCoils < start.toNat + count.toNat then raiseExc 0x0F#8 .illegalAddress s
    else
      memWriteBits .coil start.toNat (unpack data count.toNat) s
        (answer ([0x0F#8] ++ be16enc start ++ be16enc count))

end Sys2Proof.Machine
end

