-- ==== Sys2Proof/Machine/Debug.lean ====
section
/-! DEFINITION. The debug functions 0x41 to 0x45 (spec/46_debug_functions.md R290 to R308). Their errors are result
octets of an ordinary response, never Modbus exceptions (R291). -/

namespace Sys2Proof.Machine

open Sys2Proof

/-! ## The external accessors (R290) -/

/-- `variable_count()`, a 16-bit value. -/
def variableCount (s : State) : Word16 := BitVec.ofNat 16 s.vars.length

/-- `VarBytes(i)`, the `variable_size(i)` octets of variable `i`. -/
def varBytes (s : State) (i : Word16) : List Octet := s.vars.getD i.toNat []

/-- An index the accessors may be called with: `i < variable_count()`. -/
def indexInRange (s : State) (i : Word16) : Bool := i.toNat < (variableCount s).toNat

/-! ## The runtime's changes to its inputs (R50, R290) -/

/-- `tick` after the runtime's changes: it only advances, modulo 2^32 (R50). -/
def tickAfter (cs : List RuntimeChange) (t : Word32) : Word32 :=
  cs.foldl (fun t c => match c with | .tickAdvance n => t + n | .varBytes _ _ => t) t

/-- Variable `i` with other octets; its size is fixed (R290), so octets of another number change nothing (log 10). -/
def setVariable (vars : List (List Octet)) (i : Nat) (value : List Octet) : List (List Octet) :=
  if value.length = (vars.getD i []).length then vars.set i value else vars

/-- The variables after the runtime's changes. -/
def varsAfter (cs : List RuntimeChange) (vars : List (List Octet)) : List (List Octet) :=
  cs.foldl (fun vs c => match c with | .tickAdvance _ => vs | .varBytes i v => setVariable vs i v) vars

/-- The runtime has changed its inputs, in the order listed; nothing else changes. -/
def runtimeChanges (cs : List RuntimeChange) (s : State) : State :=
  { s with tick := tickAfter cs s.tick, vars := varsAfter cs s.vars }

/-! ## Result codes (R107, R291) -/

/-- 0x7E success. -/
def resSuccess : Octet := 0x7E#8

/-- 0x81 out-of-range. -/
def resOutOfRange : Octet := 0x81#8

/-- The two-octet error response of a debug function. -/
def debugError (fc : Octet) (s : State) : Result := answer [fc, resOutOfRange] s

/-! ## Copying variables (R299, R303) -/

/-- The copy loop: the octets copied so far and the last index copied; it stops at the first variable that would make
the response exceed `MAX_FRAME` and skips none (R300, R304). -/
def copyLoop (s : State) (last : Word16) (data : List Octet) : List Word16 → Word16 × List Octet
  | [] => (last, data)
  | i :: rest =>
    if s.build.maxFrame < 10 + data.length + (varBytes s i).length then (last, data)
    else copyLoop s i (data ++ varBytes s i) rest

/-- The success response of 0x43 and 0x44 (R104): last index, tick, byte count, data. `tick` is the value the runtime's
changes have left when this request is served (R50). `last` is the first index when
nothing fits (R301). -/
def copyVariables (fc : Octet) (first : Word16) (indices : List Word16) (s : State) : Result :=
  let (last, data) := copyLoop s first [] indices
  answer ([fc, resSuccess] ++ be16enc last ++ be32enc s.tick ++ be16enc (BitVec.ofNat 16 data.length) ++ data) s

/-- The indices `start, start+1, ..., end` (R299). -/
def indexRange (first last : Word16) : List Word16 :=
  (List.range' first.toNat (last.toNat + 1 - first.toNat)).map (BitVec.ofNat 16)

/-! ## The five functions -/

/-- `DBGINFO` (R294). -/
def execDbginfo (s : State) : Result := answer ([0x41#8] ++ be16enc (variableCount s)) s

/-- `DBGSET` (R295): all checks, then the `SetTrace` event, then success. -/
def execDbgset (o : Option SetOps) (s : State) : Result :=
  match o with
  | none => debugError 0x42#8 s
  | some ⟨index, force, length, value⟩ =>
    if indexInRange s index = false ∨ s.build.maxFrame < length.toNat + 7 then debugError 0x42#8 s
    else if value.length < length.toNat then debugError 0x42#8 s
    else answer [0x42#8, resSuccess] (s.emit (.setTrace index (forceFlag force) value))

/-- `DBGGET` (R298, R299). -/
def execDbgget (o : Option GetOps) (s : State) : Result :=
  match o with
  | none => debugError 0x43#8 s
  | some ⟨first, last⟩ =>
    if last.toNat < first.toNat ∨ indexInRange s last = false then debugError 0x43#8 s
    else copyVariables 0x43#8 first (indexRange first last) s

/-- `DBGLIST` (R302, R303): every index is checked before anything is copied. -/
def execDbglist (o : Option ListOps) (s : State) : Result :=
  match o with
  | none => debugError 0x44#8 s
  | some ⟨n, idx⟩ =>
    if n = 0#16 ∨ idx.length < n.toNat then debugError 0x44#8 s
    else if idx.all (indexInRange s) = false then debugError 0x44#8 s
    else copyVariables 0x44#8 (idx.headD 0#16) idx s

/-- `DBGMD5` (R305, R306): the hash follows the result octet in every case. -/
def execDbgmd5 (marker : Option Word16) (s : State) : Result :=
  if marker = some 0xDEAD#16 then answer ([0x45#8, resSuccess] ++ s.build.hash) { s with dbgOrder := .asDEAD }
  else if marker = some 0xADDE#16 then answer ([0x45#8, resSuccess] ++ s.build.hash) { s with dbgOrder := .asADDE }
  else answer ([0x45#8, resOutOfRange] ++ s.build.hash) s

end Sys2Proof.Machine
end

