-- ==== Sys2Proof/Machine/Registers.lean ====
section
/-! DEFINITION. The register functions 0x03, 0x04, 0x06, 0x10 (spec/44_register_functions.md R250 to R253). The checks
stand in the order of spec/43_pdu_mux.md R225. -/

namespace Sys2Proof.Machine

open Sys2Proof

/-- Read `count` registers of a space (R250, R251): function code, byte count, registers high octet first. -/
def readWords (fc : Octet) (sp : WordSpace) (o : Option RdOps) (s : State) : Result :=
  match o with
  | none => raiseExc fc .illegalValue s
  | some ⟨start, count⟩ =>
    if count.toNat < 1 ∨ 0x7D < count.toNat then raiseExc fc .illegalValue s
    else if wordSize s.build sp < start.toNat + count.toNat then raiseExc fc .illegalAddress s
    else
      capacityGuard fc (2 + 2 * count.toNat) s <|
        memReadWords sp start.toNat count.toNat s fun ws =>
          answer ([fc, BitVec.ofNat 8 (2 * count.toNat)] ++ wordOctets ws) s

/-- `RDHOLD`, Read Holding Registers (R250). -/
def execRdhold (o : Option RdOps) (s : State) : Result := readWords 0x03#8 .hold o s

/-- `RDINREG`, Read Input Registers (R251). -/
def execRdinreg (o : Option RdOps) (s : State) : Result := readWords 0x04#8 .inreg o s

/-- `WRREG`, Write Single Register (R252). The response is the request's first five octets. -/
def execWrreg (o : Option Wr1Ops) (s : State) : Result :=
  match o with
  | none => raiseExc 0x06#8 .illegalValue s
  | some ⟨register, value⟩ =>
    if s.build.nHold ≤ register.toNat then raiseExc 0x06#8 .illegalAddress s
    else
      memWriteWords .hold register.toNat [value] s
        (answer ([0x06#8] ++ be16enc register ++ be16enc value))

/-- `WRREGS`, Write Multiple Registers (R253). The response echoes start and count. -/
def execWrregs (o : Option WrnOps) (s : State) : Result :=
  match o with
  | none => raiseExc 0x10#8 .illegalValue s
  | some ⟨start, count, bc, data⟩ =>
    if count.toNat < 1 ∨ 0x7B < count.toNat then raiseExc 0x10#8 .illegalValue s
    else if bc.toNat ≠ 2 * count.toNat then raiseExc 0x10#8 .illegalValue s
    else if data.length < bc.toNat then raiseExc 0x10#8 .illegalValue s
    else if s.build.nHold < start.toNat + count.toNat then raiseExc 0x10#8 .illegalAddress s
    else
      memWriteWords .hold start.toNat ((be16s data).take count.toNat) s
        (answer ([0x10#8] ++ be16enc start ++ be16enc count))

end Sys2Proof.Machine
end

