-- ==== Sys2Proof/Machine/Dispatch.lean ====
section
/-! DEFINITION. One arm per request PDU (spec/43_pdu_mux.md R220). -/

namespace Sys2Proof.Machine

open Sys2Proof

/-- The handler of each function code (R220). -/
def exec (i : Instr) (s : State) : Host.Outcome State Fault Refusal :=
  match i with
  | .rdcoil o => Sys2Proof.Machine.execRdcoil o s
  | .rddisc o => Sys2Proof.Machine.execRddisc o s
  | .rdhold o => Sys2Proof.Machine.execRdhold o s
  | .rdinreg o => Sys2Proof.Machine.execRdinreg o s
  | .wrcoil o => Sys2Proof.Machine.execWrcoil o s
  | .wrreg o => Sys2Proof.Machine.execWrreg o s
  | .wrcoils o => Sys2Proof.Machine.execWrcoils o s
  | .wrregs o => Sys2Proof.Machine.execWrregs o s
  | .dbginfo => Sys2Proof.Machine.execDbginfo s
  | .dbgset o => Sys2Proof.Machine.execDbgset o s
  | .dbgget o => Sys2Proof.Machine.execDbgget o s
  | .dbglist o => Sys2Proof.Machine.execDbglist o s
  | .dbgmd5 marker => Sys2Proof.Machine.execDbgmd5 marker s

end Sys2Proof.Machine
end

