-- ==== Sys2Proof/Machine/Multiplexer.lean ====
section
/-! DEFINITION. The PDU Dispatcher (spec/43_pdu_mux.md R220 to R222): the handler of the function code in `P[0]`, or
ILLEGAL_FUNCTION. It is shared by both transports and sees nothing of the ADU (R221). -/

namespace Sys2Proof.Machine

open Sys2Proof

/-- `DISPATCH(P)` (R220). The response PDU is left in `respPdu` (log 8). R220 gives nothing for an empty `P`. -/
def dispatch (p : List Octet) (s : State) : Result :=
  match decode p with
  | .ok i => exec i s
  | .error (.unknownFunction fc) => raiseExc fc .illegalFunction s
  | .error .emptyPdu => .refused .emptyPdu

end Sys2Proof.Machine
end

