-- ==== Sys2Proof/Machine/Serial.lean ====
section
/-! DEFINITION. The Serial Framer, event by event (spec/41_serial_framer.md R150 to R174, spec/10_state.md R40). -/

namespace Sys2Proof.Machine

open Sys2Proof

/-! ## Timing constants -/

/-- `T1.5` of `TIMING_CONFIG(baud)` (R151): truncating division up to 19200 baud, 750 above. -/
def t15Of (baud : Word32) : Word32 :=
  if baud.toNat ≤ 19200 then BitVec.ofNat 32 (16500000 / baud.toNat) else 750#32

/-- `T3.5` of `TIMING_CONFIG(baud)` (R151): `(t15 * 7) / 2`, truncating. -/
def t35Of (t15 : Word32) : Word32 := BitVec.ofNat 32 (t15.toNat * 7 / 2)

/-! ## Receiving -/

/-- Event `RxByte(b)` (R40): queued, or lost with `rx_overrun` set when the queue is full. -/
def rxByte (b : Octet) (s : State) : State :=
  { s with
    rxq := if s.rxq.length < s.build.rxCap then s.rxq ++ [b] else s.rxq
    rxOverrun := overrunFlag s.rxOverrun s.build.rxCap s.rxq }

/-- Take a sample of the available-octet count and start a window (R153, R155). -/
def startWindow (s : State) : State := { s with lastCount := s.rxq.length, winTimer := s.t15 }

/-- `RTU_POLL`: event `PollSerial` (R153). Busy polls change nothing (R154). -/
def rtuPoll (s : State) : State :=
  if s.fsm = .idle ∧ s.rxq ≠ [] then { startWindow s with fsm := .collecting } else s

/-! ## Responding (R164 to R169) -/

/-- The frame `R` to send (R165, R137): address, response PDU and a freshly computed CRC, read from the frame buffer,
which holds address and PDU (R163). -/
def responseFrame (s : State) : List Octet :=
  crcAppend (s.frame.getD 0 0#8) ((s.frame.take s.frameLen).drop 1)

/-- `SEND(R)` (R167): the octets in order, then the flush. -/
def send (s : State) : State :=
  { s with trace := s.trace ++ (responseFrame s).map .txByte, txPhase := .flush }

/-- Back to `Idle` with an empty frame buffer: a drop (R159), a broadcast (R164) or the end of a response (R169). -/
def toIdle (s : State) : State := { s with frameLen := 0, fsm := .idle }

/-- The addressed case of `RTU_RESPOND` (R165): transmit-enable and lead-in where configured, else `SEND` at once. -/
def respondAddressed (s : State) : State :=
  let s := { s.withCrc (s.frame.take s.frameLen) with fsm := .responding }
  if s.txenPresent then
    let s := { s with txen := true }.emit .txEnAssert
    if s.txenLeadIn = 0#32 then send s else { s with txPhase := .leadIn, winTimer := s.txenLeadIn }
  else send s

/-- `RTU_RESPOND` (R164, R165): a broadcast is never answered. -/
def rtuRespond (s : State) : State := if s.isBroadcast then toIdle s else respondAddressed s

/-- `RTU_DISPATCH` after `DISPATCH` returned `Q` (R163): `Q` goes into the frame buffer behind the address. -/
def placeResponse (s : State) : State :=
  { s with
    frame := overwrite s.frame 1 s.respPdu
    frameLen := 1 + s.respPdu.length
    respPdu := [] }

/-- `RTU_DISPATCH` (R163) and the entry into `Responding`, in the same event (R158). -/
def rtuDispatch (n : Nat) (s : State) : Result :=
  andThen (dispatch ((s.frame.take (n - 2)).drop 1) s) fun s => .next (rtuRespond (placeResponse s))

/-! ## Validating (R159 to R162) -/

/-- The checks of `RTU_VALIDATE` in their order (R159) on the frame `f`; `none` accepts. -/
def rtuVerdict (overrun : Bool) (slaveId : Octet) (f : List Octet) : Option Drop :=
  if overrun then some .overrun
  else if f.length ≤ 3 then some .tooShort
  else if crcCheck f = false then some .badCrc
  else if f.getD 0 0#8 ≠ slaveId ∧ f.getD 0 0#8 ≠ broadcastAddr then some .foreignAddress
  else none

/-- The accumulator registers after validation: the CRC runs only when the length check is reached and passed (R159,
R134). -/
def validateCrc (s : State) (f : List Octet) : State :=
  if s.rxOverrun ∨ f.length ≤ 3 then s else s.withCrc (f.take (f.length - 2))

/-- `RTU_VALIDATE` on the first `n` octets of `frame` (R159), then `RTU_DISPATCH` or a drop: no output, no Register
Bank change. -/
def rtuValidate (n : Nat) (s : State) : Result :=
  let f := s.frame.take n
  let s' := { validateCrc s f with rxOverrun := false }
  match rtuVerdict s.rxOverrun s.slaveId f with
  | some _ => .next (toIdle s')
  | none =>
    rtuDispatch n { s' with isBroadcast := broadcastFlag (f.getD 0 0#8), fsm := .dispatching }

/-! ## Collecting (R155, R158) -/

/-- The frame taken by `RTU_COMPLETE` (R158). -/
def takeFrame (s : State) : State :=
  { s with
    frame := overwrite s.frame 0 (s.rxq.take s.lastCount)
    rxq := s.rxq.drop s.lastCount
    frameLen := s.lastCount
    fsm := .validating }

/-- `RTU_COMPLETE` (R158). -/
def rtuComplete (s : State) : Result := rtuValidate s.lastCount (takeFrame s)

/-- One tick of `win_timer` (R331; from 0 it wraps, log 11). -/
def countDown (s : State) : State := { s with winTimer := s.winTimer - 1#32 }

/-- `RTU_WINDOW`: event `Tick` in `Collecting` (R155). -/
def rtuWindow (s : State) : Result :=
  let s := countDown s
  if s.winTimer = 0#32 then
    if s.rxq.length = s.lastCount then rtuComplete s else .next (startWindow s)
  else .next s

/-! ## The events of `Responding` -/

/-- Event `Tick` in the lead-in (R166). -/
def leadInTick (s : State) : State :=
  let s := countDown s
  if s.winTimer = 0#32 then send s else s

/-- Release of the line at the end of the frame delay (R169). -/
def release (s : State) : State :=
  let s := if s.txenPresent then { s with txen := false }.emit .txEnDeassert else s
  { toIdle s with txPhase := .leadIn }

/-- Event `Tick` in the frame delay (R169). -/
def frameDelayTick (s : State) : State :=
  let s := countDown s
  if s.winTimer = 0#32 then release s else s

/-- Event `TxDrained` (R168); in any other state or phase it changes nothing. -/
def txDrained (s : State) : State :=
  if s.fsm = .responding ∧ s.txPhase = .flush then { s with txPhase := .frameDelay, winTimer := s.t35 } else s

/-- Event `Tick` (R155, R166, R169, R172); a state for which no rule is given changes nothing (R150). -/
def serialTick (s : State) : Result :=
  match s.fsm with
  | .collecting => rtuWindow s
  | .responding =>
    match s.txPhase with
    | .leadIn => .next (leadInTick s)
    | .flush => .next s
    | .frameDelay => .next (frameDelayTick s)
  | .idle => .next s
  | .validating => .next s
  | .dispatching => .next s

/-- The summary function `RtuTransact(F)` (R174): the frame transmitted, if any, and the state change of the
dispatcher. `none` in the second place means nothing is transmitted. -/
def rtuTransact (f : List Octet) (s : State) : Host.Outcome (State × Option (List Octet)) Fault Refusal :=
  if f.length ≤ 3 ∨ crcCheck f = false then .next (s, none)
  else if f.getD 0 0#8 ≠ s.slaveId ∧ f.getD 0 0#8 ≠ broadcastAddr then .next (s, none)
  else
    match dispatch ((f.take (f.length - 2)).drop 1) s with
    | .next t =>
      .next (t, if f.getD 0 0#8 = broadcastAddr then none else some (crcAppend (f.getD 0 0#8) t.respPdu))
    | .fault e => .fault e
    | .refused e => .refused e

end Sys2Proof.Machine
end

