-- ==== Sys2Proof/Machine/Tcp.lean ====
section
/-! DEFINITION. The TCP Framer (spec/42_tcp_framer.md R190 to R204, spec/10_state.md R43, R44, R47, R48). -/

namespace Sys2Proof.Machine

open Sys2Proof

/-- Put slot `i` of the connection table. -/
def State.setSlot (s : State) (i : Nat) (c : Slot) : State := { s with slots := s.slots.set i c }

/-! ## Accepting (R191) -/

/-- The least slot with `live = 0`. -/
def firstFree (slots : List Slot) : Option Nat := slots.findIdx? fun c => !c.live

/-- A slot as a connection is accepted into it (R191). -/
def acceptSlot (c : Slot) : Slot := { c with live := true, hdrLen := 0, declLen := 0#16, sockq := [] }

/-- `TCP_ACCEPT` (R191): at most one connection, into the least free slot; a full table ignores the attempt. -/
def tcpAccept (s : State) : State :=
  if s.connPending = 0 then s
  else
    match firstFree s.slots with
    | none => s
    | some i =>
      { s.setSlot i (acceptSlot (s.slots.getD i freeSlot)) with connPending := s.connPending - 1 }

/-! ## Collecting the MBAP prefix (R193) -/

/-- The loop of `MBAP_COLLECT` on the prefix buffer, its length and the socket queue. -/
def collectLoop (hdr : List Octet) (len : Nat) : List Octet → List Octet × Nat × List Octet
  | [] => (hdr, len, [])
  | b :: q => if len < 6 then collectLoop (hdr.set len b) (len + 1) q else (hdr, len, b :: q)

/-- `MBAP_COLLECT(s)` (R193). -/
def mbapCollect (c : Slot) : Slot :=
  let r := collectLoop c.hdr c.hdrLen c.sockq
  { c with hdr := r.1, hdrLen := r.2.1, sockq := r.2.2 }

/-! ## Parsing (R194 to R196, R198) -/

/-- The protocol identifier, `be16(H, 2)` (R194). -/
def mbapProto (c : Slot) : Word16 := be16 (c.hdr.getD 2 0#8) (c.hdr.getD 3 0#8)

/-- The declared length `L`, `be16(H, 4)` (R194). -/
def mbapLength (c : Slot) : Word16 := be16 (c.hdr.getD 4 0#8) (c.hdr.getD 5 0#8)

/-- The reject checks in their order (R196), then the empty PDU (R198); `none` accepts. -/
def mbapVerdict (maxFrame : Nat) (c : Slot) : Option Drop :=
  if mbapProto c ≠ 0#16 then some .notModbus
  else if mbapLength c = 0#16 then some .zeroLength
  else if maxFrame < (mbapLength c).toNat then some .tooLong
  else if c.sockq.length ≠ (mbapLength c).toNat then some .lengthMismatch
  else if mbapLength c = 1#16 then some .emptyPdu
  else none

/-- The slot after a drop. `MBAP_REJECT` (R202) discards everything available on the connection; an empty PDU consumes
its body of `L = 1` octets (R198). -/
def dropSlot (d : Drop) (c : Slot) : Slot :=
  match d with
  | .emptyPdu => { c with sockq := c.sockq.drop 1, hdrLen := 0 }
  | _ => { c with sockq := [], hdrLen := 0 }

/-- The ADU of `MBAP_EMIT` (R201): the request's transaction and protocol octets, the length `1 + len(Q)`, the unit
identifier, the response PDU. -/
def mbapAdu (hdr : List Octet) (unit : Octet) (q : List Octet) : List Octet :=
  hdr.take 4 ++ be16enc (BitVec.ofNat 16 (1 + q.length)) ++ [unit] ++ q

/-- `MBAP_EMIT(s, unit, Q)` (R201), with `Q` taken over from the dispatcher, and `hdr_len[s] <- 0` (R200). -/
def mbapEmit (i : Nat) (c : Slot) (unit : Octet) (s : State) : State :=
  ({ s.setSlot i { c with hdrLen := 0 } with respPdu := [] }).emit (.tcpSend i (mbapAdu c.hdr unit s.respPdu))

/-- `MBAP_PARSE(s)` (R194 to R202) on slot `i`, whose prefix `c` is complete. -/
def mbapParse (i : Nat) (c : Slot) (s : State) : Result :=
  let c := { c with declLen := mbapLength c }
  match mbapVerdict s.build.maxFrame c with
  | some d => .next (s.setSlot i (dropSlot d c))
  | none =>
    let body := c.sockq.take (mbapLength c).toNat
    let c := { c with sockq := c.sockq.drop (mbapLength c).toNat }
    andThen (dispatch (body.drop 1) (s.setSlot i c)) fun s => .next (mbapEmit i c (body.getD 0 0#8) s)

/-! ## The polling pass (R190, R192) -/

/-- `TCP_SERVE(s)` for slot `i`, if it is live (R190, R192). -/
def tcpServe (i : Nat) (s : State) : Result :=
  match s.slots[i]? with
  | none => .next s
  | some c =>
    if c.live = false then .next s
    else if (mbapCollect c).hdrLen < 6 then .next (s.setSlot i (mbapCollect c))
    else mbapParse i (mbapCollect c) (s.setSlot i (mbapCollect c))

/-- Serve the listed slots in order (R190). Before each, the runtime may have changed the inputs it owns, so two slots
of one pass need not sample the same `tick` or variables: the model's choice (log 15). With `between` empty they do. -/
def tcpServeAll (is : List Nat) (between : List (List RuntimeChange)) (s : State) : Result :=
  match is with
  | [] => .next s
  | i :: rest => andThen (tcpServe i (runtimeChanges (between.headD []) s)) (tcpServeAll rest between.tail)

/-- `TCP_POLL`: event `PollTcp` (R190): accept first, then the slots in ascending order. -/
def tcpPoll (between : List (List RuntimeChange)) (s : State) : Result :=
  tcpServeAll (List.range s.build.maxSrvClients) between (tcpAccept s)

/-! ## Socket events (R43, R44, R203) -/

/-- Event `TcpConnect` (R44). -/
def tcpConnect (s : State) : State := { s with connPending := s.connPending + 1 }

/-- Event `TcpConnectWithdraw` (R44), enabled when `conn_pending > 0`; otherwise it changes nothing (log 10). -/
def tcpConnectWithdraw (s : State) : State := { s with connPending := s.connPending - 1 }

/-- Event `TcpData(s, B)` (R43), enabled when the slot is live; otherwise it changes nothing (log 10). -/
def tcpData (i : Nat) (octets : List Octet) (s : State) : State :=
  match s.slots[i]? with
  | some c => if c.live then s.setSlot i { c with sockq := c.sockq ++ octets } else s
  | none => s

/-- Event `TcpClose(s)` (R43, R203): the slot is free at once. -/
def tcpClose (i : Nat) (s : State) : State :=
  match s.slots[i]? with
  | some c => s.setSlot i { c with live := false, hdrLen := 0, sockq := [] }
  | none => s

/-- The summary function `TcpTransact(M)` (R204): the ADU sent, if any, and the state change of the dispatcher. -/
def tcpTransact (m : List Octet) (s : State) : Host.Outcome (State × Option (List Octet)) Fault Refusal :=
  let len := be16 (m.getD 4 0#8) (m.getD 5 0#8)
  if be16 (m.getD 2 0#8) (m.getD 3 0#8) ≠ 0#16 ∨ len = 0#16 ∨ s.build.maxFrame < len.toNat ∨
      m.length - 6 ≠ len.toNat then .next (s, none)
  else if len = 1#16 then .next (s, none)
  else
    match dispatch ((m.take (6 + len.toNat)).drop 7) s with
    | .next t => .next (t, some (mbapAdu m (m.getD 6 0#8) t.respPdu))
    | .fault e => .fault e
    | .refused e => .refused e

end Sys2Proof.Machine
end

