-- ==== Sys2Proof/Machine/Events.lean ====
section
/-! DEFINITION. Reset, the application, the runtime's inputs, and the handling of one input event
(spec/10_state.md R45, R52, R53; spec/20_memory.md R76; spec/70_reset_and_hazards.md R350 to R354). -/

namespace Sys2Proof.Machine

open Sys2Proof

/-- The configurations the model accepts (R31, R354). -/
abbrev ConfigLegal (b : Build) (baud : Word32) : Prop := b.Legal ∧ 1 ≤ baud.toNat

/-! ## The application (R76) -/

/-- One element written by the application; an element its table does not have is no element (log 2). -/
def applyWrite (b : Build) (m : Memory) (w : BankWrite) : Memory :=
  match w with
  | .bit sp i v => if i < bitSize b sp then m.setBits sp (Table.write bitDefault (m.bits sp) i v) else m
  | .word sp i v => if i < wordSize b sp then m.setWords sp (Table.write wordDefault (m.words sp) i v) else m

/-- The elements an application writes in one event, in order (R76). -/
def applyWrites (b : Build) (m : Memory) (ws : List BankWrite) : Memory := ws.foldl (applyWrite b) m

/-- Event `AppWrite(f)` (R76): `f` is given by the elements it changes. -/
def appWrite (ws : List BankWrite) (s : State) : State := { s with mem := applyWrites s.build s.mem ws }

/-! ## Reset (R52, R53, R350) -/

/-- The slot `i` that `Reset` leaves (R47, R52). -/
def resetSlot (l : Launch) (i : Nat) : Slot :=
  { freeSlot with hdr := fitTo 6 (l.hdrs.getD i []) }

/-- The state after `Reset` and the configuration that follows it, whatever was in progress (R52, R53, R350 to R352).
The build and the runtime's variables are not the block's to reset. -/
def resetState (l : Launch) (s : State) : State :=
  { build := s.build
    mem := applyWrites s.build ⟨[], [], [], []⟩ l.bank
    slaveId := l.slaveId
    baud := l.baud
    t15 := t15Of l.baud
    t35 := t35Of (t15Of l.baud)
    txenPresent := l.txenPresent
    txenLeadIn := l.txenLeadIn
    fsm := .idle
    frame := fitTo s.build.rxCap l.frame
    frameLen := 0
    lastCount := 0
    winTimer := 0#32
    crcHi := 0xFF#8
    crcLo := 0xFF#8
    isBroadcast := false
    rxOverrun := false
    txPhase := .leadIn
    txen := false
    rxq := []
    connPending := 0
    slots := (List.range s.build.maxSrvClients).map (resetSlot l)
    dbgOrder := .asDEAD
    tick := l.tick
    vars := s.vars
    trace := []
    inputs := s.inputs
    respPdu := [] }

/-- Event `Reset` (R350). An illegal configuration is refused (R31, R354). -/
def resetEvent (l : Launch) (s : State) : Result :=
  if ConfigLegal s.build l.baud then .next (resetState l s) else .refused .illegalConfiguration

/-! ## One event (R45) -/

/-- Handle one input event to completion (R45, R72). -/
def handle (e : Event) (s : State) : Result :=
  match e with
  | .reset l => resetEvent l s
  | .pollSerial => .next (rtuPoll s)
  | .pollTcp between => tcpPoll between s
  | .tick => serialTick s
  | .rxByte b => .next (rxByte b s)
  | .txDrained => .next (txDrained s)
  | .tcpConnect => .next (tcpConnect s)
  | .tcpConnectWithdraw => .next (tcpConnectWithdraw s)
  | .tcpData i octets => .next (tcpData i octets s)
  | .tcpClose i => .next (tcpClose i s)
  | .appWrite ws => .next (appWrite ws s)
  | .runtime cs => .next (runtimeChanges cs s)

/-- Take the oldest event not handled yet; with none, nothing happens (R324, R336). -/
def nextEvent (s : State) : Result :=
  match s.inputs with
  | [] => .next s
  | e :: rest => handle e { s with inputs := rest }

/-! ## Placing a request (log 12) -/

/-- A state in which the next event closes the last window on the frame that carries the PDU `p` to this slave: the
frame is in the receive queue, and a `Tick` is due (R155, R158). -/
def placeRequest (p : List Octet) (s : State) : State :=
  { s with
    fsm := .collecting
    rxq := crcAppend s.slaveId p
    lastCount := (crcAppend s.slaveId p).length
    winTimer := 1#32
    rxOverrun := false
    inputs := .tick :: s.inputs }

end Sys2Proof.Machine
end

