-- ==== Sys2Proof/Machine/Step.lean ====
section
/-! DEFINITION. One step: the next input event handled to completion (spec/10_state.md R45). -/

namespace Sys2Proof.Machine

open Sys2Proof

/-- One step. A state whose configuration is illegal is refused: no behaviour is given for it (R354). -/
def step (s : State) : Host.Outcome State Fault Refusal :=
  if ConfigLegal s.build s.baud then nextEvent s else .refused .illegalConfiguration

/-- `s` with the instruction of those bits placed as the frame the next step takes and runs (log 12). -/
def State.withFetchWord (s : State) (nbits w : Nat) : State := placeRequest (tableOctets nbits w) s

end Sys2Proof.Machine
end

