-- ==== Sys2Proof/Safety.lean ====
section
/-! DEFINITION. The terms claims are made in: the invariant of the block, when a step is safe, what the outputs of a step
are, and the conventional CRC the unit is compared with (spec/40_crc16.md R133, R135). -/

namespace Sys2Proof.Machine

open Sys2Proof

/-- A slot between events: the prefix buffer has six octets and is never left full (R47, R193, R200, R202), and a free
slot holds nothing (R43, R52). -/
structure SlotInv (c : Slot) : Prop where
  hdr : c.hdr.length = 6
  hdrLen : c.hdrLen < 6
  free : c.live = false → c.hdrLen = 0 ∧ c.sockq = []

/-- The invariant of the block between events. -/
structure Inv (s : State) : Prop where
  /-- the configuration is legal (R31, R354) and the timers are computed from it (R32) -/
  config : ConfigLegal s.build s.baud
  t15 : s.t15 = t15Of s.baud
  t35 : s.t35 = t35Of s.t15
  /-- the Register Bank keeps its canonical form and its size (R25, R26) -/
  memWf : s.mem.wf
  memWithin : s.mem.within s.build
  /-- the buffers keep their capacity (R36, R40) -/
  frame : s.frame.length = s.build.rxCap
  rxq : s.rxq.length ≤ s.build.rxCap
  frameLen : s.frameLen ≤ s.build.rxCap
  lastCount : s.lastCount ≤ s.build.rxCap
  /-- an observer between events sees only `Idle`, `Collecting` or `Responding` (R35) -/
  fsm : s.fsm = .idle ∨ s.fsm = .collecting ∨ s.fsm = .responding
  /-- in `Idle` and `Collecting` no frame is held and the line is released (R159, R164, R169) -/
  quiet : s.fsm ≠ .responding → s.frameLen = 0 ∧ s.txen = false ∧ s.txPhase = .leadIn
  /-- a collection has a running window and at least one octet, and the queue only grows (R153, R155) -/
  collecting : s.fsm = .collecting → 1 ≤ s.winTimer.toNat ∧ 1 ≤ s.lastCount ∧ s.lastCount ≤ s.rxq.length
  /-- a response is on its way: never of a broadcast (R164), to this slave's address (R165), with the line driven
  where it is configured (R165, R170) -/
  responding : s.fsm = .responding →
    s.isBroadcast = false ∧ s.slaveId ≠ broadcastAddr ∧ s.frame.getD 0 0#8 = s.slaveId ∧
    3 ≤ s.frameLen ∧ s.frameLen ≤ 1 + s.build.maxFrame ∧ s.txen = s.txenPresent
  /-- the lead-in and the frame delay are running down (R166, R169) -/
  leadIn : s.fsm = .responding → s.txPhase = .leadIn → s.txenPresent = true ∧ 1 ≤ s.winTimer.toNat
  frameDelay : s.fsm = .responding → s.txPhase = .frameDelay → 1 ≤ s.winTimer.toNat
  /-- the connection table has its size (R8, R48) and its slots are between requests -/
  slots : s.slots.length = s.build.maxSrvClients
  slotInv : ∀ c ∈ s.slots, SlotInv c
  /-- no response is left between the dispatcher and a framer (log 8) -/
  respPdu : s.respPdu = []

/-- A step is safe when it goes on: the block has no fault state (R328). -/
def Safe (r : Result) : Prop := ∃ t, r = .next t

/-- An octet on the serial line. -/
def Output.isTxByte : Output → Bool
  | .txByte _ => true
  | .txEnAssert | .txEnDeassert | .tcpSend _ _ | .setTrace _ _ _ => false

/-- A change of the transmit-enable line. -/
def Output.isTxEn : Output → Bool
  | .txEnAssert | .txEnDeassert => true
  | .txByte _ | .tcpSend _ _ | .setTrace _ _ _ => false

/-- The slot an output goes to. -/
def Output.slot : Output → Option Nat
  | .tcpSend i _ => some i
  | .txByte _ | .txEnAssert | .txEnDeassert | .setTrace _ _ _ => none

/-- The runtime's changes that an event brings. -/
def Event.runtimeChanges (n : Nat) : Event → List RuntimeChange
  | .runtime cs => cs
  | .pollTcp between => (between.take n).flatten
  | .reset _ | .pollSerial | .tick | .rxByte _ | .txDrained | .tcpConnect | .tcpConnectWithdraw | .tcpData _ _
  | .tcpClose _ | .appWrite _ => []

/-- The `Reset` event. -/
def Event.isReset : Event → Bool
  | .reset _ => true
  | .pollSerial | .pollTcp _ | .tick | .rxByte _ | .txDrained | .tcpConnect | .tcpConnectWithdraw | .tcpData _ _
  | .tcpClose _ | .appWrite _ | .runtime _ => false

/-- The application's event. -/
def Event.isAppWrite : Event → Bool
  | .appWrite _ => true
  | .reset _ | .pollSerial | .pollTcp _ | .tick | .rxByte _ | .txDrained | .tcpConnect | .tcpConnectWithdraw
  | .tcpData _ _ | .tcpClose _ | .runtime _ => false

/-- A standard function, one of 0x01 to 0x06, 0x0F, 0x10; the others are the debug functions (R2). -/
def isStandard : Instr → Bool
  | .rdcoil _ | .rddisc _ | .rdhold _ | .rdinreg _ | .wrcoil _ | .wrreg _ | .wrcoils _ | .wrregs _ => true
  | .dbginfo | .dbgset _ | .dbgget _ | .dbglist _ | .dbgmd5 _ => false

/-- The number of octets a PDU's format asks for (R111, R112): the fixed part, and the variable part its length field
announces. -/
def formatLength (p : List Octet) : Nat :=
  let fc := p.getD 0 0#8
  if fc = 0x0F#8 ∨ fc = 0x10#8 then 6 + (p.getD 5 0#8).toNat
  else if fc = 0x41#8 then 1
  else if fc = 0x42#8 then 6 + (be16 (p.getD 4 0#8) (p.getD 5 0#8)).toNat
  else if fc = 0x44#8 then 3 + 2 * (be16 (p.getD 1 0#8) (p.getD 2 0#8)).toNat
  else if fc = 0x45#8 then 3
  else 5

/-! ## The conventional CRC (R133, R135) -/

/-- One shift of the bit-serial algorithm: `(t >> 1) xor 0xA001` when bit 0 is 1, else `t >> 1`. -/
def crcShift (t : Word16) : Word16 := if t.getLsbD 0 then (t >>> 1) ^^^ 0xA001#16 else t >>> 1

/-- Eight shifts. -/
def crcShift8 (t : Word16) : Word16 :=
  crcShift (crcShift (crcShift (crcShift (crcShift (crcShift (crcShift (crcShift t)))))))

/-- The 16-bit register `C` of the conventional CRC-16/MODBUS after the octets (R135). -/
def crcConventional (octets : List Octet) : Word16 :=
  octets.foldl (fun c b => crcShift8 (c ^^^ b.setWidth 16)) 0xFFFF#16

/-! ## States in which a frame is about to be taken -/

/-- The next event closes the last window on everything in the receive queue (R155, R156). -/
structure AboutToComplete (s : State) (rest : List Event) : Prop where
  config : ConfigLegal s.build s.baud
  inputs : s.inputs = .tick :: rest
  fsm : s.fsm = .collecting
  winTimer : s.winTimer = 1#32
  lastCount : s.lastCount = s.rxq.length

/-- The state in which a handler runs once the frame in the receive queue has been accepted (R158, R159): the frame
taken, the window run out, the CRC of address and PDU in the accumulator, the flags set. -/
def acceptedState (s : State) (rest : List Event) : State :=
  { s with
    inputs := rest
    winTimer := 0#32
    frame := overwrite s.frame 0 s.rxq
    frameLen := s.rxq.length
    rxq := []
    crcHi := (crcRun (s.rxq.take (s.rxq.length - 2))).1
    crcLo := (crcRun (s.rxq.take (s.rxq.length - 2))).2
    rxOverrun := false
    isBroadcast := s.rxq.getD 0 0#8 == broadcastAddr
    fsm := .dispatching }

/-- The octets of a request as far as they have come: those collected in the prefix buffer, then those available
(R193). -/
def Slot.received (c : Slot) : List Octet := c.hdr.take c.hdrLen ++ c.sockq

/-- The octets of a complete prefix with what follows it are no request for the dispatcher: rejected (R196), or without
a PDU (R198). -/
abbrev MbapDropped (maxFrame : Nat) (m : List Octet) : Prop :=
  be16 (m.getD 2 0#8) (m.getD 3 0#8) ≠ 0#16 ∨ be16 (m.getD 4 0#8) (m.getD 5 0#8) = 0#16 ∨
  maxFrame < (be16 (m.getD 4 0#8) (m.getD 5 0#8)).toNat ∨
  m.length - 6 ≠ (be16 (m.getD 4 0#8) (m.getD 5 0#8)).toNat ∨ be16 (m.getD 4 0#8) (m.getD 5 0#8) = 1#16

/-- The next event is a polling pass that serves one connection: slot `i` is live and has received exactly the octets
`m` (in this pass or with the first of its prefix in earlier ones), no other slot is live, and no connection is pending
(R190, R193, R204). The runtime changes its inputs as `between` says. -/
structure AboutToServe (s : State) (between : List (List RuntimeChange)) (rest : List Event) (i : Nat) (c : Slot)
    (m : List Octet) : Prop where
  config : ConfigLegal s.build s.baud
  inputs : s.inputs = .pollTcp between :: rest
  connPending : s.connPending = 0
  size : s.slots.length = s.build.maxSrvClients
  slot : s.slots[i]? = some c
  live : c.live = true
  hdr : c.hdr.length = 6
  hdrLen : c.hdrLen < 6
  received : c.received = m
  others : ∀ j d, j ≠ i → s.slots[j]? = some d → d.live = false

end Sys2Proof.Machine
end

