-- ==== Sys2Proof/Certificates/Slice0/Obligations.lean ====
section
/-! DEFINITION. The statements about the block, from the numbered rules of spec/. Each says which rule it formalises.
A state is any state of the type unless a hypothesis says otherwise; the build and the configuration are fields of the
state, so every statement holds of every build. -/

open Sys2Proof Sys2Proof.Machine

/-! ## Encoding (30_encoding) -/

/-- R95 to R106, R111: decoding the encoding of a well-formed instruction gives it back, with every operand at every
value, the short and truncated forms included. -/
def Obligations.DecodeOfEncodeIsIdentity : Prop :=
  ∀ i : Instr, i.wf = true → decode (encode i) = .ok i

/-- The PDUs written out in the rules' own examples (R272, R273, R250 to R253, R274, R275, R294, R295, R299, R303,
R305) decode to the instructions they stand for. -/
def Obligations.WrittenPdusDecodeToTheirInstruction : Prop :=
  decode [0x01#8, 0x00#8, 0x00#8, 0x00#8, 0x0A#8] = .ok (.rdcoil (some ⟨0#16, 10#16⟩)) ∧
  decode [0x02#8, 0x00#8, 0x04#8, 0x00#8, 0x03#8] = .ok (.rddisc (some ⟨4#16, 3#16⟩)) ∧
  decode [0x03#8, 0x00#8, 0x00#8, 0x00#8, 0x02#8] = .ok (.rdhold (some ⟨0#16, 2#16⟩)) ∧
  decode [0x04#8, 0x00#8, 0x05#8, 0x00#8, 0x01#8] = .ok (.rdinreg (some ⟨5#16, 1#16⟩)) ∧
  decode [0x05#8, 0x00#8, 0x03#8, 0xFF#8, 0x00#8] = .ok (.wrcoil (some ⟨3#16, 0xFF00#16⟩)) ∧
  decode [0x06#8, 0x00#8, 0x02#8, 0x12#8, 0x34#8] = .ok (.wrreg (some ⟨2#16, 0x1234#16⟩)) ∧
  decode [0x0F#8, 0x00#8, 0x00#8, 0x00#8, 0x0A#8, 0x02#8, 0xCD#8, 0x01#8] =
    .ok (.wrcoils (some ⟨0#16, 10#16, 2#8, [0xCD#8, 0x01#8]⟩)) ∧
  decode [0x10#8, 0x00#8, 0x01#8, 0x00#8, 0x02#8, 0x04#8, 0x00#8, 0x0A#8, 0x01#8, 0x02#8] =
    .ok (.wrregs (some ⟨1#16, 2#16, 4#8, [0x00#8, 0x0A#8, 0x01#8, 0x02#8]⟩)) ∧
  decode [0x41#8] = .ok .dbginfo ∧
  decode [0x42#8, 0x00#8, 0x01#8, 0x01#8, 0x00#8, 0x02#8, 0xBE#8, 0xEF#8] =
    .ok (.dbgset (some ⟨1#16, 0x01#8, 2#16, [0xBE#8, 0xEF#8]⟩)) ∧
  decode [0x43#8, 0x00#8, 0x00#8, 0x00#8, 0x02#8] = .ok (.dbgget (some ⟨0#16, 2#16⟩)) ∧
  decode [0x44#8, 0x00#8, 0x02#8, 0x00#8, 0x03#8, 0x00#8, 0x00#8] = .ok (.dbglist (some ⟨2#16, [3#16, 0#16]⟩)) ∧
  decode [0x45#8, 0xAD#8, 0xDE#8] = .ok (.dbgmd5 (some 0xADDE#16))

/-- R222: a function code outside the thirteen raises ILLEGAL_FUNCTION whatever follows it, and nothing else changes; a
code of the thirteen is decoded, whatever follows it. -/
def Obligations.UnknownFunctionCodesRaiseIllegalFunction : Prop :=
  ∀ (fc : Octet) (payload : List Octet) (s : State),
    let known : List Octet := [0x01#8, 0x02#8, 0x03#8, 0x04#8, 0x05#8, 0x06#8, 0x0F#8, 0x10#8,
      0x41#8, 0x42#8, 0x43#8, 0x44#8, 0x45#8]
    (fc ∉ known → dispatch (fc :: payload) s = .next { s with respPdu := [fc ||| 0x80#8, 0x01#8] }) ∧
    (fc ∈ known → ∃ i, decode (fc :: payload) = .ok i ∧ functionCode i = fc ∧
      dispatch (fc :: payload) s = exec i s)

/-- R112: a PDU shorter than its format (the fixed part, or the variable part its length field announces, R111) is
answered ILLEGAL_VALUE by a standard function and result 0x81 by a debug function, 0x45 still with the hash, and
nothing else changes; octets beyond the format are ignored. -/
def Obligations.ShortPdusAreAnsweredAndExcessIgnored : Prop :=
  ∀ (p : List Octet) (i : Instr) (s : State), decode p = .ok i →
    (p.length < formatLength p → isStandard i = true →
      exec i s = .next { s with respPdu := [functionCode i ||| 0x80#8, 0x03#8] }) ∧
    (p.length < formatLength p → isStandard i = false →
      exec i s = .next { s with respPdu := [functionCode i, 0x81#8] ++
        (if functionCode i = 0x45#8 then s.build.hash else []) }) ∧
    (formatLength p ≤ p.length → ∀ extra, decode (p ++ extra) = .ok i)

/-! ## The CRC unit (40_crc16) -/

/-- R133: entry `i` of the two tables is the low and the high octet of `i` shifted eight times, and each table has 256
entries. -/
def Obligations.CrcTablesFollowTheirDefinition : Prop :=
  tabHi.length = 256 ∧ tabLo.length = 256 ∧
  ∀ i : Nat, i < 256 →
    tabHi.getD i 0#8 = lo8 (crcShift8 (BitVec.ofNat 16 i)) ∧
    tabLo.getD i 0#8 = hi8 (crcShift8 (BitVec.ofNat 16 i))

/-- R135: at every point `crc_hi = C[7:0]` and `crc_lo = C[15:8]` for the conventional register `C`, so `V` is `C` with
its octets swapped; over "123456789" `C = 0x4B37` and `V = 0x374B`. -/
def Obligations.CrcMatchesTheConventionalRegister : Prop :=
  (∀ octets : List Octet, crcRun octets = (lo8 (crcConventional octets), hi8 (crcConventional octets))) ∧
  (∀ (seed : Octet) (payload : List Octet),
    hi8 (crc16 seed payload) = lo8 (crcConventional (seed :: payload)) ∧
    lo8 (crc16 seed payload) = hi8 (crcConventional (seed :: payload))) ∧
  crcConventional [0x31#8, 0x32#8, 0x33#8, 0x34#8, 0x35#8, 0x36#8, 0x37#8, 0x38#8, 0x39#8] = 0x4B37#16 ∧
  crc16 0x31#8 [0x32#8, 0x33#8, 0x34#8, 0x35#8, 0x36#8, 0x37#8, 0x38#8, 0x39#8] = 0x374B#16

/-- R136: a frame of at least four octets passes exactly when its last two octets are `hi8(V)`, `lo8(V)`, which is
exactly when the accumulator run over all its octets ends at (0x00, 0x00); with the rule's example frames. -/
def Obligations.CrcResidueCharacterisesValidFrames : Prop :=
  (∀ f : List Octet, 4 ≤ f.length →
    let v := crc16 (f.getD 0 0#8) ((f.take (f.length - 2)).drop 1)
    (crcCheck f = true ↔ hi8 v = f.getD (f.length - 2) 0#8 ∧ lo8 v = f.getD (f.length - 1) 0#8) ∧
    (crcCheck f = true ↔ crcRun f = (0x00#8, 0x00#8))) ∧
  crcCheck [0x01#8, 0x03#8, 0x00#8, 0x00#8, 0x00#8, 0x0A#8, 0xC5#8, 0xCD#8] = true ∧
  crcCheck [0x01#8, 0x03#8, 0x00#8, 0x00#8, 0x00#8, 0x0A#8, 0xC5#8, 0xCC#8] = false

/-- R138: corrupting any single bit of a validated frame makes validation fail. -/
def Obligations.SingleBitCorruptionFailsTheCheck : Prop :=
  ∀ (f : List Octet) (j k : Nat), 4 ≤ f.length → j < f.length → k < 8 → crcCheck f = true →
    crcCheck (f.set j (f.getD j 0#8 ^^^ (1#8 <<< k))) = false

/-! ## Configuration and reset (10_state, 70_reset_and_hazards) -/

/-- R32: configuration computes `t15` and `t35` from `baud`, without loss in 32 bits, within the rule's bounds. That the
`Reset` step itself brings `baud` and configures is the model's choice (log 3): R53 puts the configuration after it. -/
def Obligations.TimersAreComputedFromTheBaudRate : Prop :=
  ∀ (s : State) (l : Launch) (rest : List Event), ConfigLegal s.build s.baud → 1 ≤ l.baud.toNat →
    s.inputs = .reset l :: rest → ∃ t, step s = .next t ∧
      t.t15.toNat = (if l.baud.toNat ≤ 19200 then 16500000 / l.baud.toNat else 750) ∧
      t.t35.toNat = t.t15.toNat * 7 / 2 ∧
      750 ≤ t.t15.toNat ∧ t.t15.toNat ≤ 16500000 ∧ 1 ≤ t.t35.toNat ∧ t.t35.toNat ≤ 57750000 ∧
      (l.baud.toNat ≤ 19200 → 859 ≤ t.t15.toNat)

/-- R31, R354: a configuration outside the legal ranges is refused, in a state that has it and when `Reset` brings it;
a legal one is not refused for that. -/
def Obligations.IllegalConfigurationsAreRefused : Prop :=
  (∀ s : State,
    ¬(1 ≤ s.baud.toNat ∧ 16 ≤ s.build.maxFrame ∧ s.build.maxFrame ≤ 65534 ∧ 1 ≤ s.build.maxSrvClients ∧
      s.build.nCoils ≤ 65536 ∧ s.build.nDisc ≤ 65536 ∧ s.build.nHold ≤ 65536 ∧ s.build.nInreg ≤ 65536 ∧
      2 + s.build.hash.length ≤ s.build.maxFrame) → step s = .refused .illegalConfiguration) ∧
  (∀ (s : State) (l : Launch) (rest : List Event), ConfigLegal s.build s.baud → s.inputs = .reset l :: rest →
    (l.baud = 0#32 → step s = .refused .illegalConfiguration) ∧
    (l.baud ≠ 0#32 → ∃ t, step s = .next t))

/-- R52: `Reset` puts every register at its reset value, from any state; the trace is empty and no `TxEnDeassert` is
emitted. That the configuration registers hold what the `Reset` brings is the model's choice (log 3). -/
def Obligations.ResetEventRestoresTheResetValues : Prop :=
  ∀ (s : State) (l : Launch) (rest : List Event), ConfigLegal s.build s.baud → 1 ≤ l.baud.toNat →
    s.inputs = .reset l :: rest → ∃ t, step s = .next t ∧
      t.fsm = .idle ∧ t.frameLen = 0 ∧ t.lastCount = 0 ∧ t.winTimer = 0#32 ∧ t.crcHi = 0xFF#8 ∧ t.crcLo = 0xFF#8 ∧
      t.isBroadcast = false ∧ t.rxOverrun = false ∧ t.txPhase = .leadIn ∧ t.txen = false ∧ t.rxq = [] ∧
      t.connPending = 0 ∧ t.slots.length = s.build.maxSrvClients ∧
      (∀ c ∈ t.slots, c.live = false ∧ c.hdrLen = 0 ∧ c.declLen = 0#16 ∧ c.sockq = []) ∧
      t.dbgOrder = .asDEAD ∧ t.trace = [] ∧
      t.slaveId = l.slaveId ∧ t.baud = l.baud ∧ t.txenPresent = l.txenPresent ∧ t.txenLeadIn = l.txenLeadIn ∧
      t.build = s.build ∧ t.inputs = rest

/-- R353: no event but `Reset` changes the configuration registers or the build (the table sizes among it). -/
def Obligations.ConfigurationIsImmutable : Prop :=
  ∀ s t : State, step s = .next t →
    t.build = s.build ∧
    ((∀ e rest, s.inputs = e :: rest → e.isReset = false) →
      t.slaveId = s.slaveId ∧ t.baud = s.baud ∧ t.t15 = s.t15 ∧ t.t35 = s.t35 ∧
      t.txenPresent = s.txenPresent ∧ t.txenLeadIn = s.txenLeadIn)

/-! ## The Serial Framer (41_serial_framer) -/

/-- R40: an octet is queued when the receive queue has room; otherwise it is lost and `rx_overrun` set. It changes
nothing else, in any `fsm` state. -/
def Obligations.ReceivedOctetIsQueuedOrLost : Prop :=
  ∀ (s : State) (b : Octet) (rest : List Event), ConfigLegal s.build s.baud → s.inputs = .rxByte b :: rest →
    (s.rxq.length < s.build.maxFrame + 3 → step s = .next { s with inputs := rest, rxq := s.rxq ++ [b] }) ∧
    (s.build.maxFrame + 3 ≤ s.rxq.length → step s = .next { s with inputs := rest, rxOverrun := true })

/-- R153, R154: `PollSerial` in `Idle` starts a window on the octets available, if there are any; a busy poll changes
nothing. -/
def Obligations.SerialPollStartsAWindow : Prop :=
  ∀ (s : State) (rest : List Event), ConfigLegal s.build s.baud → s.inputs = .pollSerial :: rest →
    (s.fsm = .idle → s.rxq ≠ [] → step s =
      .next { s with inputs := rest, lastCount := s.rxq.length, winTimer := s.t15, fsm := .collecting }) ∧
    (s.fsm = .idle → s.rxq = [] → step s = .next { s with inputs := rest }) ∧
    (s.fsm ≠ .idle → step s = .next { s with inputs := rest })

/-- R155: a `Tick` in `Collecting` counts the window down; at its end the count is sampled, and either another window
starts or the frame is complete. -/
def Obligations.WindowTickSamplesTheQueue : Prop :=
  ∀ (s : State) (rest : List Event), ConfigLegal s.build s.baud → s.inputs = .tick :: rest → s.fsm = .collecting →
    (1 < s.winTimer.toNat → step s = .next { s with inputs := rest, winTimer := s.winTimer - 1#32 }) ∧
    (s.winTimer = 1#32 → s.rxq.length ≠ s.lastCount →
      step s = .next { s with inputs := rest, lastCount := s.rxq.length, winTimer := s.t15 }) ∧
    (s.winTimer = 1#32 → s.rxq.length = s.lastCount →
      step s = rtuComplete { s with inputs := rest, winTimer := 0#32 })

/-- R159, R161, R322: an overrun, a frame of three octets or fewer, a bad CRC and a foreign address each end in `Idle`
with the frame gone and nothing transmitted: only the framer's working registers change. -/
def Obligations.FramingErrorsAreDroppedSilently : Prop :=
  ∀ (s : State) (rest : List Event), AboutToComplete s rest →
    (s.rxOverrun = true ∨ s.rxq.length ≤ 3 ∨ crcCheck s.rxq = false ∨
      (s.rxq.getD 0 0#8 ≠ s.slaveId ∧ s.rxq.getD 0 0#8 ≠ 0xFF#8)) →
    ∃ t, step s = .next t ∧
      t = { s with inputs := rest, winTimer := 0#32, rxq := [], rxOverrun := false, fsm := .idle, frameLen := 0,
                   frame := t.frame, crcHi := t.crcHi, crcLo := t.crcLo }

/-- R158, R163: when the frame in the receive queue is accepted and its PDU decodes to `i`, the step is `exec i` in the
state the framer has reached, followed by the framer's own response path. -/
def Obligations.SerialStepRunsTheDecodedInstruction : Prop :=
  ∀ (s : State) (rest : List Event) (i : Instr), AboutToComplete s rest → s.rxOverrun = false →
    4 ≤ s.rxq.length → crcCheck s.rxq = true →
    (s.rxq.getD 0 0#8 = s.slaveId ∨ s.rxq.getD 0 0#8 = 0xFF#8) →
    decode ((s.rxq.take (s.rxq.length - 2)).drop 1) = .ok i →
    step s = andThen (exec i (acceptedState s rest)) fun t => .next (rtuRespond (placeResponse t))

/-- R174: what the block transmits for a delimited frame, and what its handler changes, is `RtuTransact` of the
frame. Nothing is transmitted for `none`; for `some R` the line is asserted where configured, and either the lead-in
begins (R165: configured and not zero) with nothing sent yet, or `R` is sent at once and the flush begins. -/
def Obligations.SerialTransactionRefinesItsSummary : Prop :=
  ∀ (s : State) (rest : List Event), AboutToComplete s rest → s.rxOverrun = false →
    ∃ t r u, rtuTransact s.rxq { s with inputs := rest } = .next (t, r) ∧ step s = .next u ∧
      u.mem = t.mem ∧ u.dbgOrder = t.dbgOrder ∧ u.inputs = rest ∧ u.rxq = [] ∧
      match r with
      | none => u.fsm = .idle ∧ u.trace = t.trace ∧ u.txen = s.txen
      | some reply =>
        u.fsm = .responding ∧ responseFrame u = reply ∧
        u.txen = (if s.txenPresent then true else s.txen) ∧
        (s.txenPresent = true → s.txenLeadIn ≠ 0#32 → u.txPhase = .leadIn ∧ u.winTimer = s.txenLeadIn) ∧
        (s.txenPresent = false ∨ s.txenLeadIn = 0#32 → u.txPhase = .flush) ∧
        u.trace = t.trace ++ (if s.txenPresent then [.txEnAssert] else []) ++
          (if s.txenPresent = true ∧ s.txenLeadIn ≠ 0#32 then [] else reply.map .txByte)

/-- R164: a broadcast frame is processed like any other and never answered: the handler's changes stand, nothing is
sent on the line, and the transmit-enable line is not touched. -/
def Obligations.BroadcastsAreProcessedNeverAnswered : Prop :=
  ∀ (s : State) (rest : List Event) (i : Instr), AboutToComplete s rest → s.rxOverrun = false → i.wf = true →
    s.rxq = crcAppend 0xFF#8 (encode i) →
    ∃ t u, exec i (acceptedState s rest) = .next t ∧ step s = .next u ∧
      u.mem = t.mem ∧ u.dbgOrder = t.dbgOrder ∧ u.trace = t.trace ∧ u.txen = s.txen ∧
      u.fsm = .idle ∧ u.frameLen = 0 ∧ u.isBroadcast = true ∧
      ∃ out, u.trace = s.trace ++ out ∧ ∀ o ∈ out, o.isTxByte = false ∧ o.isTxEn = false

/-- R166 to R169: the lead-in counts down and then sends the response; the transmitter's report starts the frame delay;
the frame delay counts down and then releases the line where it is configured. -/
def Obligations.ResponsePhasesFollowEachOther : Prop :=
  ∀ (s : State) (rest : List Event), ConfigLegal s.build s.baud → s.fsm = .responding →
    (s.inputs = .tick :: rest → s.txPhase = .leadIn →
      (1 < s.winTimer.toNat → step s = .next { s with inputs := rest, winTimer := s.winTimer - 1#32 }) ∧
      (s.winTimer = 1#32 → step s = .next { s with
        inputs := rest, winTimer := 0#32, txPhase := .flush, trace := s.trace ++ (responseFrame s).map .txByte })) ∧
    (s.inputs = .txDrained :: rest → s.txPhase = .flush →
      step s = .next { s with inputs := rest, txPhase := .frameDelay, winTimer := s.t35 }) ∧
    (s.inputs = .tick :: rest → s.txPhase = .frameDelay →
      (1 < s.winTimer.toNat → step s = .next { s with inputs := rest, winTimer := s.winTimer - 1#32 }) ∧
      (s.winTimer = 1#32 → step s = .next { s with
        inputs := rest, winTimer := 0#32, txPhase := .leadIn, fsm := .idle, frameLen := 0
        txen := if s.txenPresent then false else s.txen
        trace := s.trace ++ (if s.txenPresent then [.txEnDeassert] else []) }))

/-- R150, R154, R168, R172: a `Tick` in `Idle` or while the transmitter drains, and `TxDrained` outside the flush,
change nothing. R324, R336: nothing happens without an event; that a step with none waiting is one that changes nothing
is the model's choice (log 7). -/
def Obligations.EventsWithoutARuleChangeNothing : Prop :=
  ∀ (s : State) (rest : List Event), ConfigLegal s.build s.baud →
    (s.inputs = [] → step s = .next s) ∧
    (s.inputs = .tick :: rest → s.fsm = .idle → step s = .next { s with inputs := rest }) ∧
    (s.inputs = .tick :: rest → s.fsm = .responding → s.txPhase = .flush →
      step s = .next { s with inputs := rest }) ∧
    (s.inputs = .txDrained :: rest → s.fsm ≠ .responding ∨ s.txPhase ≠ .flush →
      step s = .next { s with inputs := rest })

/-- R170: from the lead-in, after its ticks, the transmitter's report and the ticks of the frame delay, the octets of
the response have been sent in order, then the line is released, and the framer is idle; without a lead-in the same
from the flush. -/
def Obligations.ResponseIsSentThenTheLineReleased : Prop :=
  ∀ s : State, Inv s → s.fsm = .responding →
    (s.txPhase = .leadIn →
      s.inputs = List.replicate s.winTimer.toNat Event.tick ++ (Event.txDrained :: List.replicate s.t35.toNat Event.tick) →
      ∃ u, Host.Core.run Sys2Proof.core (s.winTimer.toNat + 1 + s.t35.toNat) s = .next u ∧
        u.trace = s.trace ++ (responseFrame s).map .txByte ++ [.txEnDeassert] ∧
        u.fsm = .idle ∧ u.txen = false ∧ u.frameLen = 0 ∧ u.inputs = [] ∧ u.rxq = s.rxq ∧ u.mem = s.mem) ∧
    (s.txPhase = .flush →
      s.inputs = Event.txDrained :: List.replicate s.t35.toNat Event.tick →
      ∃ u, Host.Core.run Sys2Proof.core (1 + s.t35.toNat) s = .next u ∧
        u.trace = s.trace ++ (if s.txenPresent then [.txEnDeassert] else []) ∧
        u.fsm = .idle ∧ u.txen = false ∧ u.frameLen = 0 ∧ u.inputs = [] ∧ u.rxq = s.rxq ∧ u.mem = s.mem)

/-! ## The TCP Framer (42_tcp_framer) -/

/-- R190, R191, R192, R193, R77, R78: a pass accepts first, then serves the slots one after the other in ascending
order, each in the state the one before has left. At most one connection is accepted, into the least free slot; with
none pending or no slot free nothing is accepted. Of the slots as the accept leaves them, every live one is served
exactly once: one whose prefix is still incomplete waits with its octets in order; one whose request is rejected or has
no PDU is emptied and sent nothing; every other is emptied and sent exactly one response, behind its own request's
transaction and protocol octets and unit identifier. The responses go out in ascending slot order. The runtime's changes
between the slots are log 15. -/
def Obligations.PassAcceptsOneThenServesEveryLiveSlot : Prop :=
  (∀ (s : State) (between : List (List RuntimeChange)) (rest : List Event), ConfigLegal s.build s.baud →
    s.inputs = .pollTcp between :: rest →
    step s = tcpServeAll (List.range s.build.maxSrvClients) between (tcpAccept { s with inputs := rest })) ∧
  (∀ (between : List (List RuntimeChange)) (s : State), tcpServeAll [] between s = .next s) ∧
  (∀ (i : Nat) (is : List Nat) (between : List (List RuntimeChange)) (s : State),
    tcpServeAll (i :: is) between s =
      andThen (tcpServe i (runtimeChanges (between.headD []) s)) (tcpServeAll is between.tail)) ∧
  (∀ s : State, s.connPending = 0 → tcpAccept s = s) ∧
  (∀ s : State, (∀ c ∈ s.slots, c.live = true) → tcpAccept s = s) ∧
  (∀ (s : State) (i : Nat) (c : Slot), 0 < s.connPending → s.slots[i]? = some c → c.live = false →
    (∀ j d, j < i → s.slots[j]? = some d → d.live = true) →
    tcpAccept s = { s with
      connPending := s.connPending - 1
      slots := s.slots.set i { c with live := true, hdrLen := 0, declLen := 0#16, sockq := [] } }) ∧
  (∀ (s : State) (between : List (List RuntimeChange)) (rest : List Event), Inv s →
     s.inputs = .pollTcp between :: rest →
     ∃ t out, step s = .next t ∧ t.trace = s.trace ++ out ∧ t.slots.length = s.slots.length ∧
       (out.filterMap Output.slot).Pairwise (· < ·) ∧
       ∀ i c, (tcpAccept s).slots[i]? = some c →
         let m := c.received
         (c.live = false → t.slots[i]? = some c ∧ i ∉ out.filterMap Output.slot) ∧
         (c.live = true → m.length < 6 → i ∉ out.filterMap Output.slot ∧
           t.slots[i]? = some { c with hdr := m ++ c.hdr.drop m.length, hdrLen := m.length, sockq := [] }) ∧
         (c.live = true → 6 ≤ m.length →
           t.slots[i]? = some { c with
             hdr := m.take 6, hdrLen := 0, declLen := be16 (m.getD 4 0#8) (m.getD 5 0#8), sockq := [] } ∧
           (MbapDropped s.build.maxFrame m → i ∉ out.filterMap Output.slot) ∧
           (¬MbapDropped s.build.maxFrame m → ∃ q, 2 ≤ q.length ∧ q.length ≤ s.build.maxFrame ∧
             .tcpSend i (m.take 4 ++ be16enc (BitVec.ofNat 16 (1 + q.length)) ++ [m.getD 6 0#8] ++ q) ∈ out)))

/-- R192 to R202: serving one slot, in any state, whatever the other slots hold. A prefix that arrives in pieces is
assembled: collecting, receiving more octets and collecting again is collecting once with all the octets, and fewer than
six in all wait in the prefix buffer, in their order, behind those collected before. A slot that is not live is passed
over; an incomplete prefix waits; a request that is rejected or has no PDU is dropped; any other is dispatched, and the
response sent on the slot behind the request's own transaction and protocol octets and unit identifier. -/
def Obligations.SlotAssemblesAndServesOneRequest : Prop :=
  (∀ (c : Slot) (more : List Octet),
     mbapCollect { mbapCollect c with sockq := (mbapCollect c).sockq ++ more } =
       mbapCollect { c with sockq := c.sockq ++ more } ∧
     (c.hdr.length = 6 → c.hdrLen + c.sockq.length < 6 →
       (mbapCollect c).hdrLen = c.hdrLen + c.sockq.length ∧ (mbapCollect c).sockq = [] ∧
       (mbapCollect c).hdr = c.hdr.take c.hdrLen ++ c.sockq ++ c.hdr.drop (c.hdrLen + c.sockq.length))) ∧
  (∀ (s : State) (i : Nat),
     ((∀ c, s.slots[i]? = some c → c.live = false) → tcpServe i s = .next s) ∧
     ∀ c, s.slots[i]? = some c → c.live = true → c.hdr.length = 6 → c.hdrLen < 6 →
       let m := c.received
       let len := be16 (m.getD 4 0#8) (m.getD 5 0#8)
       let c' : Slot := { c with hdr := m.take 6, hdrLen := 0, declLen := len, sockq := [] }
       (m.length < 6 → tcpServe i s = .next { s with
         slots := s.slots.set i { c with hdr := m ++ c.hdr.drop m.length, hdrLen := m.length, sockq := [] } }) ∧
       (6 ≤ m.length → MbapDropped s.build.maxFrame m → tcpServe i s = .next { s with slots := s.slots.set i c' }) ∧
       (6 ≤ m.length → ¬MbapDropped s.build.maxFrame m → tcpServe i s =
         andThen (dispatch (m.drop 7) { s with slots := s.slots.set i { c' with hdrLen := 6 } }) fun t => .next { t with
           slots := t.slots.set i c'
           respPdu := []
           trace := t.trace ++ [.tcpSend i
             (m.take 4 ++ be16enc (BitVec.ofNat 16 (1 + t.respPdu.length)) ++ [m.getD 6 0#8] ++ t.respPdu)] }))

/-- R196, R198, R202: a request whose protocol identifier is not zero, whose declared length is zero, exceeds
`MAX_FRAME` or does not match the octets available, or which carries no PDU, is dropped with nothing sent: the octets
are discarded, the connection stays, nothing outside the slot changes but by the runtime (log 15). The prefix may have
come in pieces. -/
def Obligations.MalformedMbapIsDroppedSilently : Prop :=
  ∀ (s : State) (between : List (List RuntimeChange)) (rest : List Event) (i : Nat) (c : Slot) (m : List Octet),
    AboutToServe s between rest i c m → 6 ≤ m.length →
    let len := be16 (m.getD 4 0#8) (m.getD 5 0#8)
    (be16 (m.getD 2 0#8) (m.getD 3 0#8) ≠ 0#16 ∨ len = 0#16 ∨ s.build.maxFrame < len.toNat ∨
      m.length - 6 ≠ len.toNat ∨ len = 1#16) →
    step s = .next (runtimeChanges (between.take s.build.maxSrvClients).flatten { s with
      inputs := rest
      slots := s.slots.set i { c with hdr := m.take 6, hdrLen := 0, declLen := len, sockq := [] } })

/-- R192, R200, R201: when the request on the one live connection is accepted and its PDU decodes to `k`, the step is
`exec k` in the state the framer has reached, followed by the response on that connection. The prefix may have come in
pieces, and the runtime's changes up to the slot are seen (log 15). -/
def Obligations.TcpStepRunsTheDecodedInstruction : Prop :=
  ∀ (s : State) (between : List (List RuntimeChange)) (rest : List Event) (i : Nat) (c : Slot) (m : List Octet)
    (k : Instr), AboutToServe s between rest i c m → 8 ≤ m.length → m.length - 6 ≤ s.build.maxFrame →
    be16 (m.getD 2 0#8) (m.getD 3 0#8) = 0#16 →
    (be16 (m.getD 4 0#8) (m.getD 5 0#8)).toNat = m.length - 6 →
    decode (m.drop 7) = .ok k →
    let c' : Slot := { c with
      hdr := m.take 6, hdrLen := 6, declLen := be16 (m.getD 4 0#8) (m.getD 5 0#8), sockq := [] }
    step s =
      andThen (exec k (runtimeChanges (between.take (i + 1)).flatten
        { s with inputs := rest, slots := s.slots.set i c' })) fun t =>
      .next (runtimeChanges ((between.take s.build.maxSrvClients).drop (i + 1)).flatten
        (mbapEmit i c' (m.getD 6 0#8) t))

/-- R204: what the block sends for the octets of one connection, and what its handler changes, is `TcpTransact` of the
octets, with the runtime's inputs as they are when the slot is served (log 15); the slot is left ready for the next
request. -/
def Obligations.TcpTransactionRefinesItsSummary : Prop :=
  ∀ (s : State) (between : List (List RuntimeChange)) (rest : List Event) (i : Nat) (c : Slot) (m : List Octet),
    AboutToServe s between rest i c m → 6 ≤ m.length →
    ∃ t r u d, tcpTransact m (runtimeChanges (between.take (i + 1)).flatten { s with inputs := rest }) = .next (t, r) ∧
      step s = .next u ∧
      u.mem = t.mem ∧ u.dbgOrder = t.dbgOrder ∧
      u.trace = t.trace ++ (match r with | none => [] | some adu => [.tcpSend i adu]) ∧
      u.slots = s.slots.set i d ∧ d.live = true ∧ d.hdrLen = 0 ∧ d.sockq = []

/-- R205: a TCP pass changes no register of the Serial Framer, of the CRC unit or of the configuration, nor the
transmit-enable line. -/
def Obligations.TcpPassLeavesTheSerialFramerAlone : Prop :=
  ∀ (s t : State) (between : List (List RuntimeChange)) (rest : List Event), s.inputs = .pollTcp between :: rest →
    step s = .next t →
    t.fsm = s.fsm ∧ t.frame = s.frame ∧ t.frameLen = s.frameLen ∧ t.lastCount = s.lastCount ∧
    t.winTimer = s.winTimer ∧ t.crcHi = s.crcHi ∧ t.crcLo = s.crcLo ∧ t.isBroadcast = s.isBroadcast ∧
    t.rxOverrun = s.rxOverrun ∧ t.txPhase = s.txPhase ∧ t.txen = s.txen ∧ t.rxq = s.rxq ∧
    t.slaveId = s.slaveId ∧ t.baud = s.baud ∧ t.t15 = s.t15 ∧ t.t35 = s.t35 ∧
    t.txenPresent = s.txenPresent ∧ t.txenLeadIn = s.txenLeadIn

/-- R203: the block never closes a connection itself: a live slot stays live in every step but its peer's `TcpClose`
and `Reset`. -/
def Obligations.OnlyCloseOrResetFreesASlot : Prop :=
  ∀ (s t : State) (i : Nat) (c : Slot), step s = .next t → s.slots[i]? = some c → c.live = true →
    (∀ e rest, s.inputs = e :: rest → e.isReset = false ∧ e ≠ .tcpClose i) →
    ∃ d, t.slots[i]? = some d ∧ d.live = true

/-- R43, R44: what the socket layer's events do where they are enabled. -/
def Obligations.SocketEventsReachTheirSlot : Prop :=
  ∀ (s : State) (rest : List Event), ConfigLegal s.build s.baud →
    (s.inputs = .tcpConnect :: rest → step s = .next { s with inputs := rest, connPending := s.connPending + 1 }) ∧
    (s.inputs = .tcpConnectWithdraw :: rest → 0 < s.connPending →
      step s = .next { s with inputs := rest, connPending := s.connPending - 1 }) ∧
    (∀ i c octets, s.inputs = .tcpData i octets :: rest → s.slots[i]? = some c → c.live = true →
      step s = .next { s with
        inputs := rest, slots := s.slots.set i { c with sockq := c.sockq ++ octets } }) ∧
    (∀ i c, s.inputs = .tcpClose i :: rest → s.slots[i]? = some c →
      step s = .next { s with
        inputs := rest, slots := s.slots.set i { c with live := false, hdrLen := 0, sockq := [] } })

/-! ## The PDU Dispatcher (43_pdu_mux, 60_exceptions) -/

/-- R229: `DISPATCH` is total on PDUs with a function code and its response has 2 to `MAX_FRAME` octets; it changes at
most the Register Bank, `dbg_order` and the trace. -/
def Obligations.DispatchAnswersWithinMaxFrame : Prop :=
  ∀ (s : State) (p : List Octet), s.build.Legal → p ≠ [] →
    ∃ t, dispatch p s = .next t ∧ 2 ≤ t.respPdu.length ∧ t.respPdu.length ≤ s.build.maxFrame ∧
      t = { s with mem := t.mem, dbgOrder := t.dbgOrder, trace := t.trace, respPdu := t.respPdu }

/-- R224, R225, R326: a standard function that answers with bit 7 of the function code set has changed nothing, and the
response is that code with one of the four exception codes. -/
def Obligations.ExceptionsArePrecise : Prop :=
  ∀ (i : Instr) (s t : State), isStandard i = true → exec i s = .next t →
    (t.respPdu.getD 0 0#8).getLsbD 7 = true →
    ∃ code ∈ [0x01#8, 0x02#8, 0x03#8, 0x04#8],
      t = { s with respPdu := [functionCode i ||| 0x80#8, code] }

/-- R291: a debug function never returns an exception response: its response begins with its own function code, bit 7
clear, and the Register Bank is unchanged. -/
def Obligations.DebugFunctionsNeverRaise : Prop :=
  ∀ (i : Instr) (s t : State), isStandard i = false → exec i s = .next t →
    t.respPdu.head? = some (functionCode i) ∧ (functionCode i).getLsbD 7 = false ∧ t.mem = s.mem

/-- R221: the dispatcher is transport-independent: in two states that agree on the build, the bank, the debug bit and
the runtime's inputs, the same PDU gives the same response, the same changes and the same new outputs. -/
def Obligations.DispatchIsTransportIndependent : Prop :=
  ∀ (p : List Octet) (s₁ s₂ t₁ : State), s₁.build = s₂.build → s₁.mem = s₂.mem → s₁.dbgOrder = s₂.dbgOrder →
    s₁.tick = s₂.tick → s₁.vars = s₂.vars → dispatch p s₁ = .next t₁ →
    ∃ t₂ out, dispatch p s₂ = .next t₂ ∧ t₂.respPdu = t₁.respPdu ∧ t₂.mem = t₁.mem ∧ t₂.dbgOrder = t₁.dbgOrder ∧
      t₁.trace = s₁.trace ++ out ∧ t₂.trace = s₂.trace ++ out

/-! ## The bit and register functions (44_register_functions, 45_bit_functions) -/

/-- R272, R273: with a count of 1 to 0x7D0 inside the table and a response within `MAX_FRAME`, 0x01 and 0x02 complete:
function code, byte count, then the bits packed lowest address first with zero padding; nothing else changes. -/
def Obligations.BitReadsAnswerPackedBits : Prop :=
  ∀ (s : State) (start count : Word16), 1 ≤ count.toNat → count.toNat ≤ 0x7D0 →
    2 + (count.toNat + 7) / 8 ≤ s.build.maxFrame →
    (start.toNat + count.toNat ≤ s.build.nCoils →
      ∃ d, exec (.rdcoil (some ⟨start, count⟩)) s =
          .next { s with respPdu := [0x01#8, BitVec.ofNat 8 ((count.toNat + 7) / 8)] ++ d } ∧
        d.length = (count.toNat + 7) / 8 ∧
        ∀ j m, j < d.length → m < 8 → (d.getD j 0#8).getLsbD m =
          (decide (8 * j + m < count.toNat) && s.mem.bit .coil (start.toNat + (8 * j + m)))) ∧
    (start.toNat + count.toNat ≤ s.build.nDisc →
      ∃ d, exec (.rddisc (some ⟨start, count⟩)) s =
          .next { s with respPdu := [0x02#8, BitVec.ofNat 8 ((count.toNat + 7) / 8)] ++ d } ∧
        d.length = (count.toNat + 7) / 8 ∧
        ∀ j m, j < d.length → m < 8 → (d.getD j 0#8).getLsbD m =
          (decide (8 * j + m < count.toNat) && s.mem.bit .disc (start.toNat + (8 * j + m))))

/-- R250, R251: with a count of 1 to 0x7D inside the table and a response within `MAX_FRAME`, 0x03 and 0x04 complete:
function code, byte count, then the registers in ascending order, each high octet first; nothing else changes. -/
def Obligations.RegisterReadsAnswerBigEndian : Prop :=
  ∀ (s : State) (start count : Word16), 1 ≤ count.toNat → count.toNat ≤ 0x7D →
    2 + 2 * count.toNat ≤ s.build.maxFrame →
    (start.toNat + count.toNat ≤ s.build.nHold →
      ∃ d, exec (.rdhold (some ⟨start, count⟩)) s =
          .next { s with respPdu := [0x03#8, BitVec.ofNat 8 (2 * count.toNat)] ++ d } ∧
        d.length = 2 * count.toNat ∧
        ∀ j, j < count.toNat → (d.getD (2 * j) 0#8).toNat * 256 + (d.getD (2 * j + 1) 0#8).toNat =
          (s.mem.word .hold (start.toNat + j)).toNat) ∧
    (start.toNat + count.toNat ≤ s.build.nInreg →
      ∃ d, exec (.rdinreg (some ⟨start, count⟩)) s =
          .next { s with respPdu := [0x04#8, BitVec.ofNat 8 (2 * count.toNat)] ++ d } ∧
        d.length = 2 * count.toNat ∧
        ∀ j, j < count.toNat → (d.getD (2 * j) 0#8).toNat * 256 + (d.getD (2 * j + 1) 0#8).toNat =
          (s.mem.word .inreg (start.toNat + j)).toNat)

/-- R225, R226, R272, R273, R250, R251: where the read functions raise, in the order of the checks: a short PDU or a
count out of range, then the address, then the capacity; nothing else changes. -/
def Obligations.ReadFunctionsCheckInOrder : Prop :=
  ∀ (s : State) (o : Option RdOps),
    let raises (i : Instr) (code : Octet) : Prop :=
      exec i s = .next { s with respPdu := [functionCode i ||| 0x80#8, code] }
    (o = none → raises (.rdcoil o) 0x03#8 ∧ raises (.rddisc o) 0x03#8 ∧ raises (.rdhold o) 0x03#8 ∧
      raises (.rdinreg o) 0x03#8) ∧
    ∀ start count : Word16, o = some ⟨start, count⟩ →
      (count.toNat = 0 ∨ 2000 < count.toNat → raises (.rdcoil o) 0x03#8 ∧ raises (.rddisc o) 0x03#8) ∧
      (count.toNat = 0 ∨ 125 < count.toNat → raises (.rdhold o) 0x03#8 ∧ raises (.rdinreg o) 0x03#8) ∧
      (1 ≤ count.toNat → count.toNat ≤ 2000 →
        (s.build.nCoils < start.toNat + count.toNat → raises (.rdcoil o) 0x02#8) ∧
        (s.build.nDisc < start.toNat + count.toNat → raises (.rddisc o) 0x02#8) ∧
        (start.toNat + count.toNat ≤ s.build.nCoils → s.build.maxFrame < 2 + (count.toNat + 7) / 8 →
          raises (.rdcoil o) 0x04#8) ∧
        (start.toNat + count.toNat ≤ s.build.nDisc → s.build.maxFrame < 2 + (count.toNat + 7) / 8 →
          raises (.rddisc o) 0x04#8)) ∧
      (1 ≤ count.toNat → count.toNat ≤ 125 →
        (s.build.nHold < start.toNat + count.toNat → raises (.rdhold o) 0x02#8) ∧
        (s.build.nInreg < start.toNat + count.toNat → raises (.rdinreg o) 0x02#8) ∧
        (start.toNat + count.toNat ≤ s.build.nHold → s.build.maxFrame < 2 + 2 * count.toNat →
          raises (.rdhold o) 0x04#8) ∧
        (start.toNat + count.toNat ≤ s.build.nInreg → s.build.maxFrame < 2 + 2 * count.toNat →
          raises (.rdinreg o) 0x04#8))

/-- R274: with a legal status inside the table, 0x05 completes: the coil is 1 exactly when the status is 0xFF00, every
other element keeps its value, and the response echoes the five octets of the request. -/
def Obligations.WriteCoilSetsOneCoil : Prop :=
  ∀ (s : State) (coil status : Word16), s.mem.wf → (status = 0x0000#16 ∨ status = 0xFF00#16) →
    coil.toNat < s.build.nCoils →
    ∃ t, exec (.wrcoil (some ⟨coil, status⟩)) s = .next t ∧
      t = { s with
        mem := { s.mem with coils := t.mem.coils }
        respPdu := [0x05#8, hi8 coil, lo8 coil, hi8 status, lo8 status] } ∧
      t.mem.bit .coil coil.toNat = decide (status = 0xFF00#16) ∧
      ∀ a, a ≠ coil.toNat → t.mem.bit .coil a = s.mem.bit .coil a

/-- R252: inside the table 0x06 completes: the register holds the value, every other element keeps its value, and the
response echoes the five octets of the request. -/
def Obligations.WriteRegisterSetsOneRegister : Prop :=
  ∀ (s : State) (register value : Word16), s.mem.wf → register.toNat < s.build.nHold →
    ∃ t, exec (.wrreg (some ⟨register, value⟩)) s = .next t ∧
      t = { s with
        mem := { s.mem with holdingRegisters := t.mem.holdingRegisters }
        respPdu := [0x06#8, hi8 register, lo8 register, hi8 value, lo8 value] } ∧
      t.mem.word .hold register.toNat = value ∧
      ∀ a, a ≠ register.toNat → t.mem.word .hold a = s.mem.word .hold a

/-- R275: with a count of 1 to 0x7B0, the right byte count, all data present and the run inside the table, 0x0F
completes: coil `start + i` is bit `i % 8` of data octet `i / 8`, every other element keeps its value even where it
shares a storage unit, and the response echoes start and count. -/
def Obligations.WriteCoilsSetsARun : Prop :=
  ∀ (s : State) (start count : Word16) (bc : Octet) (data : List Octet), s.mem.wf →
    1 ≤ count.toNat → count.toNat ≤ 0x7B0 → bc.toNat = (count.toNat + 7) / 8 → data.length = bc.toNat →
    start.toNat + count.toNat ≤ s.build.nCoils →
    ∃ t, exec (.wrcoils (some ⟨start, count, bc, data⟩)) s = .next t ∧
      t = { s with
        mem := { s.mem with coils := t.mem.coils }
        respPdu := [0x0F#8, hi8 start, lo8 start, hi8 count, lo8 count] } ∧
      (∀ i, i < count.toNat →
        t.mem.bit .coil (start.toNat + i) = (data.getD (i / 8) 0#8).getLsbD (i % 8)) ∧
      ∀ a, a < start.toNat ∨ start.toNat + count.toNat ≤ a → t.mem.bit .coil a = s.mem.bit .coil a

/-- R253: with a count of 1 to 0x7B, the right byte count, all data present and the run inside the table, 0x10
completes: register `start + i` is the big-endian field at data octet `2*i`, every other element keeps its value, and
the response echoes start and count. -/
def Obligations.WriteRegistersSetsARun : Prop :=
  ∀ (s : State) (start count : Word16) (bc : Octet) (data : List Octet), s.mem.wf →
    1 ≤ count.toNat → count.toNat ≤ 0x7B → bc.toNat = 2 * count.toNat → data.length = bc.toNat →
    start.toNat + count.toNat ≤ s.build.nHold →
    ∃ t, exec (.wrregs (some ⟨start, count, bc, data⟩)) s = .next t ∧
      t = { s with
        mem := { s.mem with holdingRegisters := t.mem.holdingRegisters }
        respPdu := [0x10#8, hi8 start, lo8 start, hi8 count, lo8 count] } ∧
      (∀ i, i < count.toNat → (t.mem.word .hold (start.toNat + i)).toNat =
        (data.getD (2 * i) 0#8).toNat * 256 + (data.getD (2 * i + 1) 0#8).toNat) ∧
      ∀ a, a < start.toNat ∨ start.toNat + count.toNat ≤ a → t.mem.word .hold a = s.mem.word .hold a

/-- R225, R274, R252, R275, R253: where the write functions raise: a short PDU, a status, count or byte count out of
its set or data not wholly present raise ILLEGAL_VALUE whatever the address; then the address raises ILLEGAL_ADDRESS;
nothing is written in either case. -/
def Obligations.WriteFunctionsCheckInOrder : Prop :=
  ∀ s : State,
    let raises (i : Instr) (code : Octet) : Prop :=
      exec i s = .next { s with respPdu := [functionCode i ||| 0x80#8, code] }
    (raises (.wrcoil none) 0x03#8 ∧ raises (.wrreg none) 0x03#8 ∧ raises (.wrcoils none) 0x03#8 ∧
      raises (.wrregs none) 0x03#8) ∧
    (∀ coil status : Word16,
      (status ≠ 0x0000#16 → status ≠ 0xFF00#16 → raises (.wrcoil (some ⟨coil, status⟩)) 0x03#8) ∧
      (status = 0x0000#16 ∨ status = 0xFF00#16 → s.build.nCoils ≤ coil.toNat →
        raises (.wrcoil (some ⟨coil, status⟩)) 0x02#8)) ∧
    (∀ register value : Word16, s.build.nHold ≤ register.toNat →
      raises (.wrreg (some ⟨register, value⟩)) 0x02#8) ∧
    (∀ (start count : Word16) (bc : Octet) (data : List Octet),
      (count.toNat = 0 ∨ 1968 < count.toNat ∨ bc.toNat ≠ (count.toNat + 7) / 8 ∨ data.length < bc.toNat →
        raises (.wrcoils (some ⟨start, count, bc, data⟩)) 0x03#8) ∧
      (1 ≤ count.toNat → count.toNat ≤ 1968 → bc.toNat = (count.toNat + 7) / 8 → bc.toNat ≤ data.length →
        s.build.nCoils < start.toNat + count.toNat →
        raises (.wrcoils (some ⟨start, count, bc, data⟩)) 0x02#8) ∧
      (count.toNat = 0 ∨ 123 < count.toNat ∨ bc.toNat ≠ 2 * count.toNat ∨ data.length < bc.toNat →
        raises (.wrregs (some ⟨start, count, bc, data⟩)) 0x03#8) ∧
      (1 ≤ count.toNat → count.toNat ≤ 123 → bc.toNat = 2 * count.toNat → bc.toNat ≤ data.length →
        s.build.nHold < start.toNat + count.toNat →
        raises (.wrregs (some ⟨start, count, bc, data⟩)) 0x02#8))

/-- R73: writes are idempotent: an identical request processed again gives the same state and the same response. -/
def Obligations.RepeatedWritesAreIdempotent : Prop :=
  ∀ (s t : State) (i : Instr), s.mem.wf → exec i s = .next t →
    ((∃ o, i = .wrcoil o) ∨ (∃ o, i = .wrreg o) ∨ (∃ o, i = .wrcoils o) ∨ (∃ o, i = .wrregs o)) →
    exec i t = .next t

/-! ## The debug functions (46_debug_functions) -/

/-- R294: 0x41 completes in every state with the number of variables as a 16-bit big-endian value; nothing else
changes; payload octets after the function code are ignored. -/
def Obligations.GetInfoReportsTheVariableCount : Prop :=
  ∀ s : State,
    (∃ hi lo : Octet, exec .dbginfo s = .next { s with respPdu := [0x41#8, hi, lo] } ∧
      hi.toNat * 256 + lo.toNat = (variableCount s).toNat ∧
      (s.vars.length < 65536 → hi.toNat * 256 + lo.toNat = s.vars.length)) ∧
    ∀ payload : List Octet, dispatch (0x41#8 :: payload) s = exec .dbginfo s

/-- R295: 0x42 checks the index, the length bound and that the value octets are all present, then emits one `SetTrace`
and answers success; otherwise it answers 0x81; nothing else changes. -/
def Obligations.SetTraceDelegatesAfterItsChecks : Prop :=
  ∀ (s : State) (index length : Word16) (force : Octet) (value : List Octet), 7 ≤ s.build.maxFrame →
    (index.toNat < (variableCount s).toNat → length.toNat ≤ s.build.maxFrame - 7 → value.length = length.toNat →
      exec (.dbgset (some ⟨index, force, length, value⟩)) s = .next { s with
        trace := s.trace ++ [.setTrace index (decide (force ≠ 0#8)) value], respPdu := [0x42#8, 0x7E#8] }) ∧
    ((variableCount s).toNat ≤ index.toNat ∨ s.build.maxFrame - 7 < length.toNat ∨ value.length < length.toNat →
      exec (.dbgset (some ⟨index, force, length, value⟩)) s = .next { s with respPdu := [0x42#8, 0x81#8] }) ∧
    exec (.dbgset none) s = .next { s with respPdu := [0x42#8, 0x81#8] }

/-- R298 to R301: with `start <= end < variable_count()`, 0x43 completes with success: it has copied the octets of the
first `k` variables from `start` in order, all of them or as many as fit in `MAX_FRAME`, and reports the last index
copied (`start` when none fits), the tick and the byte count; nothing else changes. -/
def Obligations.GetTraceCopiesARange : Prop :=
  ∀ (s : State) (first last : Word16), 10 ≤ s.build.maxFrame → s.build.maxFrame ≤ 65534 →
    first.toNat ≤ last.toNat → last.toNat < (variableCount s).toNat →
    ∃ (k : Nat) (data : List Octet) (reported n : Word16),
      exec (.dbgget (some ⟨first, last⟩)) s = .next { s with
        respPdu := [0x43#8, 0x7E#8] ++ be16enc reported ++ be32enc s.tick ++ be16enc n ++ data } ∧
      k ≤ last.toNat + 1 - first.toNat ∧
      data = (List.range k).flatMap (fun j => s.vars.getD (first.toNat + j) []) ∧
      n.toNat = data.length ∧ reported.toNat = first.toNat + (k - 1) ∧
      10 + data.length ≤ s.build.maxFrame ∧
      (k < last.toNat + 1 - first.toNat →
        s.build.maxFrame < 10 + data.length + (s.vars.getD (first.toNat + k) []).length)

/-- R302 to R304: with a non-empty list, present in full, of indices that are all in range, 0x44 completes with
success: it has copied the octets of the first `k` listed variables in list order, all of them or as many as fit in
`MAX_FRAME`, and reports the last index copied (the first listed when none fits), the tick and the byte count; nothing
else changes. -/
def Obligations.GetTraceCopiesAList : Prop :=
  ∀ (s : State) (n : Word16) (idx : List Word16), 10 ≤ s.build.maxFrame → s.build.maxFrame ≤ 65534 →
    n ≠ 0#16 → idx.length = n.toNat → (∀ i ∈ idx, i.toNat < (variableCount s).toNat) →
    ∃ (k : Nat) (data : List Octet) (nbytes : Word16),
      exec (.dbglist (some ⟨n, idx⟩)) s = .next { s with
        respPdu := [0x44#8, 0x7E#8] ++ be16enc (idx.getD (k - 1) 0#16) ++ be32enc s.tick ++ be16enc nbytes ++ data } ∧
      k ≤ idx.length ∧
      data = (idx.take k).flatMap (fun i => s.vars.getD i.toNat []) ∧
      nbytes.toNat = data.length ∧
      10 + data.length ≤ s.build.maxFrame ∧
      (k < idx.length →
        s.build.maxFrame < 10 + data.length + (s.vars.getD (idx.getD k 0#16).toNat []).length)

/-- R298, R302: 0x43 without `start <= end < variable_count()`, and 0x44 with an empty list, a list that runs past the
PDU or any index out of range, answer 0x81 and copy nothing; nothing else changes. -/
def Obligations.OutOfRangeTracesCopyNothing : Prop :=
  ∀ s : State,
    (∀ first last : Word16, last.toNat < first.toNat ∨ (variableCount s).toNat ≤ last.toNat →
      exec (.dbgget (some ⟨first, last⟩)) s = .next { s with respPdu := [0x43#8, 0x81#8] }) ∧
    exec (.dbgget none) s = .next { s with respPdu := [0x43#8, 0x81#8] } ∧
    (∀ (n : Word16) (idx : List Word16),
      n = 0#16 ∨ idx.length < n.toNat ∨ (∃ i ∈ idx, (variableCount s).toNat ≤ i.toNat) →
      exec (.dbglist (some ⟨n, idx⟩)) s = .next { s with respPdu := [0x44#8, 0x81#8] }) ∧
    exec (.dbglist none) s = .next { s with respPdu := [0x44#8, 0x81#8] }

/-- R305: 0x45 completes in every state: a recognised marker is recorded and answered 0x7E, any other or a short PDU is
answered 0x81 with `dbg_order` unchanged, and the hash follows in every case; nothing else changes. -/
def Obligations.GetMd5RecordsTheMarker : Prop :=
  ∀ s : State,
    exec (.dbgmd5 (some 0xDEAD#16)) s =
      .next { s with dbgOrder := .asDEAD, respPdu := [0x45#8, 0x7E#8] ++ s.build.hash } ∧
    exec (.dbgmd5 (some 0xADDE#16)) s =
      .next { s with dbgOrder := .asADDE, respPdu := [0x45#8, 0x7E#8] ++ s.build.hash } ∧
    (∀ m : Word16, m ≠ 0xDEAD#16 → m ≠ 0xADDE#16 →
      exec (.dbgmd5 (some m)) s = .next { s with respPdu := [0x45#8, 0x81#8] ++ s.build.hash }) ∧
    exec (.dbgmd5 none) s = .next { s with respPdu := [0x45#8, 0x81#8] ++ s.build.hash }

/-! ## Frames -/

/-- R73: the functions that store nothing (0x01 to 0x04, 0x41, 0x43, 0x44), in every form: only the response is new,
and every element of all four tables reads as before. -/
def Obligations.ReadingFunctionsChangeNothing : Prop :=
  ∀ (i : Instr) (s t : State), exec i s = .next t →
    ((∃ o, i = .rdcoil o) ∨ (∃ o, i = .rddisc o) ∨ (∃ o, i = .rdhold o) ∨ (∃ o, i = .rdinreg o) ∨
      i = .dbginfo ∨ (∃ o, i = .dbgget o) ∨ (∃ o, i = .dbglist o)) →
    t = { s with respPdu := t.respPdu } ∧
    (∀ sp a, t.mem.bit sp a = s.mem.bit sp a) ∧ (∀ sp a, t.mem.word sp a = s.mem.word sp a)

/-- R72, R274, R275: the coil writes, in every form: only coils of the addressed run can change; every other element of
every table, and everything else but the response, stays. A short form changes no element. -/
def Obligations.CoilWritesStayInTheirRun : Prop :=
  ∀ (s t : State) (i : Instr) (start count : Nat), exec i s = .next t →
    ((∃ o, i = .wrcoil (some o) ∧ start = o.addr.toNat ∧ count = 1) ∨
      (∃ o, i = .wrcoils (some o) ∧ start = o.start.toNat ∧ count = o.count.toNat) ∨
      ((i = .wrcoil none ∨ i = .wrcoils none) ∧ count = 0)) →
    t = { s with mem := { s.mem with coils := t.mem.coils }, respPdu := t.respPdu } ∧
    (∀ a, a < start ∨ start + count ≤ a → t.mem.bit .coil a = s.mem.bit .coil a) ∧
    (∀ a, t.mem.bit .disc a = s.mem.bit .disc a) ∧ (∀ sp a, t.mem.word sp a = s.mem.word sp a)

/-- R72, R252, R253: the register writes, in every form: only holding registers of the addressed run can change; every
other element of every table, and everything else but the response, stays. A short form changes no element. -/
def Obligations.RegisterWritesStayInTheirRun : Prop :=
  ∀ (s t : State) (i : Instr) (start count : Nat), exec i s = .next t →
    ((∃ o, i = .wrreg (some o) ∧ start = o.addr.toNat ∧ count = 1) ∨
      (∃ o, i = .wrregs (some o) ∧ start = o.start.toNat ∧ count = o.count.toNat) ∨
      ((i = .wrreg none ∨ i = .wrregs none) ∧ count = 0)) →
    t = { s with mem := { s.mem with holdingRegisters := t.mem.holdingRegisters }, respPdu := t.respPdu } ∧
    (∀ a, a < start ∨ start + count ≤ a → t.mem.word .hold a = s.mem.word .hold a) ∧
    (∀ a, t.mem.word .inreg a = s.mem.word .inreg a) ∧ (∀ sp a, t.mem.bit sp a = s.mem.bit sp a)

/-- R295, R297, R305: 0x42 changes at most the trace, by at most one `SetTrace`, and 0x45 at most `dbg_order`, besides
the response; every element of all four tables reads as before. -/
def Obligations.DebugWritesChangeOnlyTheirOwn : Prop :=
  (∀ (s t : State) (o : Option SetOps), exec (.dbgset o) s = .next t →
    t = { s with trace := t.trace, respPdu := t.respPdu } ∧
    (t.trace = s.trace ∨ ∃ index force value, t.trace = s.trace ++ [.setTrace index force value]) ∧
    (∀ sp a, t.mem.bit sp a = s.mem.bit sp a) ∧ (∀ sp a, t.mem.word sp a = s.mem.word sp a)) ∧
  (∀ (s t : State) (m : Option Word16), exec (.dbgmd5 m) s = .next t →
    t = { s with dbgOrder := t.dbgOrder, respPdu := t.respPdu } ∧
    (∀ sp a, t.mem.bit sp a = s.mem.bit sp a) ∧ (∀ sp a, t.mem.word sp a = s.mem.word sp a))

/-! ## The whole machine -/

/-- Every step keeps the invariant of the block (R25, R26, R32, R35, R36, R40, R47, R164, R170). -/
def Obligations.StepKeepsTheInvariant : Prop :=
  ∀ s t : State, Inv s → step s = .next t → Inv t

/-- The state after reset meets the invariant. -/
def Obligations.ResetStateMeetsTheInvariant : Prop := Inv State.reset

/-- R328: every input event is accepted in every state: with a legal configuration no step faults and none is refused,
except a `Reset` that brings an illegal configuration. -/
def Obligations.EveryEventIsAccepted : Prop :=
  ∀ s : State, ConfigLegal s.build s.baud →
    (∀ l rest, s.inputs = .reset l :: rest → 1 ≤ l.baud.toNat) → Safe (step s)

/-- R62, R75: no request of any master writes the discrete inputs or the input registers: only the application's event
and `Reset` change them. -/
def Obligations.MastersCannotWriteReadOnlyTables : Prop :=
  ∀ s t : State, step s = .next t →
    (∀ e rest, s.inputs = e :: rest → e.isReset = false ∧ e.isAppWrite = false) →
    t.mem.discreteInputs = s.mem.discreteInputs ∧ t.mem.inputRegisters = s.mem.inputRegisters

/-- R76: the application's event changes the elements it writes, in any of the four tables, and nothing else but the
bank; an element it does not write keeps its value, and an element it writes holds the value of the last write of it.
That `f` is written as a list of element writes is the model's choice (log 2). -/
def Obligations.ApplicationWritesOnlyTheBank : Prop :=
  ∀ (s : State) (ws : List BankWrite) (rest : List Event), ConfigLegal s.build s.baud →
    s.inputs = .appWrite ws :: rest →
    ∃ t, step s = .next t ∧ t = { s with inputs := rest, mem := t.mem } ∧
      (∀ sp a, (∀ w ∈ ws, ∀ v, w ≠ .bit sp a v) → t.mem.bit sp a = s.mem.bit sp a) ∧
      (∀ sp a, (∀ w ∈ ws, ∀ v, w ≠ .word sp a v) → t.mem.word sp a = s.mem.word sp a) ∧
      (s.mem.wf → ∀ pre post sp a v, ws = pre ++ .bit sp a v :: post → (∀ w ∈ post, ∀ x, w ≠ .bit sp a x) →
        a < bitSize s.build sp → t.mem.bit sp a = v) ∧
      (s.mem.wf → ∀ pre post sp a v, ws = pre ++ .word sp a v :: post → (∀ w ∈ post, ∀ x, w ≠ .word sp a x) →
        a < wordSize s.build sp → t.mem.word sp a = v)

/-- R50, R290, R332: `tick` and the debug variables are the runtime's. Only its own changes (its event, or those that
come with a polling pass, log 6, log 15) and, for `tick`, `Reset` (log 6) alter them, and exactly as they say; no step
changes the number of variables or the size of one. -/
def Obligations.OnlyTheRuntimeChangesItsInputs : Prop :=
  (∀ s t : State, step s = .next t →
    t.vars.map List.length = s.vars.map List.length ∧
    (s.inputs = [] → t.tick = s.tick ∧ t.vars = s.vars) ∧
    ∀ e rest, s.inputs = e :: rest →
      t.vars = varsAfter (e.runtimeChanges s.build.maxSrvClients) s.vars ∧
      (e.isReset = false → t.tick = tickAfter (e.runtimeChanges s.build.maxSrvClients) s.tick)) ∧
  (∀ (s : State) (cs : List RuntimeChange) (rest : List Event), ConfigLegal s.build s.baud →
    s.inputs = .runtime cs :: rest →
    step s = .next { s with inputs := rest, tick := tickAfter cs s.tick, vars := varsAfter cs s.vars }) ∧
  (∀ (n t : Word32) (vars : List (List Octet)),
    tickAfter [.tickAdvance n] t = t + n ∧ varsAfter [.tickAdvance n] vars = vars) ∧
  (∀ (i : Nat) (old value : List Octet) (t : Word32) (vars : List (List Octet)),
    tickAfter [.varBytes i value] t = t ∧
    (vars[i]? = some old → value.length = old.length → varsAfter [.varBytes i value] vars = vars.set i value))

/-- R42, R30, R160: outside `Reset` the trace only grows; changes of the transmit-enable line are emitted only when it
is configured; and a block whose address is 0xFF never sends an octet on the serial line. -/
def Obligations.OutputsFollowTheConfiguration : Prop :=
  ∀ s t : State, Inv s → step s = .next t → (∀ e rest, s.inputs = e :: rest → e.isReset = false) →
    ∃ out, t.trace = s.trace ++ out ∧
      (s.txenPresent = false → ∀ o ∈ out, o.isTxEn = false) ∧
      (s.slaveId = 0xFF#8 → ∀ o ∈ out, o.isTxByte = false)
end

