-- ==== Sys2Proof/Laws/State.lean ====
section
/-! SUPPORT. One lemma for each field of the state and each named update: what the field holds after the update. -/

namespace Sys2Proof.Machine

open Sys2Proof

variable (s : State)

/-! ### `State.reply` -/

@[simp] theorem State.reply_build (q : List Octet) : (s.reply q).build = s.build := rfl
@[simp] theorem State.reply_mem (q : List Octet) : (s.reply q).mem = s.mem := rfl
@[simp] theorem State.reply_slaveId (q : List Octet) : (s.reply q).slaveId = s.slaveId := rfl
@[simp] theorem State.reply_baud (q : List Octet) : (s.reply q).baud = s.baud := rfl
@[simp] theorem State.reply_t15 (q : List Octet) : (s.reply q).t15 = s.t15 := rfl
@[simp] theorem State.reply_t35 (q : List Octet) : (s.reply q).t35 = s.t35 := rfl
@[simp] theorem State.reply_txenPresent (q : List Octet) : (s.reply q).txenPresent = s.txenPresent := rfl
@[simp] theorem State.reply_txenLeadIn (q : List Octet) : (s.reply q).txenLeadIn = s.txenLeadIn := rfl
@[simp] theorem State.reply_fsm (q : List Octet) : (s.reply q).fsm = s.fsm := rfl
@[simp] theorem State.reply_frame (q : List Octet) : (s.reply q).frame = s.frame := rfl
@[simp] theorem State.reply_frameLen (q : List Octet) : (s.reply q).frameLen = s.frameLen := rfl
@[simp] theorem State.reply_lastCount (q : List Octet) : (s.reply q).lastCount = s.lastCount := rfl
@[simp] theorem State.reply_winTimer (q : List Octet) : (s.reply q).winTimer = s.winTimer := rfl
@[simp] theorem State.reply_crcHi (q : List Octet) : (s.reply q).crcHi = s.crcHi := rfl
@[simp] theorem State.reply_crcLo (q : List Octet) : (s.reply q).crcLo = s.crcLo := rfl
@[simp] theorem State.reply_isBroadcast (q : List Octet) : (s.reply q).isBroadcast = s.isBroadcast := rfl
@[simp] theorem State.reply_rxOverrun (q : List Octet) : (s.reply q).rxOverrun = s.rxOverrun := rfl
@[simp] theorem State.reply_txPhase (q : List Octet) : (s.reply q).txPhase = s.txPhase := rfl
@[simp] theorem State.reply_txen (q : List Octet) : (s.reply q).txen = s.txen := rfl
@[simp] theorem State.reply_rxq (q : List Octet) : (s.reply q).rxq = s.rxq := rfl
@[simp] theorem State.reply_connPending (q : List Octet) : (s.reply q).connPending = s.connPending := rfl
@[simp] theorem State.reply_slots (q : List Octet) : (s.reply q).slots = s.slots := rfl
@[simp] theorem State.reply_dbgOrder (q : List Octet) : (s.reply q).dbgOrder = s.dbgOrder := rfl
@[simp] theorem State.reply_tick (q : List Octet) : (s.reply q).tick = s.tick := rfl
@[simp] theorem State.reply_vars (q : List Octet) : (s.reply q).vars = s.vars := rfl
@[simp] theorem State.reply_trace (q : List Octet) : (s.reply q).trace = s.trace := rfl
@[simp] theorem State.reply_inputs (q : List Octet) : (s.reply q).inputs = s.inputs := rfl
@[simp] theorem State.reply_respPdu (q : List Octet) : (s.reply q).respPdu = q := rfl

/-! ### `State.emit` -/

@[simp] theorem State.emit_build (e : Output) : (s.emit e).build = s.build := rfl
@[simp] theorem State.emit_mem (e : Output) : (s.emit e).mem = s.mem := rfl
@[simp] theorem State.emit_slaveId (e : Output) : (s.emit e).slaveId = s.slaveId := rfl
@[simp] theorem State.emit_baud (e : Output) : (s.emit e).baud = s.baud := rfl
@[simp] theorem State.emit_t15 (e : Output) : (s.emit e).t15 = s.t15 := rfl
@[simp] theorem State.emit_t35 (e : Output) : (s.emit e).t35 = s.t35 := rfl
@[simp] theorem State.emit_txenPresent (e : Output) : (s.emit e).txenPresent = s.txenPresent := rfl
@[simp] theorem State.emit_txenLeadIn (e : Output) : (s.emit e).txenLeadIn = s.txenLeadIn := rfl
@[simp] theorem State.emit_fsm (e : Output) : (s.emit e).fsm = s.fsm := rfl
@[simp] theorem State.emit_frame (e : Output) : (s.emit e).frame = s.frame := rfl
@[simp] theorem State.emit_frameLen (e : Output) : (s.emit e).frameLen = s.frameLen := rfl
@[simp] theorem State.emit_lastCount (e : Output) : (s.emit e).lastCount = s.lastCount := rfl
@[simp] theorem State.emit_winTimer (e : Output) : (s.emit e).winTimer = s.winTimer := rfl
@[simp] theorem State.emit_crcHi (e : Output) : (s.emit e).crcHi = s.crcHi := rfl
@[simp] theorem State.emit_crcLo (e : Output) : (s.emit e).crcLo = s.crcLo := rfl
@[simp] theorem State.emit_isBroadcast (e : Output) : (s.emit e).isBroadcast = s.isBroadcast := rfl
@[simp] theorem State.emit_rxOverrun (e : Output) : (s.emit e).rxOverrun = s.rxOverrun := rfl
@[simp] theorem State.emit_txPhase (e : Output) : (s.emit e).txPhase = s.txPhase := rfl
@[simp] theorem State.emit_txen (e : Output) : (s.emit e).txen = s.txen := rfl
@[simp] theorem State.emit_rxq (e : Output) : (s.emit e).rxq = s.rxq := rfl
@[simp] theorem State.emit_connPending (e : Output) : (s.emit e).connPending = s.connPending := rfl
@[simp] theorem State.emit_slots (e : Output) : (s.emit e).slots = s.slots := rfl
@[simp] theorem State.emit_dbgOrder (e : Output) : (s.emit e).dbgOrder = s.dbgOrder := rfl
@[simp] theorem State.emit_tick (e : Output) : (s.emit e).tick = s.tick := rfl
@[simp] theorem State.emit_vars (e : Output) : (s.emit e).vars = s.vars := rfl
@[simp] theorem State.emit_trace (e : Output) : (s.emit e).trace = s.trace ++ [e] := rfl
@[simp] theorem State.emit_inputs (e : Output) : (s.emit e).inputs = s.inputs := rfl
@[simp] theorem State.emit_respPdu (e : Output) : (s.emit e).respPdu = s.respPdu := rfl

/-! ### `State.withCrc` -/

@[simp] theorem State.withCrc_build (octets : List Octet) : (s.withCrc octets).build = s.build := rfl
@[simp] theorem State.withCrc_mem (octets : List Octet) : (s.withCrc octets).mem = s.mem := rfl
@[simp] theorem State.withCrc_slaveId (octets : List Octet) : (s.withCrc octets).slaveId = s.slaveId := rfl
@[simp] theorem State.withCrc_baud (octets : List Octet) : (s.withCrc octets).baud = s.baud := rfl
@[simp] theorem State.withCrc_t15 (octets : List Octet) : (s.withCrc octets).t15 = s.t15 := rfl
@[simp] theorem State.withCrc_t35 (octets : List Octet) : (s.withCrc octets).t35 = s.t35 := rfl
@[simp] theorem State.withCrc_txenPresent (octets : List Octet) : (s.withCrc octets).txenPresent = s.txenPresent := rfl
@[simp] theorem State.withCrc_txenLeadIn (octets : List Octet) : (s.withCrc octets).txenLeadIn = s.txenLeadIn := rfl
@[simp] theorem State.withCrc_fsm (octets : List Octet) : (s.withCrc octets).fsm = s.fsm := rfl
@[simp] theorem State.withCrc_frame (octets : List Octet) : (s.withCrc octets).frame = s.frame := rfl
@[simp] theorem State.withCrc_frameLen (octets : List Octet) : (s.withCrc octets).frameLen = s.frameLen := rfl
@[simp] theorem State.withCrc_lastCount (octets : List Octet) : (s.withCrc octets).lastCount = s.lastCount := rfl
@[simp] theorem State.withCrc_winTimer (octets : List Octet) : (s.withCrc octets).winTimer = s.winTimer := rfl
@[simp] theorem State.withCrc_crcHi (octets : List Octet) : (s.withCrc octets).crcHi = (crcRun octets).1 := rfl
@[simp] theorem State.withCrc_crcLo (octets : List Octet) : (s.withCrc octets).crcLo = (crcRun octets).2 := rfl
@[simp] theorem State.withCrc_isBroadcast (octets : List Octet) : (s.withCrc octets).isBroadcast = s.isBroadcast := rfl
@[simp] theorem State.withCrc_rxOverrun (octets : List Octet) : (s.withCrc octets).rxOverrun = s.rxOverrun := rfl
@[simp] theorem State.withCrc_txPhase (octets : List Octet) : (s.withCrc octets).txPhase = s.txPhase := rfl
@[simp] theorem State.withCrc_txen (octets : List Octet) : (s.withCrc octets).txen = s.txen := rfl
@[simp] theorem State.withCrc_rxq (octets : List Octet) : (s.withCrc octets).rxq = s.rxq := rfl
@[simp] theorem State.withCrc_connPending (octets : List Octet) : (s.withCrc octets).connPending = s.connPending := rfl
@[simp] theorem State.withCrc_slots (octets : List Octet) : (s.withCrc octets).slots = s.slots := rfl
@[simp] theorem State.withCrc_dbgOrder (octets : List Octet) : (s.withCrc octets).dbgOrder = s.dbgOrder := rfl
@[simp] theorem State.withCrc_tick (octets : List Octet) : (s.withCrc octets).tick = s.tick := rfl
@[simp] theorem State.withCrc_vars (octets : List Octet) : (s.withCrc octets).vars = s.vars := rfl
@[simp] theorem State.withCrc_trace (octets : List Octet) : (s.withCrc octets).trace = s.trace := rfl
@[simp] theorem State.withCrc_inputs (octets : List Octet) : (s.withCrc octets).inputs = s.inputs := rfl
@[simp] theorem State.withCrc_respPdu (octets : List Octet) : (s.withCrc octets).respPdu = s.respPdu := rfl

/-! ### `State.setSlot` -/

@[simp] theorem State.setSlot_build (i : Nat) (c : Slot) : (s.setSlot i c).build = s.build := rfl
@[simp] theorem State.setSlot_mem (i : Nat) (c : Slot) : (s.setSlot i c).mem = s.mem := rfl
@[simp] theorem State.setSlot_slaveId (i : Nat) (c : Slot) : (s.setSlot i c).slaveId = s.slaveId := rfl
@[simp] theorem State.setSlot_baud (i : Nat) (c : Slot) : (s.setSlot i c).baud = s.baud := rfl
@[simp] theorem State.setSlot_t15 (i : Nat) (c : Slot) : (s.setSlot i c).t15 = s.t15 := rfl
@[simp] theorem State.setSlot_t35 (i : Nat) (c : Slot) : (s.setSlot i c).t35 = s.t35 := rfl
@[simp] theorem State.setSlot_txenPresent (i : Nat) (c : Slot) : (s.setSlot i c).txenPresent = s.txenPresent := rfl
@[simp] theorem State.setSlot_txenLeadIn (i : Nat) (c : Slot) : (s.setSlot i c).txenLeadIn = s.txenLeadIn := rfl
@[simp] theorem State.setSlot_fsm (i : Nat) (c : Slot) : (s.setSlot i c).fsm = s.fsm := rfl
@[simp] theorem State.setSlot_frame (i : Nat) (c : Slot) : (s.setSlot i c).frame = s.frame := rfl
@[simp] theorem State.setSlot_frameLen (i : Nat) (c : Slot) : (s.setSlot i c).frameLen = s.frameLen := rfl
@[simp] theorem State.setSlot_lastCount (i : Nat) (c : Slot) : (s.setSlot i c).lastCount = s.lastCount := rfl
@[simp] theorem State.setSlot_winTimer (i : Nat) (c : Slot) : (s.setSlot i c).winTimer = s.winTimer := rfl
@[simp] theorem State.setSlot_crcHi (i : Nat) (c : Slot) : (s.setSlot i c).crcHi = s.crcHi := rfl
@[simp] theorem State.setSlot_crcLo (i : Nat) (c : Slot) : (s.setSlot i c).crcLo = s.crcLo := rfl
@[simp] theorem State.setSlot_isBroadcast (i : Nat) (c : Slot) : (s.setSlot i c).isBroadcast = s.isBroadcast := rfl
@[simp] theorem State.setSlot_rxOverrun (i : Nat) (c : Slot) : (s.setSlot i c).rxOverrun = s.rxOverrun := rfl
@[simp] theorem State.setSlot_txPhase (i : Nat) (c : Slot) : (s.setSlot i c).txPhase = s.txPhase := rfl
@[simp] theorem State.setSlot_txen (i : Nat) (c : Slot) : (s.setSlot i c).txen = s.txen := rfl
@[simp] theorem State.setSlot_rxq (i : Nat) (c : Slot) : (s.setSlot i c).rxq = s.rxq := rfl
@[simp] theorem State.setSlot_connPending (i : Nat) (c : Slot) : (s.setSlot i c).connPending = s.connPending := rfl
@[simp] theorem State.setSlot_slots (i : Nat) (c : Slot) : (s.setSlot i c).slots = s.slots.set i c := rfl
@[simp] theorem State.setSlot_dbgOrder (i : Nat) (c : Slot) : (s.setSlot i c).dbgOrder = s.dbgOrder := rfl
@[simp] theorem State.setSlot_tick (i : Nat) (c : Slot) : (s.setSlot i c).tick = s.tick := rfl
@[simp] theorem State.setSlot_vars (i : Nat) (c : Slot) : (s.setSlot i c).vars = s.vars := rfl
@[simp] theorem State.setSlot_trace (i : Nat) (c : Slot) : (s.setSlot i c).trace = s.trace := rfl
@[simp] theorem State.setSlot_inputs (i : Nat) (c : Slot) : (s.setSlot i c).inputs = s.inputs := rfl
@[simp] theorem State.setSlot_respPdu (i : Nat) (c : Slot) : (s.setSlot i c).respPdu = s.respPdu := rfl

/-! ### `State.writeBits` -/

@[simp] theorem State.writeBits_build (sp : BitSpace) (a : Nat) (vs : List Bool) :
    (s.writeBits sp a vs).build = s.build := rfl
@[simp] theorem State.writeBits_mem (sp : BitSpace) (a : Nat) (vs : List Bool) :
    (s.writeBits sp a vs).mem = s.mem.setBits sp (Table.writeRun bitDefault (s.mem.bits sp) a vs) := rfl
@[simp] theorem State.writeBits_slaveId (sp : BitSpace) (a : Nat) (vs : List Bool) :
    (s.writeBits sp a vs).slaveId = s.slaveId := rfl
@[simp] theorem State.writeBits_baud (sp : BitSpace) (a : Nat) (vs : List Bool) :
    (s.writeBits sp a vs).baud = s.baud := rfl
@[simp] theorem State.writeBits_t15 (sp : BitSpace) (a : Nat) (vs : List Bool) :
    (s.writeBits sp a vs).t15 = s.t15 := rfl
@[simp] theorem State.writeBits_t35 (sp : BitSpace) (a : Nat) (vs : List Bool) :
    (s.writeBits sp a vs).t35 = s.t35 := rfl
@[simp] theorem State.writeBits_txenPresent (sp : BitSpace) (a : Nat) (vs : List Bool) :
    (s.writeBits sp a vs).txenPresent = s.txenPresent := rfl
@[simp] theorem State.writeBits_txenLeadIn (sp : BitSpace) (a : Nat) (vs : List Bool) :
    (s.writeBits sp a vs).txenLeadIn = s.txenLeadIn := rfl
@[simp] theorem State.writeBits_fsm (sp : BitSpace) (a : Nat) (vs : List Bool) :
    (s.writeBits sp a vs).fsm = s.fsm := rfl
@[simp] theorem State.writeBits_frame (sp : BitSpace) (a : Nat) (vs : List Bool) :
    (s.writeBits sp a vs).frame = s.frame := rfl
@[simp] theorem State.writeBits_frameLen (sp : BitSpace) (a : Nat) (vs : List Bool) :
    (s.writeBits sp a vs).frameLen = s.frameLen := rfl
@[simp] theorem State.writeBits_lastCount (sp : BitSpace) (a : Nat) (vs : List Bool) :
    (s.writeBits sp a vs).lastCount = s.lastCount := rfl
@[simp] theorem State.writeBits_winTimer (sp : BitSpace) (a : Nat) (vs : List Bool) :
    (s.writeBits sp a vs).winTimer = s.winTimer := rfl
@[simp] theorem State.writeBits_crcHi (sp : BitSpace) (a : Nat) (vs : List Bool) :
    (s.writeBits sp a vs).crcHi = s.crcHi := rfl
@[simp] theorem State.writeBits_crcLo (sp : BitSpace) (a : Nat) (vs : List Bool) :
    (s.writeBits sp a vs).crcLo = s.crcLo := rfl
@[simp] theorem State.writeBits_isBroadcast (sp : BitSpace) (a : Nat) (vs : List Bool) :
    (s.writeBits sp a vs).isBroadcast = s.isBroadcast := rfl
@[simp] theorem State.writeBits_rxOverrun (sp : BitSpace) (a : Nat) (vs : List Bool) :
    (s.writeBits sp a vs).rxOverrun = s.rxOverrun := rfl
@[simp] theorem State.writeBits_txPhase (sp : BitSpace) (a : Nat) (vs : List Bool) :
    (s.writeBits sp a vs).txPhase = s.txPhase := rfl
@[simp] theorem State.writeBits_txen (sp : BitSpace) (a : Nat) (vs : List Bool) :
    (s.writeBits sp a vs).txen = s.txen := rfl
@[simp] theorem State.writeBits_rxq (sp : BitSpace) (a : Nat) (vs : List Bool) :
    (s.writeBits sp a vs).rxq = s.rxq := rfl
@[simp] theorem State.writeBits_connPending (sp : BitSpace) (a : Nat) (vs : List Bool) :
    (s.writeBits sp a vs).connPending = s.connPending := rfl
@[simp] theorem State.writeBits_slots (sp : BitSpace) (a : Nat) (vs : List Bool) :
    (s.writeBits sp a vs).slots = s.slots := rfl
@[simp] theorem State.writeBits_dbgOrder (sp : BitSpace) (a : Nat) (vs : List Bool) :
    (s.writeBits sp a vs).dbgOrder = s.dbgOrder := rfl
@[simp] theorem State.writeBits_tick (sp : BitSpace) (a : Nat) (vs : List Bool) :
    (s.writeBits sp a vs).tick = s.tick := rfl
@[simp] theorem State.writeBits_vars (sp : BitSpace) (a : Nat) (vs : List Bool) :
    (s.writeBits sp a vs).vars = s.vars := rfl
@[simp] theorem State.writeBits_trace (sp : BitSpace) (a : Nat) (vs : List Bool) :
    (s.writeBits sp a vs).trace = s.trace := rfl
@[simp] theorem State.writeBits_inputs (sp : BitSpace) (a : Nat) (vs : List Bool) :
    (s.writeBits sp a vs).inputs = s.inputs := rfl
@[simp] theorem State.writeBits_respPdu (sp : BitSpace) (a : Nat) (vs : List Bool) :
    (s.writeBits sp a vs).respPdu = s.respPdu := rfl

/-! ### `State.writeWords` -/

@[simp] theorem State.writeWords_build (sp : WordSpace) (a : Nat) (vs : List Word16) :
    (s.writeWords sp a vs).build = s.build := rfl
@[simp] theorem State.writeWords_mem (sp : WordSpace) (a : Nat) (vs : List Word16) :
    (s.writeWords sp a vs).mem = s.mem.setWords sp (Table.writeRun wordDefault (s.mem.words sp) a vs) := rfl
@[simp] theorem State.writeWords_slaveId (sp : WordSpace) (a : Nat) (vs : List Word16) :
    (s.writeWords sp a vs).slaveId = s.slaveId := rfl
@[simp] theorem State.writeWords_baud (sp : WordSpace) (a : Nat) (vs : List Word16) :
    (s.writeWords sp a vs).baud = s.baud := rfl
@[simp] theorem State.writeWords_t15 (sp : WordSpace) (a : Nat) (vs : List Word16) :
    (s.writeWords sp a vs).t15 = s.t15 := rfl
@[simp] theorem State.writeWords_t35 (sp : WordSpace) (a : Nat) (vs : List Word16) :
    (s.writeWords sp a vs).t35 = s.t35 := rfl
@[simp] theorem State.writeWords_txenPresent (sp : WordSpace) (a : Nat) (vs : List Word16) :
    (s.writeWords sp a vs).txenPresent = s.txenPresent := rfl
@[simp] theorem State.writeWords_txenLeadIn (sp : WordSpace) (a : Nat) (vs : List Word16) :
    (s.writeWords sp a vs).txenLeadIn = s.txenLeadIn := rfl
@[simp] theorem State.writeWords_fsm (sp : WordSpace) (a : Nat) (vs : List Word16) :
    (s.writeWords sp a vs).fsm = s.fsm := rfl
@[simp] theorem State.writeWords_frame (sp : WordSpace) (a : Nat) (vs : List Word16) :
    (s.writeWords sp a vs).frame = s.frame := rfl
@[simp] theorem State.writeWords_frameLen (sp : WordSpace) (a : Nat) (vs : List Word16) :
    (s.writeWords sp a vs).frameLen = s.frameLen := rfl
@[simp] theorem State.writeWords_lastCount (sp : WordSpace) (a : Nat) (vs : List Word16) :
    (s.writeWords sp a vs).lastCount = s.lastCount := rfl
@[simp] theorem State.writeWords_winTimer (sp : WordSpace) (a : Nat) (vs : List Word16) :
    (s.writeWords sp a vs).winTimer = s.winTimer := rfl
@[simp] theorem State.writeWords_crcHi (sp : WordSpace) (a : Nat) (vs : List Word16) :
    (s.writeWords sp a vs).crcHi = s.crcHi := rfl
@[simp] theorem State.writeWords_crcLo (sp : WordSpace) (a : Nat) (vs : List Word16) :
    (s.writeWords sp a vs).crcLo = s.crcLo := rfl
@[simp] theorem State.writeWords_isBroadcast (sp : WordSpace) (a : Nat) (vs : List Word16) :
    (s.writeWords sp a vs).isBroadcast = s.isBroadcast := rfl
@[simp] theorem State.writeWords_rxOverrun (sp : WordSpace) (a : Nat) (vs : List Word16) :
    (s.writeWords sp a vs).rxOverrun = s.rxOverrun := rfl
@[simp] theorem State.writeWords_txPhase (sp : WordSpace) (a : Nat) (vs : List Word16) :
    (s.writeWords sp a vs).txPhase = s.txPhase := rfl
@[simp] theorem State.writeWords_txen (sp : WordSpace) (a : Nat) (vs : List Word16) :
    (s.writeWords sp a vs).txen = s.txen := rfl
@[simp] theorem State.writeWords_rxq (sp : WordSpace) (a : Nat) (vs : List Word16) :
    (s.writeWords sp a vs).rxq = s.rxq := rfl
@[simp] theorem State.writeWords_connPending (sp : WordSpace) (a : Nat) (vs : List Word16) :
    (s.writeWords sp a vs).connPending = s.connPending := rfl
@[simp] theorem State.writeWords_slots (sp : WordSpace) (a : Nat) (vs : List Word16) :
    (s.writeWords sp a vs).slots = s.slots := rfl
@[simp] theorem State.writeWords_dbgOrder (sp : WordSpace) (a : Nat) (vs : List Word16) :
    (s.writeWords sp a vs).dbgOrder = s.dbgOrder := rfl
@[simp] theorem State.writeWords_tick (sp : WordSpace) (a : Nat) (vs : List Word16) :
    (s.writeWords sp a vs).tick = s.tick := rfl
@[simp] theorem State.writeWords_vars (sp : WordSpace) (a : Nat) (vs : List Word16) :
    (s.writeWords sp a vs).vars = s.vars := rfl
@[simp] theorem State.writeWords_trace (sp : WordSpace) (a : Nat) (vs : List Word16) :
    (s.writeWords sp a vs).trace = s.trace := rfl
@[simp] theorem State.writeWords_inputs (sp : WordSpace) (a : Nat) (vs : List Word16) :
    (s.writeWords sp a vs).inputs = s.inputs := rfl
@[simp] theorem State.writeWords_respPdu (sp : WordSpace) (a : Nat) (vs : List Word16) :
    (s.writeWords sp a vs).respPdu = s.respPdu := rfl

/-! ### `runtimeChanges` -/

@[simp] theorem runtimeChanges_build (cs : List RuntimeChange) : (runtimeChanges cs s).build = s.build := rfl
@[simp] theorem runtimeChanges_mem (cs : List RuntimeChange) : (runtimeChanges cs s).mem = s.mem := rfl
@[simp] theorem runtimeChanges_slaveId (cs : List RuntimeChange) : (runtimeChanges cs s).slaveId = s.slaveId := rfl
@[simp] theorem runtimeChanges_baud (cs : List RuntimeChange) : (runtimeChanges cs s).baud = s.baud := rfl
@[simp] theorem runtimeChanges_t15 (cs : List RuntimeChange) : (runtimeChanges cs s).t15 = s.t15 := rfl
@[simp] theorem runtimeChanges_t35 (cs : List RuntimeChange) : (runtimeChanges cs s).t35 = s.t35 := rfl
@[simp] theorem runtimeChanges_txenPresent (cs : List RuntimeChange) : (runtimeChanges cs s).txenPresent = s.txenPresent := rfl
@[simp] theorem runtimeChanges_txenLeadIn (cs : List RuntimeChange) : (runtimeChanges cs s).txenLeadIn = s.txenLeadIn := rfl
@[simp] theorem runtimeChanges_fsm (cs : List RuntimeChange) : (runtimeChanges cs s).fsm = s.fsm := rfl
@[simp] theorem runtimeChanges_frame (cs : List RuntimeChange) : (runtimeChanges cs s).frame = s.frame := rfl
@[simp] theorem runtimeChanges_frameLen (cs : List RuntimeChange) : (runtimeChanges cs s).frameLen = s.frameLen := rfl
@[simp] theorem runtimeChanges_lastCount (cs : List RuntimeChange) : (runtimeChanges cs s).lastCount = s.lastCount := rfl
@[simp] theorem runtimeChanges_winTimer (cs : List RuntimeChange) : (runtimeChanges cs s).winTimer = s.winTimer := rfl
@[simp] theorem runtimeChanges_crcHi (cs : List RuntimeChange) : (runtimeChanges cs s).crcHi = s.crcHi := rfl
@[simp] theorem runtimeChanges_crcLo (cs : List RuntimeChange) : (runtimeChanges cs s).crcLo = s.crcLo := rfl
@[simp] theorem runtimeChanges_isBroadcast (cs : List RuntimeChange) : (runtimeChanges cs s).isBroadcast = s.isBroadcast := rfl
@[simp] theorem runtimeChanges_rxOverrun (cs : List RuntimeChange) : (runtimeChanges cs s).rxOverrun = s.rxOverrun := rfl
@[simp] theorem runtimeChanges_txPhase (cs : List RuntimeChange) : (runtimeChanges cs s).txPhase = s.txPhase := rfl
@[simp] theorem runtimeChanges_txen (cs : List RuntimeChange) : (runtimeChanges cs s).txen = s.txen := rfl
@[simp] theorem runtimeChanges_rxq (cs : List RuntimeChange) : (runtimeChanges cs s).rxq = s.rxq := rfl
@[simp] theorem runtimeChanges_connPending (cs : List RuntimeChange) : (runtimeChanges cs s).connPending = s.connPending := rfl
@[simp] theorem runtimeChanges_slots (cs : List RuntimeChange) : (runtimeChanges cs s).slots = s.slots := rfl
@[simp] theorem runtimeChanges_dbgOrder (cs : List RuntimeChange) : (runtimeChanges cs s).dbgOrder = s.dbgOrder := rfl
@[simp] theorem runtimeChanges_tick (cs : List RuntimeChange) : (runtimeChanges cs s).tick = tickAfter cs s.tick := rfl
@[simp] theorem runtimeChanges_vars (cs : List RuntimeChange) : (runtimeChanges cs s).vars = varsAfter cs s.vars := rfl
@[simp] theorem runtimeChanges_trace (cs : List RuntimeChange) : (runtimeChanges cs s).trace = s.trace := rfl
@[simp] theorem runtimeChanges_inputs (cs : List RuntimeChange) : (runtimeChanges cs s).inputs = s.inputs := rfl
@[simp] theorem runtimeChanges_respPdu (cs : List RuntimeChange) : (runtimeChanges cs s).respPdu = s.respPdu := rfl

end Sys2Proof.Machine
end

