-- ==== Sys2Proof/Laws/Codec.lean ====
section
/-! SUPPORT. Laws of the octet order and of the codec's parts (spec/00_scope.md R14, spec/30_encoding.md). -/

namespace Sys2Proof

/-! ## Octet order -/

@[simp] theorem be16_hi8_lo8 (w : Word16) : be16 (hi8 w) (lo8 w) = w := by
  apply BitVec.eq_of_getLsbD_eq
  intro i hi
  simp only [be16, hi8, lo8, BitVec.getLsbD_append, BitVec.getLsbD_extractLsb']
  by_cases h : i < 8
  · simp [h]
  · have h8 : i - 8 < 8 := by omega
    have : 8 + (i - 8) = i := by omega
    simp [h, h8, this]

@[simp] theorem hi8_be16 (hi lo : Octet) : hi8 (be16 hi lo) = hi := by
  apply BitVec.eq_of_getLsbD_eq
  intro i hi'
  simp only [be16, hi8, BitVec.getLsbD_extractLsb', BitVec.getLsbD_append]
  simp [hi']

@[simp] theorem lo8_be16 (hi lo : Octet) : lo8 (be16 hi lo) = lo := by
  apply BitVec.eq_of_getLsbD_eq
  intro i hi'
  simp only [be16, lo8, BitVec.getLsbD_extractLsb', BitVec.getLsbD_append]
  simp [hi']

/-- R14: `be16(B, i) = B[i] * 256 + B[i+1]`. -/
theorem be16_toNat (hi lo : Octet) : (be16 hi lo).toNat = hi.toNat * 256 + lo.toNat := by
  have h := lo.isLt
  simp only [be16, BitVec.toNat_append]
  rw [← Nat.shiftLeft_add_eq_or_of_lt h, Nat.shiftLeft_eq]

theorem be16_inj {a b c d : Octet} : be16 a b = be16 c d ↔ a = c ∧ b = d := by
  constructor
  · intro h
    exact ⟨by simpa using congrArg hi8 h, by simpa using congrArg lo8 h⟩
  · rintro ⟨rfl, rfl⟩; rfl

/-- R13: `hi8(v) * 256 + lo8(v) = v`. -/
theorem hi8_lo8_toNat (w : Word16) : (hi8 w).toNat * 256 + (lo8 w).toNat = w.toNat := by
  rw [← be16_toNat, be16_hi8_lo8]

@[simp] theorem be16enc_length (w : Word16) : (be16enc w).length = 2 := rfl
@[simp] theorem be32enc_length (w : Word32) : (be32enc w).length = 4 := rfl

/-- The big-endian fields of a run of encoded values are those values, whatever follows in less than two octets. -/
@[simp] theorem be16s_flatMap_be16enc (ws : List Word16) : be16s (ws.flatMap be16enc) = ws := by
  induction ws with
  | nil => rfl
  | cons w ws ih => simp only [List.flatMap_cons, be16enc, List.cons_append, List.nil_append, be16s, ih, be16_hi8_lo8]

theorem be16s_length : ∀ l : List Octet, (be16s l).length = l.length / 2
  | [] => rfl
  | [_] => by simp [be16s]
  | a :: b :: l => by
    simp only [be16s, List.length_cons, be16s_length l]
    omega

/-- Field `i` of `be16s` is `be16(D, 2*i)`. -/
theorem be16s_getD : ∀ (l : List Octet) (i : Nat), 2 * i + 1 < l.length →
    (be16s l).getD i 0#16 = be16 (l.getD (2 * i) 0#8) (l.getD (2 * i + 1) 0#8)
  | a :: b :: l, 0, _ => rfl
  | a :: b :: l, i + 1, h => by
    have := be16s_getD l i (by simp only [List.length_cons] at h; omega)
    simpa [be16s, Nat.mul_add] using this
  | [], i, h => by simp at h
  | [_], i, h => by simp at h

/-! ## The parts of the decoder undo the parts of the encoder -/

theorem decodeRd_encodeRd (o : RdOps) : decodeRd (encodeRd o) = some o := by
  simp [encodeRd, be16enc, decodeRd]

theorem decodeWr1_encodeWr1 (o : Wr1Ops) : decodeWr1 (encodeWr1 o) = some o := by
  simp [encodeWr1, be16enc, decodeWr1]

theorem decodeWrn_encodeWrn (o : WrnOps) (h : o.wf = true) : decodeWrn (encodeWrn o) = some o := by
  have h' : o.data.length ≤ o.byteCount.toNat := by simpa [WrnOps.wf] using h
  simp [encodeWrn, be16enc, decodeWrn, List.take_of_length_le h']

theorem decodeSet_encodeSet (o : SetOps) (h : o.wf = true) : decodeSet (encodeSet o) = some o := by
  have h' : o.value.length ≤ o.length.toNat := by simpa [SetOps.wf] using h
  simp [encodeSet, be16enc, decodeSet, List.take_of_length_le h']

theorem decodeGet_encodeGet (o : GetOps) : decodeGet (encodeGet o) = some o := by
  simp [encodeGet, be16enc, decodeGet]

theorem decodeList_encodeList (o : ListOps) (h : o.wf = true) : decodeList (encodeList o) = some o := by
  have h' : o.idx.length ≤ o.n.toNat := by simpa [ListOps.wf] using h
  simp only [encodeList, decodeList, be16enc, List.cons_append, List.nil_append, be16_hi8_lo8]
  rw [be16s_flatMap_be16enc, List.take_of_length_le h']

theorem decodeMarker_be16enc (m : Word16) : decodeMarker (be16enc m) = some m := by
  simp [be16enc, decodeMarker]

/-- A short form is decoded from the function code alone. -/
theorem decodeParts_nil : decodeRd [] = none ∧ decodeWr1 [] = none ∧ decodeWrn [] = none ∧ decodeSet [] = none ∧
    decodeGet [] = none ∧ decodeList [] = none ∧ decodeMarker [] = none := ⟨rfl, rfl, rfl, rfl, rfl, rfl, rfl⟩

/-! ## What the decoder answers -/

/-- An if-chain is one of its two sides. -/
theorem ite_cases {α : Type} {c : Prop} [Decidable c] {a b x : α} (h : (if c then a else b) = x) :
    c ∧ a = x ∨ ¬c ∧ b = x := by
  by_cases hc : c
  · exact .inl ⟨hc, by simpa [hc] using h⟩
  · exact .inr ⟨hc, by simpa [hc] using h⟩

/-- The function code of a decoded instruction is `P[0]` (R95, R108). -/
theorem functionCode_decodeFunction {fc : Octet} {p : List Octet} {i : Instr}
    (h : decodeFunction fc p = some i) : functionCode i = fc := by
  unfold decodeFunction at h
  iterate 13
    rcases ite_cases h with ⟨hfc, h⟩ | ⟨-, h⟩
    · injection h with h
      subst h
      exact hfc.symm
  cases h

/-- A PDU decodes to `i` exactly when its first octet selects `i` from the rest. -/
theorem decode_ok_iff {p : List Octet} {i : Instr} :
    decode p = .ok i ↔ ∃ fc payload, p = fc :: payload ∧ decodeFunction fc payload = some i := by
  cases p with
  | nil => simp [decode]
  | cons fc payload =>
    simp only [decode]
    split <;> simp_all

/-- Every PDU with a function code decodes or is unknown by name. -/
theorem decode_cons (fc : Octet) (payload : List Octet) :
    (∃ i, decode (fc :: payload) = .ok i ∧ functionCode i = fc) ∨
      decode (fc :: payload) = .error (.unknownFunction fc) := by
  simp only [decode]
  split
  · rename_i i h
    exact .inl ⟨i, rfl, functionCode_decodeFunction h⟩
  · exact .inr rfl

end Sys2Proof
end

