-- ==== Sys2Proof/Laws/Memory.lean ====
section
/-! SUPPORT. Laws of the tables and of the Register Bank: read after write, and that every memory operation keeps the
canonical form and stays within the tables (spec/10_state.md R21 to R26, spec/20_memory.md R60, R77). -/

namespace Sys2Proof.Machine

open Sys2Proof

/-! ## One table -/

section table

variable {α : Type} [DecidableEq α] {d v : α} {t : Table α} {i j n a : Nat}

omit [DecidableEq α] in
theorem Table.read_nil : Table.read d [] i = d := rfl

omit [DecidableEq α] in
/-- A table whose indices all lie above `i` reads as unlisted at `i`. -/
theorem Table.read_of_lt (h : ∀ c ∈ t, i < c.1) : Table.read d t i = d := by
  induction t with
  | nil => rfl
  | cons c t ih =>
    have hc := h c (by simp)
    have hne : ¬c.1 = i := by omega
    simp only [Table.read, hne, if_false]
    exact ih fun e he => h e (by simp [he])

/-- The indices after a write are the old ones and the written one. -/
theorem Table.mem_write (c : Nat × α) (h : c ∈ Table.write d t i v) : c ∈ t ∨ c = (i, v) ∧ v ≠ d := by
  induction t with
  | nil =>
    simp only [Table.write] at h
    split at h <;> simp_all
  | cons e t ih =>
    simp only [Table.write] at h
    split at h
    · split at h <;> simp_all
      tauto
    · split at h
      · split at h <;> simp_all
        tauto
      · rcases List.mem_cons.1 h with h | h
        · simp [h]
        · rcases ih h with h | h <;> simp_all

/-- A write keeps the canonical form. -/
theorem Table.write_wf (h : Table.wf d t) : Table.wf d (Table.write d t i v) := by
  refine ⟨?_, fun c hc => ?_⟩
  · have hp := h.1
    clear h
    induction t with
    | nil =>
      simp only [Table.write]
      split <;> simp
    | cons e t ih =>
      rw [List.pairwise_cons] at hp
      simp only [Table.write]
      split
      · rename_i hlt
        split
        · exact List.pairwise_cons.2 hp
        · refine List.pairwise_cons.2 ⟨fun c hc => ?_, List.pairwise_cons.2 hp⟩
          rcases List.mem_cons.1 hc with rfl | hc
          · exact hlt
          · exact Nat.lt_trans hlt (hp.1 c hc)
      · split
        · rename_i he
          split
          · exact hp.2
          · exact List.pairwise_cons.2 ⟨fun c hc => he ▸ hp.1 c hc, hp.2⟩
        · refine List.pairwise_cons.2 ⟨fun c hc => ?_, ih hp.2⟩
          rcases Table.mem_write c hc with hc | ⟨rfl, -⟩
          · exact hp.1 c hc
          · show e.1 < i
            omega
  · rcases Table.mem_write c hc with hc | ⟨rfl, hv⟩
    · exact h.2 c hc
    · exact hv

/-- A write inside a table stays inside it. -/
theorem Table.write_within (h : Table.within n t) (hi : i < n) : Table.within n (Table.write d t i v) := by
  intro c hc
  rcases Table.mem_write c hc with hc | ⟨rfl, -⟩
  · exact h c hc
  · exact hi

/-- A read of the written element gives the written value. -/
theorem Table.read_write_same (h : Table.wf d t) : Table.read d (Table.write d t i v) i = v := by
  have hp := h.1
  clear h
  induction t with
  | nil =>
    simp only [Table.write]
    split <;> simp_all [Table.read]
  | cons e t ih =>
    rw [List.pairwise_cons] at hp
    simp only [Table.write]
    split
    · rename_i hlt
      split
      · rename_i hv
        rw [hv]
        refine Table.read_of_lt fun c hc => ?_
        rcases List.mem_cons.1 hc with rfl | hc
        · exact hlt
        · exact Nat.lt_trans hlt (hp.1 c hc)
      · simp [Table.read]
    · split
      · rename_i he
        split
        · rename_i hv
          rw [hv]
          exact Table.read_of_lt fun c hc => he ▸ hp.1 c hc
        · simp [Table.read]
      · rename_i hne
        have : ¬e.1 = i := fun h => hne h.symm
        simp only [Table.read, this, if_false]
        exact ih hp.2

/-- A write leaves every other element alone. -/
theorem Table.read_write_other (h : j ≠ i) : Table.read d (Table.write d t i v) j = Table.read d t j := by
  have h' : ¬i = j := fun e => h e.symm
  induction t with
  | nil =>
    simp only [Table.write]
    split <;> simp [Table.read, h']
  | cons e t ih =>
    simp only [Table.write]
    split
    · split
      · rfl
      · simp [Table.read, h']
    · split
      · rename_i he
        have hej : ¬e.1 = j := he ▸ h'
        split <;> simp [Table.read, hej, h']
      · simp only [Table.read, ih]

/-! ## A run of elements -/

theorem Table.writeRun_wf (vs : List α) (h : Table.wf d t) : Table.wf d (Table.writeRun d t a vs) := by
  induction vs generalizing t a with
  | nil => exact h
  | cons v vs ih => exact ih (Table.write_wf h)

theorem Table.writeRun_within (vs : List α) (h : Table.within n t) (ha : a + vs.length ≤ n) :
    Table.within n (Table.writeRun d t a vs) := by
  induction vs generalizing t a with
  | nil => exact h
  | cons v vs ih =>
    simp only [List.length_cons] at ha
    exact ih (Table.write_within h (by omega)) (by omega)

/-- Elements outside the run keep their value. -/
theorem Table.read_writeRun_outside (vs : List α) (h : j < a ∨ a + vs.length ≤ j) :
    Table.read d (Table.writeRun d t a vs) j = Table.read d t j := by
  induction vs generalizing t a with
  | nil => rfl
  | cons v vs ih =>
    simp only [List.length_cons] at h
    simp only [Table.writeRun]
    rw [ih (by omega), Table.read_write_other (by omega)]

/-- Element `a + k` of the run is the `k`-th value. -/
theorem Table.read_writeRun_inside (vs : List α) (h : Table.wf d t) {k : Nat} (hk : k < vs.length) (e : α) :
    Table.read d (Table.writeRun d t a vs) (a + k) = vs.getD k e := by
  induction vs generalizing t a k with
  | nil => simp at hk
  | cons v vs ih =>
    simp only [Table.writeRun]
    cases k with
    | zero =>
      rw [Table.read_writeRun_outside _ (by omega)]
      simpa using Table.read_write_same h
    | succ k =>
      have := ih (t := Table.write d t a v) (a := a + 1) (k := k) (Table.write_wf h) (by simpa using hk)
      rw [show a + (k + 1) = a + 1 + k by omega, this]
      simp

/-- Writing the value a canonical table already holds changes nothing. -/
theorem Table.write_read_self (h : Table.wf d t) (hr : Table.read d t i = v) : Table.write d t i v = t := by
  obtain ⟨hp, hd⟩ := h
  induction t with
  | nil =>
    have : v = d := by simpa [Table.read] using hr.symm
    simp [Table.write, this]
  | cons e t ih =>
    rw [List.pairwise_cons] at hp
    simp only [Table.write]
    split
    · rename_i hlt
      have : Table.read d (e :: t) i = d := Table.read_of_lt fun c hc => by
        rcases List.mem_cons.1 hc with rfl | hc
        · exact hlt
        · exact Nat.lt_trans hlt (hp.1 c hc)
      simp [← hr, this]
    · split
      · rename_i he
        have hv : e.2 = v := by simpa [Table.read, he] using hr
        have hvd : v ≠ d := hv ▸ hd e (by simp)
        rw [if_neg hvd, he, ← hv]
      · rename_i hne
        have hei : ¬e.1 = i := fun h => hne h.symm
        simp only [Table.read, hei, if_false] at hr
        rw [ih hr hp.2 fun c hc => hd c (by simp [hc])]

/-- A write to an element after a write to the same element is the later one. -/
theorem Table.write_idem (h : Table.wf d t) : Table.write d (Table.write d t i v) i v = Table.write d t i v :=
  Table.write_read_self (Table.write_wf h) (Table.read_write_same h)

omit [DecidableEq α] in
/-- An element outside its table reads as unlisted. -/
theorem Table.read_beyond (h : Table.within n t) (hi : n ≤ i) : Table.read d t i = d := by
  induction t with
  | nil => rfl
  | cons e t ih =>
    have := h e (by simp)
    have hne : ¬e.1 = i := by omega
    simp only [Table.read, hne, if_false]
    exact ih fun c hc => h c (by simp [hc])

end table

/-! ## The bank -/

section bank

variable {m : Memory} {b : Build}

theorem Memory.bits_wf (h : m.wf) (sp : BitSpace) : Table.wf bitDefault (m.bits sp) := by
  cases sp
  · exact h.1
  · exact h.2.1

theorem Memory.words_wf (h : m.wf) (sp : WordSpace) : Table.wf wordDefault (m.words sp) := by
  cases sp
  · exact h.2.2.1
  · exact h.2.2.2

theorem Memory.bits_within (h : m.within b) (sp : BitSpace) : Table.within (bitSize b sp) (m.bits sp) := by
  cases sp
  · exact h.1
  · exact h.2.1

theorem Memory.words_within (h : m.within b) (sp : WordSpace) : Table.within (wordSize b sp) (m.words sp) := by
  cases sp
  · exact h.2.2.1
  · exact h.2.2.2

theorem Memory.setBits_wf {sp : BitSpace} {t : Table Bool} (h : m.wf) (ht : Table.wf bitDefault t) :
    (m.setBits sp t).wf := by
  cases sp
  · exact ⟨ht, h.2⟩
  · exact ⟨h.1, ht, h.2.2⟩

theorem Memory.setWords_wf {sp : WordSpace} {t : Table Word16} (h : m.wf) (ht : Table.wf wordDefault t) :
    (m.setWords sp t).wf := by
  cases sp
  · exact ⟨h.1, h.2.1, ht, h.2.2.2⟩
  · exact ⟨h.1, h.2.1, h.2.2.1, ht⟩

theorem Memory.setBits_within {sp : BitSpace} {t : Table Bool} (h : m.within b) (ht : Table.within (bitSize b sp) t) :
    (m.setBits sp t).within b := by
  cases sp
  · exact ⟨ht, h.2⟩
  · exact ⟨h.1, ht, h.2.2⟩

theorem Memory.setWords_within {sp : WordSpace} {t : Table Word16} (h : m.within b)
    (ht : Table.within (wordSize b sp) t) : (m.setWords sp t).within b := by
  cases sp
  · exact ⟨h.1, h.2.1, ht, h.2.2.2⟩
  · exact ⟨h.1, h.2.1, h.2.2.1, ht⟩

@[simp] theorem Memory.bits_setBits (sp : BitSpace) (t : Table Bool) : (m.setBits sp t).bits sp = t := by
  cases sp <;> rfl

@[simp] theorem Memory.words_setWords (sp : WordSpace) (t : Table Word16) : (m.setWords sp t).words sp = t := by
  cases sp <;> rfl

@[simp] theorem Memory.words_setBits (sp : BitSpace) (t : Table Bool) (sp' : WordSpace) :
    (m.setBits sp t).words sp' = m.words sp' := by
  cases sp <;> rfl

@[simp] theorem Memory.bits_setWords (sp : WordSpace) (t : Table Word16) (sp' : BitSpace) :
    (m.setWords sp t).bits sp' = m.bits sp' := by
  cases sp <;> rfl

theorem Memory.bits_setBits_other {sp sp' : BitSpace} (t : Table Bool) (h : sp' ≠ sp) :
    (m.setBits sp t).bits sp' = m.bits sp' := by
  cases sp <;> cases sp' <;> first | rfl | exact absurd rfl h

theorem Memory.words_setWords_other {sp sp' : WordSpace} (t : Table Word16) (h : sp' ≠ sp) :
    (m.setWords sp t).words sp' = m.words sp' := by
  cases sp <;> cases sp' <;> first | rfl | exact absurd rfl h

/-! ## `MemWrite` -/

variable {s : State}

theorem State.writeBits_wf {sp : BitSpace} {a : Nat} (vs : List Bool) (h : s.mem.wf) :
    (s.writeBits sp a vs).mem.wf :=
  Memory.setBits_wf h (Table.writeRun_wf vs (Memory.bits_wf h sp))

theorem State.writeWords_wf {sp : WordSpace} {a : Nat} (vs : List Word16) (h : s.mem.wf) :
    (s.writeWords sp a vs).mem.wf :=
  Memory.setWords_wf h (Table.writeRun_wf vs (Memory.words_wf h sp))

theorem State.writeBits_within {sp : BitSpace} {a : Nat} (vs : List Bool) (h : s.mem.within b)
    (ha : a + vs.length ≤ bitSize b sp) : (s.writeBits sp a vs).mem.within b :=
  Memory.setBits_within h (Table.writeRun_within vs (Memory.bits_within h sp) ha)

theorem State.writeWords_within {sp : WordSpace} {a : Nat} (vs : List Word16) (h : s.mem.within b)
    (ha : a + vs.length ≤ wordSize b sp) : (s.writeWords sp a vs).mem.within b :=
  Memory.setWords_within h (Table.writeRun_within vs (Memory.words_within h sp) ha)

/-- Element `a + k` of the written run is the `k`-th bit. -/
theorem State.writeBits_inside {sp : BitSpace} {a : Nat} (vs : List Bool) (h : s.mem.wf) {k : Nat}
    (hk : k < vs.length) : (s.writeBits sp a vs).mem.bit sp (a + k) = vs.getD k false := by
  simp only [State.writeBits, Memory.bit, Memory.bits_setBits]
  exact Table.read_writeRun_inside vs (Memory.bits_wf h sp) hk false

theorem State.writeWords_inside {sp : WordSpace} {a : Nat} (vs : List Word16) (h : s.mem.wf) {k : Nat}
    (hk : k < vs.length) : (s.writeWords sp a vs).mem.word sp (a + k) = vs.getD k 0#16 := by
  simp only [State.writeWords, Memory.word, Memory.words_setWords]
  exact Table.read_writeRun_inside vs (Memory.words_wf h sp) hk 0#16

theorem State.writeBits_outside {sp : BitSpace} {a j : Nat} (vs : List Bool) (h : j < a ∨ a + vs.length ≤ j) :
    (s.writeBits sp a vs).mem.bit sp j = s.mem.bit sp j := by
  simp only [State.writeBits, Memory.bit, Memory.bits_setBits]
  exact Table.read_writeRun_outside vs h

theorem State.writeWords_outside {sp : WordSpace} {a j : Nat} (vs : List Word16) (h : j < a ∨ a + vs.length ≤ j) :
    (s.writeWords sp a vs).mem.word sp j = s.mem.word sp j := by
  simp only [State.writeWords, Memory.word, Memory.words_setWords]
  exact Table.read_writeRun_outside vs h

/-! ## The application's writes (R76) -/

theorem applyWrite_wf (w : BankWrite) (h : m.wf) : (applyWrite b m w).wf := by
  cases w with
  | bit sp i v =>
    simp only [applyWrite]
    split
    · exact Memory.setBits_wf h (Table.write_wf (Memory.bits_wf h sp))
    · exact h
  | word sp i v =>
    simp only [applyWrite]
    split
    · exact Memory.setWords_wf h (Table.write_wf (Memory.words_wf h sp))
    · exact h

theorem applyWrite_within (w : BankWrite) (h : m.within b) : (applyWrite b m w).within b := by
  cases w with
  | bit sp i v =>
    simp only [applyWrite]
    split
    · exact Memory.setBits_within h (Table.write_within (Memory.bits_within h sp) ‹_›)
    · exact h
  | word sp i v =>
    simp only [applyWrite]
    split
    · exact Memory.setWords_within h (Table.write_within (Memory.words_within h sp) ‹_›)
    · exact h

theorem applyWrites_wf (ws : List BankWrite) (h : m.wf) : (applyWrites b m ws).wf := by
  induction ws generalizing m with
  | nil => exact h
  | cons w ws ih => exact ih (applyWrite_wf w h)

theorem applyWrites_within (ws : List BankWrite) (h : m.within b) : (applyWrites b m ws).within b := by
  induction ws generalizing m with
  | nil => exact h
  | cons w ws ih => exact ih (applyWrite_within w h)

/-- The empty bank is canonical and within any build. -/
theorem emptyBank_wf : (⟨[], [], [], []⟩ : Memory).wf := by decide

theorem emptyBank_within : (⟨[], [], [], []⟩ : Memory).within b := by
  simp [Memory.within, Table.within]

/-- The memory of the reset state has the canonical form. -/
theorem reset_mem_wf : State.reset.mem.wf := by decide

end bank

end Sys2Proof.Machine
end

