-- ==== Sys2Proof/Laws/Ops.lean ====
section
/-! SUPPORT. What each shared operation and each handler family can do, said once (spec/43_pdu_mux.md R224 to R229;
spec/44_register_functions.md; spec/45_bit_functions.md; spec/46_debug_functions.md). -/

namespace Sys2Proof.Machine

open Sys2Proof

/-! ## Sequencing -/

@[simp] theorem andThen_next (s : State) (k : State → Result) : andThen (.next s) k = k s := rfl
@[simp] theorem andThen_fault (e : Fault) (k : State → Result) : andThen (.fault e) k = .fault e := rfl
@[simp] theorem andThen_refused (e : Refusal) (k : State → Result) : andThen (.refused e) k = .refused e := rfl

/-- A sequence goes on exactly when both its parts do. -/
theorem andThen_eq_next {r : Result} {k : State → Result} {t : State} :
    andThen r k = .next t ↔ ∃ s, r = .next s ∧ k s = .next t := by
  cases r <;> simp [andThen]

/-! ## Buffers -/

theorem overwrite_length {buf bs : List Octet} {off : Nat} (h : off + bs.length ≤ buf.length) :
    (overwrite buf off bs).length = buf.length := by
  simp only [overwrite, List.length_append, List.length_take, List.length_drop]
  omega

@[simp] theorem fitTo_length (n : Nat) (bs : List Octet) : (fitTo n bs).length = n := by
  simp [fitTo]

/-- What is written at the start of a buffer is read back. -/
theorem take_overwrite_zero (buf bs : List Octet) : (overwrite buf 0 bs).take bs.length = bs := by
  simp [overwrite]

/-- Writing behind the first octet keeps it, and both are read back. -/
theorem take_overwrite_one {buf bs : List Octet} {a : Octet} {rest : List Octet} (h : buf = a :: rest) :
    (overwrite buf 1 bs).take (1 + bs.length) = a :: bs := by
  subst h
  simp [overwrite, Nat.add_comm 1]

/-! ## Packed bits (R270, R271) -/

@[simp] theorem pack_length (bits : List Bool) : (pack bits).length = ceil8 bits.length := by
  simp [pack]

/-- R270: bit `m` of octet `j` is element `8 * j + m`, or 0 beyond the last. -/
theorem pack_getLsbD (bits : List Bool) {j m : Nat} (hj : j < ceil8 bits.length) (hm : m < 8) :
    ((pack bits).getD j 0#8).getLsbD m = bits.getD (8 * j + m) false := by
  simp only [pack, List.getD_eq_getElem?_getD, List.getElem?_map, List.getElem?_range hj, Option.map_some,
    Option.getD_some, packOctet, BitVec.getLsbD_ofFnLE, hm, dite_true, List.getElem?_drop]

@[simp] theorem unpack_length (d : List Octet) (k : Nat) : (unpack d k).length = k := by
  simp [unpack]

/-- R271: element `i` is bit `i % 8` of octet `i / 8`. -/
theorem unpack_getD (d : List Octet) {k i : Nat} (hi : i < k) :
    (unpack d k).getD i false = (d.getD (i / 8) 0#8).getLsbD (i % 8) := by
  simp [unpack, List.getD_eq_getElem?_getD, List.getElem?_range hi]

/-! ## Register octets (R63) -/

@[simp] theorem wordOctets_length (ws : List Word16) : (wordOctets ws).length = 2 * ws.length := by
  induction ws with
  | nil => rfl
  | cons w ws ih =>
    have : wordOctets (w :: ws) = be16enc w ++ wordOctets ws := rfl
    rw [this, List.length_append, ih]
    simp only [be16enc_length, List.length_cons]
    omega

/-- Register `j` stands in octets `2 * j` and `2 * j + 1`, high octet first. -/
theorem wordOctets_getD (ws : List Word16) {j : Nat} (hj : j < ws.length) :
    (wordOctets ws).getD (2 * j) 0#8 = hi8 (ws.getD j 0#16) ∧
      (wordOctets ws).getD (2 * j + 1) 0#8 = lo8 (ws.getD j 0#16) := by
  induction ws generalizing j with
  | nil => simp at hj
  | cons w ws ih =>
    have e : wordOctets (w :: ws) = hi8 w :: lo8 w :: wordOctets ws := rfl
    cases j with
    | zero => simp [e]
    | succ j =>
      have := ih (j := j) (by simpa using hj)
      simpa [e, Nat.mul_add] using this

/-! ## Reading and writing the bank (R15) -/

section bank

variable {s t : State} {a n : Nat}

theorem memReadBits_eq {sp : BitSpace} {k : List Bool → Result} (h : a + n ≤ bitSize s.build sp) :
    memReadBits sp a n s k = k ((List.range' a n).map (s.mem.bit sp)) := if_pos h

theorem memReadWords_eq {sp : WordSpace} {k : List Word16 → Result} (h : a + n ≤ wordSize s.build sp) :
    memReadWords sp a n s k = k ((List.range' a n).map (s.mem.word sp)) := if_pos h

theorem memWriteBits_eq {sp : BitSpace} {vs : List Bool} {k : State → Result}
    (h : a + vs.length ≤ bitSize s.build sp) : memWriteBits sp a vs s k = k (s.writeBits sp a vs) := if_pos h

theorem memWriteWords_eq {sp : WordSpace} {vs : List Word16} {k : State → Result}
    (h : a + vs.length ≤ wordSize s.build sp) : memWriteWords sp a vs s k = k (s.writeWords sp a vs) := if_pos h

theorem capacityGuard_eq {fc : Octet} {k : Result} (h : n ≤ s.build.maxFrame) : capacityGuard fc n s k = k :=
  if_neg (by omega)

theorem capacityGuard_raise {fc : Octet} {k : Result} (h : s.build.maxFrame < n) :
    capacityGuard fc n s k = raiseExc fc .slaveFailure s := if_pos h

end bank

/-! ## Answering and raising -/

@[simp] theorem answer_eq (q : List Octet) (s : State) : answer q s = .next (s.reply q) := rfl

theorem raiseExc_eq (fc : Octet) (code : ExcCode) (s : State) :
    raiseExc fc code s = .next (s.reply (excBuild fc code)) := rfl

@[simp] theorem excBuild_length (fc : Octet) (code : ExcCode) : (excBuild fc code).length = 2 := rfl

/-! ## The read handlers -/

/-- What a read handler can answer: an exception of its own function code, or a response within `MAX_FRAME` that begins
with the function code; the state changes in `respPdu` alone (R73). -/
theorem readBits_cases (fc : Octet) (sp : BitSpace) (o : Option RdOps) (s : State) :
    (∃ code, readBits fc sp o s = .next (s.reply (excBuild fc code))) ∨
      ∃ q, readBits fc sp o s = .next (s.reply (fc :: q)) ∧ 1 ≤ q.length ∧ 1 + q.length ≤ s.build.maxFrame := by
  rcases o with _ | ⟨start, count⟩
  · exact .inl ⟨_, rfl⟩
  · simp only [readBits]
    split
    · exact .inl ⟨_, rfl⟩
    split
    · exact .inl ⟨_, rfl⟩
    rcases Nat.lt_or_ge s.build.maxFrame (2 + ceil8 count.toNat) with hc | hc
    · rw [capacityGuard_raise hc]
      exact .inl ⟨_, rfl⟩
    · rw [capacityGuard_eq hc, memReadBits_eq (by omega)]
      refine .inr ⟨_, rfl, by simp, ?_⟩
      simp
      omega

theorem readWords_cases (fc : Octet) (sp : WordSpace) (o : Option RdOps) (s : State) :
    (∃ code, readWords fc sp o s = .next (s.reply (excBuild fc code))) ∨
      ∃ q, readWords fc sp o s = .next (s.reply (fc :: q)) ∧ 1 ≤ q.length ∧ 1 + q.length ≤ s.build.maxFrame := by
  rcases o with _ | ⟨start, count⟩
  · exact .inl ⟨_, rfl⟩
  · simp only [readWords]
    split
    · exact .inl ⟨_, rfl⟩
    split
    · exact .inl ⟨_, rfl⟩
    rcases Nat.lt_or_ge s.build.maxFrame (2 + 2 * count.toNat) with hc | hc
    · rw [capacityGuard_raise hc]
      exact .inl ⟨_, rfl⟩
    · rw [capacityGuard_eq hc, memReadWords_eq (by omega)]
      refine .inr ⟨_, rfl, by simp, ?_⟩
      simp
      omega

/-! ## The write handlers -/

/-- What a write handler of the coils can answer: an exception with nothing written, or one run of coils written inside
the table and a five-octet echo (R72, R225). -/
def WritesBits (fc : Octet) (s : State) (r : Result) : Prop :=
  (∃ code, r = .next (s.reply (excBuild fc code))) ∨
    ∃ a vs q, a + vs.length ≤ s.build.nCoils ∧ r = .next ((s.writeBits .coil a vs).reply (fc :: q)) ∧ q.length = 4

/-- The same for the holding registers. -/
def WritesWords (fc : Octet) (s : State) (r : Result) : Prop :=
  (∃ code, r = .next (s.reply (excBuild fc code))) ∨
    ∃ a vs q, a + vs.length ≤ s.build.nHold ∧ r = .next ((s.writeWords .hold a vs).reply (fc :: q)) ∧ q.length = 4

theorem execWrcoil_cases (o : Option Wr1Ops) (s : State) : WritesBits 0x05#8 s (execWrcoil o s) := by
  rcases o with _ | ⟨coil, status⟩
  · exact .inl ⟨_, rfl⟩
  · simp only [execWrcoil]
    split
    · exact .inl ⟨_, rfl⟩
    split
    · exact .inl ⟨_, rfl⟩
    have h : coil.toNat + [coilStatusOn status].length ≤ bitSize s.build .coil := by
      simp only [List.length_singleton, bitSize]
      omega
    rw [memWriteBits_eq h]
    exact .inr ⟨_, _, _, h, rfl, rfl⟩

theorem execWrcoils_cases (o : Option WrnOps) (s : State) : WritesBits 0x0F#8 s (execWrcoils o s) := by
  rcases o with _ | ⟨start, count, bc, data⟩
  · exact .inl ⟨_, rfl⟩
  · simp only [execWrcoils]
    split
    · exact .inl ⟨_, rfl⟩
    split
    · exact .inl ⟨_, rfl⟩
    split
    · exact .inl ⟨_, rfl⟩
    split
    · exact .inl ⟨_, rfl⟩
    have h : start.toNat + (unpack data count.toNat).length ≤ bitSize s.build .coil := by
      simp only [unpack_length, bitSize]
      omega
    rw [memWriteBits_eq h]
    exact .inr ⟨_, _, _, h, rfl, rfl⟩

theorem execWrreg_cases (o : Option Wr1Ops) (s : State) : WritesWords 0x06#8 s (execWrreg o s) := by
  rcases o with _ | ⟨register, value⟩
  · exact .inl ⟨_, rfl⟩
  · simp only [execWrreg]
    split
    · exact .inl ⟨_, rfl⟩
    have h : register.toNat + [value].length ≤ wordSize s.build .hold := by
      simp only [List.length_singleton, wordSize]
      omega
    rw [memWriteWords_eq h]
    exact .inr ⟨_, _, _, h, rfl, rfl⟩

theorem execWrregs_cases (o : Option WrnOps) (s : State) : WritesWords 0x10#8 s (execWrregs o s) := by
  rcases o with _ | ⟨start, count, bc, data⟩
  · exact .inl ⟨_, rfl⟩
  · simp only [execWrregs]
    split
    · exact .inl ⟨_, rfl⟩
    split
    · exact .inl ⟨_, rfl⟩
    split
    · exact .inl ⟨_, rfl⟩
    split
    · exact .inl ⟨_, rfl⟩
    have h : start.toNat + ((be16s data).take count.toNat).length ≤ wordSize s.build .hold := by
      simp only [List.length_take, wordSize]
      omega
    rw [memWriteWords_eq h]
    exact .inr ⟨_, _, _, h, rfl, rfl⟩

/-! ## The debug handlers -/

/-- The copy loop takes a prefix of the listed variables, in order, that fits, and stops only at one that does not
(R299, R300, R303). -/
theorem copyLoop_spec (s : State) (last : Word16) (data : List Octet) (is : List Word16)
    (h : 10 + data.length ≤ s.build.maxFrame) :
    ∃ k, k ≤ is.length ∧
      (copyLoop s last data is).2 = data ++ (is.take k).flatMap (varBytes s) ∧
      (copyLoop s last data is).1 = ((is.take k).getLast?).getD last ∧
      10 + (data ++ (is.take k).flatMap (varBytes s)).length ≤ s.build.maxFrame ∧
      (∀ i, is[k]? = some i →
        s.build.maxFrame < 10 + (data ++ (is.take k).flatMap (varBytes s)).length + (varBytes s i).length) := by
  induction is generalizing last data with
  | nil => exact ⟨0, by simp, by simp [copyLoop], by simp [copyLoop], by simpa using h, by simp⟩
  | cons i is ih =>
    by_cases hc : s.build.maxFrame < 10 + data.length + (varBytes s i).length
    · refine ⟨0, by simp, by simp [copyLoop, hc], by simp [copyLoop, hc], by simpa using h, ?_⟩
      intro j hj
      have : i = j := by simpa using hj
      subst this
      simpa using hc
    · obtain ⟨k, h1, h2, h3, h4, h5⟩ := ih i (data ++ varBytes s i) (by simp only [List.length_append]; omega)
      have e : copyLoop s last data (i :: is) = copyLoop s i (data ++ varBytes s i) is := by
        simp [copyLoop, hc]
      refine ⟨k + 1, by simpa using h1, ?_, ?_, ?_, ?_⟩
      · rw [e, h2]; simp
      · rw [e, h3]
        simp only [List.take_succ_cons, List.getLast?_cons]
        cases (is.take k).getLast? <;> rfl
      · simpa using h4
      · intro j hj
        have := h5 j (by simpa using hj)
        simpa using this

/-- The success response of 0x43 and 0x44 stays within `MAX_FRAME` (R300, R304). -/
theorem copyVariables_cases (fc : Octet) (first : Word16) (is : List Word16) (s : State)
    (h : 10 ≤ s.build.maxFrame) :
    ∃ q, copyVariables fc first is s = .next (s.reply (fc :: resSuccess :: q)) ∧ 8 ≤ q.length ∧
      2 + q.length ≤ s.build.maxFrame := by
  obtain ⟨k, -, h2, -, h4, -⟩ := copyLoop_spec s first [] is (by simpa using h)
  rw [← h2] at h4
  refine ⟨be16enc (copyLoop s first [] is).1 ++ be32enc s.tick ++
    be16enc (BitVec.ofNat 16 (copyLoop s first [] is).2.length) ++ (copyLoop s first [] is).2, rfl, ?_, ?_⟩
  · simp only [List.length_append, be16enc_length, be32enc_length]
    omega
  · simp only [List.length_append, be16enc_length, be32enc_length]
    omega

/-- What 0x42 can answer: a result octet, with at most one `SetTrace` event (R295, R297). -/
theorem execDbgset_cases (o : Option SetOps) (s : State) :
    execDbgset o s = .next (s.reply [0x42#8, resOutOfRange]) ∨
      ∃ index f value, execDbgset o s = .next ((s.emit (.setTrace index f value)).reply [0x42#8, resSuccess]) := by
  rcases o with _ | ⟨index, force, length, value⟩
  · exact .inl rfl
  · simp only [execDbgset]
    split
    · exact .inl rfl
    split
    · exact .inl rfl
    exact .inr ⟨_, _, _, rfl⟩

theorem execDbgget_cases (o : Option GetOps) (s : State) :
    execDbgget o s = .next (s.reply [0x43#8, resOutOfRange]) ∨
      ∃ first is, execDbgget o s = copyVariables 0x43#8 first is s := by
  rcases o with _ | ⟨first, last⟩
  · exact .inl rfl
  · simp only [execDbgget]
    split
    · exact .inl rfl
    exact .inr ⟨_, _, rfl⟩

theorem execDbglist_cases (o : Option ListOps) (s : State) :
    execDbglist o s = .next (s.reply [0x44#8, resOutOfRange]) ∨
      ∃ first is, execDbglist o s = copyVariables 0x44#8 first is s := by
  rcases o with _ | ⟨n, idx⟩
  · exact .inl rfl
  · simp only [execDbglist]
    split
    · exact .inl rfl
    split
    · exact .inl rfl
    exact .inr ⟨_, _, rfl⟩

/-- What 0x45 can answer: a result octet and the hash; at most `dbg_order` changes (R305). -/
theorem execDbgmd5_cases (m : Option Word16) (s : State) :
    ∃ r o, execDbgmd5 m s = .next ({ s with dbgOrder := o }.reply ([0x45#8, r] ++ s.build.hash)) := by
  simp only [execDbgmd5]
  split
  · exact ⟨_, _, rfl⟩
  split
  · exact ⟨_, _, rfl⟩
  exact ⟨_, s.dbgOrder, rfl⟩

end Sys2Proof.Machine
end

