-- ==== Sys2Proof/Laws/Crc.lean ====
section
/-! SUPPORT. Laws of the CRC unit (spec/40_crc16.md R131 to R137). -/

namespace Sys2Proof.Machine

open Sys2Proof

@[simp] theorem tabHi_length : tabHi.length = 256 := by decide +kernel
@[simp] theorem tabLo_length : tabLo.length = 256 := by decide +kernel

/-- A run over a sequence is a run over its first part, then over the rest (R134). -/
theorem crcRun_append (xs ys : List Octet) : crcRun (xs ++ ys) = ys.foldl crcStep (crcRun xs) := by
  simp [crcRun]

/-- The two octets of `V` are the accumulator halves (R134). -/
@[simp] theorem hi8_crc16 (seed : Octet) (payload : List Octet) :
    hi8 (crc16 seed payload) = (crcRun (seed :: payload)).1 := by
  simp [crc16]

@[simp] theorem lo8_crc16 (seed : Octet) (payload : List Octet) :
    lo8 (crc16 seed payload) = (crcRun (seed :: payload)).2 := by
  simp [crc16]

theorem crcAppend_eq (addr : Octet) (q : List Octet) :
    crcAppend addr q = (addr :: q) ++ [(crcRun (addr :: q)).1, (crcRun (addr :: q)).2] := by
  simp [crcAppend, be16enc]

@[simp] theorem crcAppend_length (addr : Octet) (q : List Octet) : (crcAppend addr q).length = q.length + 3 := by
  simp [crcAppend_eq]

/-- A frame is its data octets and its two CRC octets. -/
theorem frame_split (f : List Octet) (h : 4 ≤ f.length) :
    ∃ a p x y, f = (a :: p) ++ [x, y] ∧ 1 ≤ p.length := by
  obtain ⟨g, y, rfl⟩ : ∃ g y, f = g ++ [y] :=
    ⟨f.dropLast, f.getLast (by intro e; simp [e] at h), (List.dropLast_append_getLast _).symm⟩
  simp only [List.length_append, List.length_singleton] at h
  obtain ⟨k, x, rfl⟩ : ∃ k x, g = k ++ [x] :=
    ⟨g.dropLast, g.getLast (by intro e; simp [e] at h), (List.dropLast_append_getLast _).symm⟩
  simp only [List.length_append, List.length_singleton] at h
  cases k with
  | nil => simp at h
  | cons a p => exact ⟨a, p, x, y, by simp, by simp only [List.length_cons] at h; omega⟩

/-- The check of a frame written as data and two CRC octets (R136). -/
theorem crcCheck_append (a : Octet) (p : List Octet) (x y : Octet) :
    crcCheck ((a :: p) ++ [x, y]) = true ↔ crcRun (a :: p) = (x, y) := by
  have hl : ((a :: p) ++ [x, y]).length - 2 = p.length + 1 := by simp
  have hl' : ((a :: p) ++ [x, y]).length - 1 = p.length + 2 := by simp
  have h0 : ((a :: p) ++ [x, y]).getD 0 0#8 = a := rfl
  have ht : (((a :: p) ++ [x, y]).take (p.length + 1)).drop 1 = p := by simp
  have hx : ((a :: p) ++ [x, y]).getD (p.length + 1) 0#8 = x := by
    simp [List.getD_eq_getElem?_getD]
  have hy : ((a :: p) ++ [x, y]).getD (p.length + 2) 0#8 = y := by
    simp [List.getD_eq_getElem?_getD]
  rw [crcCheck, hl, hl', h0, ht, hx, hy, beq_iff_eq, crc16, be16_inj, Prod.ext_iff]

/-- A generated frame passes the check (R136, R137). -/
theorem crcCheck_crcAppend (addr : Octet) (q : List Octet) : crcCheck (crcAppend addr q) = true := by
  rw [crcAppend_eq, crcCheck_append]

/-- `TAB_LO` takes no value twice, in the form the residue needs: only entry 0 is 0, and `TAB_HI` is 0 there (R136). -/
theorem tabLo_eq_zero : ∀ i : Fin 256, tabLo.getD i 0#8 = 0#8 → i = 0 := by decide +kernel

end Sys2Proof.Machine
end

