-- ==== Sys2Proof/Laws/Framer.lean ====
section
/-! SUPPORT. What the dispatcher and the operations of the two framers can do, said once each (spec/43_pdu_mux.md R220,
R221, R229; spec/41_serial_framer.md; spec/42_tcp_framer.md). -/

namespace Sys2Proof.Machine

open Sys2Proof

/-! ## The handlers and the dispatcher -/

/-- What a handler can do to the state it runs in: a response of 2 to `MAX_FRAME` octets, Register Bank elements of the
writable tables, the debug bit, and `SetTrace` events. -/
def Handled (s t : State) : Prop :=
  ∃ m o out q, t = { s with mem := m, dbgOrder := o, trace := s.trace ++ out, respPdu := q } ∧
    2 ≤ q.length ∧ q.length ≤ s.build.maxFrame ∧
    (s.mem.wf → m.wf) ∧ (s.mem.within s.build → m.within s.build) ∧
    m.discreteInputs = s.mem.discreteInputs ∧ m.inputRegisters = s.mem.inputRegisters ∧
    ∀ x ∈ out, x.isTxByte = false ∧ x.isTxEn = false ∧ x.slot = none

theorem handled_reply {s : State} {q : List Octet} (h2 : 2 ≤ q.length) (hm : q.length ≤ s.build.maxFrame) :
    Handled s (s.reply q) :=
  ⟨s.mem, s.dbgOrder, [], q, by simp [State.reply], h2, hm, id, id, rfl, rfl, by simp⟩

theorem handled_readBits {fc : Octet} {sp : BitSpace} (o : Option RdOps) {s : State} (h : s.build.Legal) :
    ∃ t, readBits fc sp o s = .next t ∧ Handled s t := by
  have h16 := h.1
  obtain ⟨code, e⟩ | ⟨q, e, h1, h2⟩ := readBits_cases fc sp o s
  · exact ⟨_, e, handled_reply (by simp) (by simp; omega)⟩
  · exact ⟨_, e, handled_reply (by simp; omega) (by simp; omega)⟩

theorem handled_readWords {fc : Octet} {sp : WordSpace} (o : Option RdOps) {s : State} (h : s.build.Legal) :
    ∃ t, readWords fc sp o s = .next t ∧ Handled s t := by
  have h16 := h.1
  obtain ⟨code, e⟩ | ⟨q, e, h1, h2⟩ := readWords_cases fc sp o s
  · exact ⟨_, e, handled_reply (by simp) (by simp; omega)⟩
  · exact ⟨_, e, handled_reply (by simp; omega) (by simp; omega)⟩

theorem handled_writesBits {fc : Octet} {s : State} {r : Result} (h : s.build.Legal) (hw : WritesBits fc s r) :
    ∃ t, r = .next t ∧ Handled s t := by
  have h16 := h.1
  obtain ⟨code, e⟩ | ⟨a, vs, q, hb, e, hq⟩ := hw
  · exact ⟨_, e, handled_reply (by simp) (by simp; omega)⟩
  · refine ⟨_, e, (s.writeBits .coil a vs).mem, s.dbgOrder, [], fc :: q, ?_, by simp; omega, by simp; omega,
      State.writeBits_wf vs, fun hi => State.writeBits_within vs hi hb, rfl, rfl, by simp⟩
    simp [State.reply, State.writeBits]

theorem handled_writesWords {fc : Octet} {s : State} {r : Result} (h : s.build.Legal) (hw : WritesWords fc s r) :
    ∃ t, r = .next t ∧ Handled s t := by
  have h16 := h.1
  obtain ⟨code, e⟩ | ⟨a, vs, q, hb, e, hq⟩ := hw
  · exact ⟨_, e, handled_reply (by simp) (by simp; omega)⟩
  · refine ⟨_, e, (s.writeWords .hold a vs).mem, s.dbgOrder, [], fc :: q, ?_, by simp; omega, by simp; omega,
      State.writeWords_wf vs, fun hi => State.writeWords_within vs hi hb, rfl, rfl, by simp⟩
    simp [State.reply, State.writeWords]

theorem handled_copyVariables {fc : Octet} {first : Word16} {is : List Word16} {s : State} (h : s.build.Legal) :
    ∃ t, copyVariables fc first is s = .next t ∧ Handled s t := by
  have h16 := h.1
  obtain ⟨q, e, h8, hm⟩ := copyVariables_cases fc first is s (by omega)
  exact ⟨_, e, handled_reply (by simp) (by simp; omega)⟩

/-- Every handler answers, in every state with a legal build (R229, R328). -/
theorem exec_handled (i : Instr) {s : State} (h : s.build.Legal) : ∃ t, exec i s = .next t ∧ Handled s t := by
  have h16 := h.1
  cases i with
  | rdcoil o => exact handled_readBits o h
  | rddisc o => exact handled_readBits o h
  | rdhold o => exact handled_readWords o h
  | rdinreg o => exact handled_readWords o h
  | wrcoil o => exact handled_writesBits h (execWrcoil_cases o s)
  | wrreg o => exact handled_writesWords h (execWrreg_cases o s)
  | wrcoils o => exact handled_writesBits h (execWrcoils_cases o s)
  | wrregs o => exact handled_writesWords h (execWrregs_cases o s)
  | dbginfo => exact ⟨_, rfl, handled_reply (by simp) (by simp; omega)⟩
  | dbgset o =>
    obtain e | ⟨index, f, value, e⟩ := execDbgset_cases o s
    · exact ⟨_, e, handled_reply (by simp) (by simp; omega)⟩
    · refine ⟨_, e, s.mem, s.dbgOrder, [.setTrace index f value], [0x42#8, resSuccess], rfl, by simp,
        by simp; omega, id, id, rfl, rfl, by simp [Output.isTxByte, Output.isTxEn, Output.slot]⟩
  | dbgget o =>
    obtain e | ⟨first, is, e⟩ := execDbgget_cases o s
    · exact ⟨_, e, handled_reply (by simp) (by simp; omega)⟩
    · rw [exec, e]; exact handled_copyVariables h
  | dbglist o =>
    obtain e | ⟨first, is, e⟩ := execDbglist_cases o s
    · exact ⟨_, e, handled_reply (by simp) (by simp; omega)⟩
    · rw [exec, e]; exact handled_copyVariables h
  | dbgmd5 m =>
    obtain ⟨r, o, e⟩ := execDbgmd5_cases m s
    have hh : 2 + s.build.hash.length ≤ s.build.maxFrame := h.2.2.2.2.2.2.2
    refine ⟨_, e, s.mem, o, [], [0x45#8, r] ++ s.build.hash, by simp [State.reply], by simp, ?_, id, id, rfl, rfl,
      by simp⟩
    simp only [List.length_append, List.length_cons, List.length_nil]
    omega

/-- The dispatcher answers every PDU with a function code (R220, R229). -/
theorem dispatch_handled {p : List Octet} {s : State} (h : s.build.Legal) (hp : p ≠ []) :
    ∃ t, dispatch p s = .next t ∧ Handled s t := by
  have h16 := h.1
  obtain ⟨fc, payload, rfl⟩ := List.exists_cons_of_ne_nil hp
  obtain ⟨i, e, -⟩ | e := decode_cons fc payload
  · simp only [dispatch, e]; exact exec_handled i h
  · simp only [dispatch, e, raiseExc_eq]
    exact ⟨_, rfl, handled_reply (by simp) (by simp; omega)⟩

/-- The state `u` with everything a handler reads (R221) taken from `s`. -/
def State.elsewhere (s u : State) : State :=
  { u with build := s.build, mem := s.mem, dbgOrder := s.dbgOrder, tick := s.tick, vars := s.vars }

/-- What a handler did in `s`, done in `s.elsewhere u`. -/
def carry (s u : State) : Result → Result
  | .next t => .next { s.elsewhere u with
      mem := t.mem, dbgOrder := t.dbgOrder, respPdu := t.respPdu,
      trace := u.trace ++ t.trace.drop s.trace.length }
  | .fault e => .fault e
  | .refused e => .refused e

theorem carry_answer (s u : State) (q : List Octet) : carry s u (answer q s) = answer q (s.elsewhere u) := by
  simp [carry, State.reply, State.elsewhere]

theorem carry_ite {c : Prop} [Decidable c] (s u : State) (a b : Result) :
    carry s u (if c then a else b) = if c then carry s u a else carry s u b := apply_ite ..

theorem carry_raiseExc (s u : State) (fc : Octet) (code : ExcCode) :
    carry s u (raiseExc fc code s) = raiseExc fc code (s.elsewhere u) := carry_answer s u _

theorem carry_readBits (s u : State) (fc : Octet) (sp : BitSpace) (o : Option RdOps) :
    readBits fc sp o (s.elsewhere u) = carry s u (readBits fc sp o s) := by
  rcases o with _ | ⟨start, count⟩
  · exact (carry_raiseExc ..).symm
  · simp only [readBits, capacityGuard, memReadBits, carry_ite, carry_raiseExc, carry_answer]
    rfl

theorem carry_readWords (s u : State) (fc : Octet) (sp : WordSpace) (o : Option RdOps) :
    readWords fc sp o (s.elsewhere u) = carry s u (readWords fc sp o s) := by
  rcases o with _ | ⟨start, count⟩
  · exact (carry_raiseExc ..).symm
  · simp only [readWords, capacityGuard, memReadWords, carry_ite, carry_raiseExc, carry_answer]
    rfl

theorem carry_writeBits (s u : State) (sp : BitSpace) (a : Nat) (vs : List Bool) (q : List Octet) :
    memWriteBits sp a vs (s.elsewhere u) (answer q) = carry s u (memWriteBits sp a vs s (answer q)) := by
  simp only [memWriteBits, carry_ite]
  congr 1
  simp [carry, State.reply, State.elsewhere, State.writeBits]

theorem carry_writeWords (s u : State) (sp : WordSpace) (a : Nat) (vs : List Word16) (q : List Octet) :
    memWriteWords sp a vs (s.elsewhere u) (answer q) = carry s u (memWriteWords sp a vs s (answer q)) := by
  simp only [memWriteWords, carry_ite]
  congr 1
  simp [carry, State.reply, State.elsewhere, State.writeWords]

theorem carry_copyVariables (s u : State) (fc : Octet) (first : Word16) (is : List Word16) :
    copyVariables fc first is (s.elsewhere u) = carry s u (copyVariables fc first is s) := by
  have loop : ∀ (is : List Word16) last data, copyLoop (s.elsewhere u) last data is = copyLoop s last data is := by
    intro is
    induction is with
    | nil => intros; rfl
    | cons j is ih =>
      intro last data
      simp only [copyLoop, ih]
      rfl
  simp only [copyVariables, loop, carry_answer]
  rfl

/-- A handler reads the build, the bank, the debug bit and the runtime's inputs only, and adds to the trace (R221). -/
theorem exec_elsewhere (i : Instr) (s u : State) : exec i (s.elsewhere u) = carry s u (exec i s) := by
  cases i with
  | rdcoil o => exact carry_readBits ..
  | rddisc o => exact carry_readBits ..
  | rdhold o => exact carry_readWords ..
  | rdinreg o => exact carry_readWords ..
  | wrcoil o =>
    rcases o with _ | ⟨coil, status⟩
    · exact (carry_raiseExc ..).symm
    · simp only [exec, execWrcoil, carry_ite, carry_raiseExc, carry_writeBits]
      rfl
  | wrreg o =>
    rcases o with _ | ⟨register, value⟩
    · exact (carry_raiseExc ..).symm
    · simp only [exec, execWrreg, carry_ite, carry_raiseExc, carry_writeWords]
      rfl
  | wrcoils o =>
    rcases o with _ | ⟨start, count, bc, data⟩
    · exact (carry_raiseExc ..).symm
    · simp only [exec, execWrcoils, carry_ite, carry_raiseExc, carry_writeBits]
      rfl
  | wrregs o =>
    rcases o with _ | ⟨start, count, bc, data⟩
    · exact (carry_raiseExc ..).symm
    · simp only [exec, execWrregs, carry_ite, carry_raiseExc, carry_writeWords]
      rfl
  | dbginfo => exact (carry_answer ..).symm
  | dbgset o =>
    rcases o with _ | ⟨index, force, length, value⟩
    · exact (carry_answer ..).symm
    · simp only [exec, execDbgset, debugError, carry_ite, carry_answer]
      have e : carry s u (answer [0x42#8, resSuccess] (s.emit (.setTrace index (forceFlag force) value))) =
          answer [0x42#8, resSuccess] ((s.elsewhere u).emit (.setTrace index (forceFlag force) value)) := by
        simp [carry, State.reply, State.elsewhere, State.emit]
      rw [e]
      rfl
  | dbgget o =>
    rcases o with _ | ⟨first, last⟩
    · exact (carry_answer ..).symm
    · simp only [exec, execDbgget, debugError, carry_ite, carry_answer, carry_copyVariables]
      rfl
  | dbglist o =>
    rcases o with _ | ⟨n, idx⟩
    · exact (carry_answer ..).symm
    · simp only [exec, execDbglist, debugError, carry_ite, carry_answer, carry_copyVariables]
      rfl
  | dbgmd5 m =>
    simp only [exec, execDbgmd5, carry_ite, carry_answer]
    simp [carry, State.reply, State.elsewhere]

@[simp] theorem State.elsewhere_self (s : State) : s.elsewhere s = s := rfl

/-- The dispatcher sees nothing of the transport (R221). -/
theorem dispatch_elsewhere (p : List Octet) (s u : State) :
    dispatch p (s.elsewhere u) = carry s u (dispatch p s) := by
  simp only [dispatch]
  split
  · exact exec_elsewhere ..
  · exact (carry_raiseExc ..).symm
  · rfl

/-- The same, for two states that agree on what a handler reads. -/
theorem dispatch_agree {p : List Octet} {s u t : State} (hb : u.build = s.build) (hm : u.mem = s.mem)
    (ho : u.dbgOrder = s.dbgOrder) (ht : u.tick = s.tick) (hv : u.vars = s.vars) (h : dispatch p s = .next t) :
    dispatch p u = .next { u with
      mem := t.mem, dbgOrder := t.dbgOrder, respPdu := t.respPdu, trace := u.trace ++ t.trace.drop s.trace.length } := by
  have e : s.elsewhere u = u := by
    simp only [State.elsewhere, ← hb, ← hm, ← ho, ← ht, ← hv]
  have := dispatch_elsewhere p s u
  rw [e, h] at this
  simpa [carry, e] using this

/-! ## One step -/

/-- With a legal configuration the oldest event is handled (R45). -/
theorem step_event {s : State} {e : Event} {rest : List Event} (hc : ConfigLegal s.build s.baud)
    (hi : s.inputs = e :: rest) : step s = handle e { s with inputs := rest } := by
  rw [step, if_pos hc, nextEvent, hi]

/-- With no event nothing happens (R324). -/
theorem step_none {s : State} (hc : ConfigLegal s.build s.baud) (hi : s.inputs = []) : step s = .next s := by
  rw [step, if_pos hc, nextEvent, hi]

/-- A step that goes on had a legal configuration. -/
theorem step_config {s t : State} (h : step s = .next t) : ConfigLegal s.build s.baud := by
  by_contra hc
  rw [step, if_neg hc] at h
  cases h

/-- What a step that goes on can be: nothing, or one event handled. -/
theorem step_cases {s t : State} (h : step s = .next t) :
    (s.inputs = [] ∧ t = s) ∨
      ∃ e rest, s.inputs = e :: rest ∧ handle e { s with inputs := rest } = .next t := by
  have hc := step_config h
  rcases hi : s.inputs with _ | ⟨e, rest⟩
  · rw [step_none hc hi] at h
    cases h
    exact .inl ⟨rfl, rfl⟩
  · rw [step_event hc hi] at h
    exact .inr ⟨e, rest, rfl, h⟩

/-! ## Timing (R32, R151) -/

theorem t15Of_bounds {baud : Word32} (h : 1 ≤ baud.toNat) : 750 ≤ (t15Of baud).toNat ∧ (t15Of baud).toNat ≤ 16500000 ∧
    (baud.toNat ≤ 19200 → (t15Of baud).toNat = 16500000 / baud.toNat ∧ 859 ≤ (t15Of baud).toNat) ∧
    (19200 < baud.toNat → (t15Of baud).toNat = 750) := by
  by_cases hb : baud.toNat ≤ 19200
  · have hq : 16500000 / baud.toNat ≤ 16500000 := Nat.div_le_self ..
    have hl : 859 ≤ 16500000 / baud.toNat := (Nat.le_div_iff_mul_le (by omega)).2 (by omega)
    have e : (t15Of baud).toNat = 16500000 / baud.toNat := by
      rw [t15Of, if_pos hb, BitVec.toNat_ofNat, Nat.mod_eq_of_lt (by omega)]
    refine ⟨by omega, by omega, fun _ => ⟨e, by omega⟩, fun h => absurd hb (by omega)⟩
  · have e : (t15Of baud).toNat = 750 := by rw [t15Of, if_neg hb]; rfl
    exact ⟨by omega, by omega, fun h => absurd h hb, fun _ => e⟩

theorem t35Of_toNat {t15 : Word32} (h : t15.toNat ≤ 16500000) : (t35Of t15).toNat = t15.toNat * 7 / 2 := by
  rw [t35Of, BitVec.toNat_ofNat, Nat.mod_eq_of_lt (by omega)]

/-! ## A frame taken and judged (R158, R159) -/

/-- The frame a completion takes, when the last sample is everything that is queued. -/
theorem takeFrame_frame {s : State} (h : s.lastCount = s.rxq.length) :
    (takeFrame s).frame = overwrite s.frame 0 s.rxq ∧ (takeFrame s).rxq = [] ∧
      (takeFrame s).frame.take s.lastCount = s.rxq := by
  have e : (takeFrame s).frame = overwrite s.frame 0 s.rxq := by simp [takeFrame, h]
  refine ⟨e, by simp [takeFrame, h], ?_⟩
  rw [e, h, take_overwrite_zero]

/-- The verdict accepts exactly the frames that pass the four checks. -/
theorem rtuVerdict_none {ov : Bool} {a : Octet} {f : List Octet} : rtuVerdict ov a f = none ↔
    ov = false ∧ 4 ≤ f.length ∧ crcCheck f = true ∧ (f.getD 0 0#8 = a ∨ f.getD 0 0#8 = 0xFF#8) := by
  simp only [rtuVerdict, broadcastAddr]
  cases ov
  · rcases Nat.lt_or_ge f.length 4 with hl | hl
    · rw [if_neg Bool.false_ne_true, if_pos (by omega)]
      simp; omega
    · rw [if_neg Bool.false_ne_true, if_neg (by omega)]
      cases crcCheck f
      · simp
      · generalize f.getD 0 0#8 = b
        by_cases ha : b = a
        · simp [ha, hl]
        · by_cases hb : b = 0xFF#8
          · simp [hb, hl]
          · simp [ha, hb]
  · simp

/-- A frame not accepted is dropped: the framer is idle with an empty frame, and nothing else but its working registers
has changed. -/
theorem rtuComplete_drop {s : State} (hl : s.lastCount = s.rxq.length) {d : Drop}
    (hv : rtuVerdict s.rxOverrun s.slaveId s.rxq = some d) :
    rtuComplete s = .next (toIdle { validateCrc (takeFrame s) s.rxq with rxOverrun := false }) := by
  rw [rtuComplete, rtuValidate, (takeFrame_frame hl).2.2]
  show (match rtuVerdict s.rxOverrun s.slaveId s.rxq with | some _ => _ | none => _) = _
  rw [hv]

/-- The state in which the handler of an accepted frame runs. -/
def accepted (s : State) : State :=
  { takeFrame s with
    crcHi := (crcRun (s.rxq.take (s.rxq.length - 2))).1
    crcLo := (crcRun (s.rxq.take (s.rxq.length - 2))).2
    rxOverrun := false
    isBroadcast := broadcastFlag (s.rxq.getD 0 0#8)
    fsm := .dispatching }

/-- An accepted frame is dispatched and answered in the same event (R158, R163). -/
theorem rtuComplete_accept {s : State} (hl : s.lastCount = s.rxq.length)
    (hv : rtuVerdict s.rxOverrun s.slaveId s.rxq = none) :
    rtuComplete s = andThen (dispatch ((s.rxq.take (s.rxq.length - 2)).drop 1) (accepted s))
      fun t => .next (rtuRespond (placeResponse t)) := by
  obtain ⟨h1, h2, -, -⟩ := rtuVerdict_none.1 hv
  rw [rtuComplete, rtuValidate, (takeFrame_frame hl).2.2]
  show (match rtuVerdict s.rxOverrun s.slaveId s.rxq with | some _ => _ | none => _) = _
  rw [hv]
  have ho : ¬((takeFrame s).rxOverrun = true ∨ s.rxq.length ≤ 3) := by
    have : (takeFrame s).rxOverrun = s.rxOverrun := rfl
    simp [this, h1]; omega
  have hf : (takeFrame s).frame.take (s.lastCount - 2) = s.rxq.take (s.rxq.length - 2) := by
    have e := congrArg (List.take (s.rxq.length - 2)) (takeFrame_frame hl).2.2
    rw [List.take_take, hl, Nat.min_eq_left (by omega)] at e
    rw [hl, e]
  simp only [rtuDispatch, validateCrc, if_neg ho]
  have he : ({ State.withCrc (takeFrame s) (s.rxq.take (s.rxq.length - 2)) with
      rxOverrun := false, isBroadcast := broadcastFlag (s.rxq.getD 0 0#8), fsm := .dispatching } : State) = accepted s := rfl
  rw [he]
  have hfr : (State.withCrc (takeFrame s) (s.rxq.take (s.rxq.length - 2))).frame = (takeFrame s).frame := rfl
  rw [hfr, hf]

/-! ## The response frame (R163, R165) -/

/-- What the frame buffer holds once the response is placed behind the address. -/
theorem placeResponse_frame {s : State} {a : Octet} {rest : List Octet} (h : s.frame = a :: rest) :
    (placeResponse s).frame.getD 0 0#8 = a ∧
      (placeResponse s).frame.take (placeResponse s).frameLen = a :: s.respPdu := by
  refine ⟨?_, take_overwrite_one h⟩
  simp [placeResponse, overwrite, h]

/-- The frame sent is address, response PDU and CRC (R137). -/
theorem responseFrame_eq {s : State} {a : Octet} {q : List Octet} (h : s.frame.take s.frameLen = a :: q) :
    responseFrame s = crcAppend a q := by
  have h0 : s.frame.getD 0 0#8 = a := by
    rcases hf : s.frame with _ | ⟨b, rest⟩
    · simp [hf] at h
    · rcases hn : s.frameLen with _ | n
      · simp [hn] at h
      · simp [hf, hn] at h
        simp [h.1]
  rw [responseFrame, h0, h]
  rfl

/-! ## The MBAP prefix (R193) -/

/-- Collecting moves octets from the queue to the prefix until six are there or none is left. -/
theorem collectLoop_spec (hdr : List Octet) (len : Nat) (q : List Octet) (h : len ≤ 6) :
    (collectLoop hdr len q).1.length = hdr.length ∧
    (len + q.length < 6 → (collectLoop hdr len q).2.1 = len + q.length ∧ (collectLoop hdr len q).2.2 = [] ∧
      (hdr.length = 6 → (collectLoop hdr len q).1 = hdr.take len ++ q ++ hdr.drop (len + q.length))) ∧
    (6 ≤ len + q.length → (collectLoop hdr len q).2.1 = 6 ∧ (collectLoop hdr len q).2.2 = q.drop (6 - len)) ∧
    (hdr.length = 6 → 6 ≤ len + q.length → (collectLoop hdr len q).1 = hdr.take len ++ q.take (6 - len)) := by
  induction q generalizing hdr len with
  | nil =>
    refine ⟨rfl, fun _ => ⟨rfl, rfl, fun _ => by simp [collectLoop]⟩, fun h6 => ?_, fun h6 hl => ?_⟩
    · have : len = 6 := by simpa using Nat.le_antisymm h (by simpa using h6)
      simp [collectLoop, this]
    · have : len = 6 := by simpa using Nat.le_antisymm h (by simpa using hl)
      simp [collectLoop, this, ← h6]
  | cons b q ih =>
    by_cases hl : len < 6
    · have e : collectLoop hdr len (b :: q) = collectLoop (hdr.set len b) (len + 1) q := by
        simp [collectLoop, hl]
      obtain ⟨i1, i2, i3, i4⟩ := ih (hdr.set len b) (len + 1) (by omega)
      simp only [List.length_cons, List.length_set] at *
      rw [e]
      obtain ⟨k, hk⟩ : ∃ k, 6 - len = k + 1 := ⟨5 - len, by omega⟩
      have hk' : 6 - (len + 1) = k := by omega
      rw [hk'] at i3 i4
      refine ⟨i1, fun hq => ?_, fun hq => ?_, fun h6 hq => ?_⟩
      · obtain ⟨a, b, d⟩ := i2 (by omega)
        refine ⟨by omega, b, fun h6 => ?_⟩
        rw [d h6, List.take_succ_eq_append_getElem (by simp; omega)]
        simp only [List.getElem_set_self, List.take_set_of_le (Nat.le_refl len), List.append_assoc, List.singleton_append]
        rw [List.drop_set_of_lt (by omega), Nat.add_assoc, Nat.add_comm 1]
      · rw [hk]
        simpa using i3 (by omega)
      · rw [i4 h6 (by omega), hk, List.take_succ_cons, List.take_succ_eq_append_getElem (by simp; omega)]
        simp [List.take_set_of_le]
    · have : len = 6 := by omega
      subst this
      refine ⟨by simp [collectLoop], fun hq => by simp at hq, fun _ => by simp [collectLoop], fun h6 _ => ?_⟩
      simp [collectLoop, ← h6]

/-- Collecting touches the prefix and the queue only, and keeps their sizes in bounds. -/
theorem mbapCollect_spec (c : Slot) (h : c.hdrLen ≤ 6) :
    (mbapCollect c).live = c.live ∧ (mbapCollect c).declLen = c.declLen ∧ (mbapCollect c).hdr.length = c.hdr.length ∧
    (mbapCollect c).hdrLen ≤ 6 := by
  obtain ⟨h1, h2, h3, -⟩ := collectLoop_spec c.hdr c.hdrLen c.sockq h
  refine ⟨rfl, rfl, h1, ?_⟩
  have e : (mbapCollect c).hdrLen = (collectLoop c.hdr c.hdrLen c.sockq).2.1 := rfl
  rcases Nat.lt_or_ge (c.hdrLen + c.sockq.length) 6 with hl | hl
  · have := (h2 hl).1
    omega
  · have := (h3 hl).1
    omega

theorem Slot.received_length {c : Slot} (h6 : c.hdr.length = 6) (hl : c.hdrLen < 6) :
    c.received.length = c.hdrLen + c.sockq.length := by
  simp only [Slot.received, List.length_append, List.length_take]
  omega

/-- Once six octets have been received they are the prefix, and the others wait behind it. -/
theorem mbapCollect_whole {c : Slot} (h6 : c.hdr.length = 6) (hl : c.hdrLen < 6) (hm : 6 ≤ c.received.length) :
    mbapCollect c = { c with hdr := c.received.take 6, hdrLen := 6, sockq := c.received.drop 6 } := by
  rw [Slot.received_length h6 hl] at hm
  obtain ⟨-, -, h3, h4⟩ := collectLoop_spec c.hdr c.hdrLen c.sockq (by omega)
  have ht : (c.hdr.take c.hdrLen).length = c.hdrLen := by simp; omega
  simp only [mbapCollect, h4 h6 hm, h3 hm, Slot.received, List.take_append, List.drop_append, ht]
  rw [List.take_of_length_le (i := 6) (by omega), List.drop_eq_nil_of_le (i := 6) (by omega), List.nil_append]

/-- Fewer than six octets wait in the prefix buffer. -/
theorem mbapCollect_waits {c : Slot} (h6 : c.hdr.length = 6) (hl : c.hdrLen < 6) (hm : c.received.length < 6) :
    mbapCollect c = { c with
      hdr := c.received ++ c.hdr.drop c.received.length, hdrLen := c.received.length, sockq := [] } := by
  rw [Slot.received_length h6 hl] at hm ⊢
  obtain ⟨-, h2, -, -⟩ := collectLoop_spec c.hdr c.hdrLen c.sockq (by omega)
  obtain ⟨a, b, d⟩ := h2 hm
  simp only [mbapCollect, a, b, d h6, Slot.received]

/-! ## Serving a slot (R190, R192, R200, R202) -/

/-- The verdict accepts exactly the complete, well-formed requests with a PDU (R196, R198). -/
theorem mbapVerdict_none {n : Nat} {c : Slot} : mbapVerdict n c = none ↔
    mbapProto c = 0#16 ∧ 2 ≤ (mbapLength c).toNat ∧ (mbapLength c).toNat ≤ n ∧
      c.sockq.length = (mbapLength c).toNat := by
  have h0 : mbapLength c = 0#16 ↔ (mbapLength c).toNat = 0 := by simp [BitVec.toNat_eq]
  have h1 : mbapLength c = 1#16 ↔ (mbapLength c).toNat = 1 := by simp [BitVec.toNat_eq]
  rw [mbapVerdict]
  by_cases a0 : mbapProto c = 0#16
  · rw [if_neg (not_not.2 a0)]
    by_cases a1 : mbapLength c = 0#16
    · rw [if_pos a1]
      simp [h0.1 a1]
    · rw [if_neg a1]
      by_cases a2 : n < (mbapLength c).toNat
      · rw [if_pos a2]
        simp
        omega
      · rw [if_neg a2]
        by_cases a3 : c.sockq.length = (mbapLength c).toNat
        · rw [if_neg (not_not.2 a3)]
          by_cases a4 : mbapLength c = 1#16
          · rw [if_pos a4]
            simp [h1.1 a4]
          · rw [if_neg a4]
            rw [h0] at a1
            rw [h1] at a4
            exact iff_of_true rfl ⟨a0, by omega, by omega, a3⟩
        · rw [if_pos a3]
          simp [a3]
  · rw [if_pos a0]
    simp [a0]

/-- A dropped request leaves the slot live and ready for the next. -/
theorem dropSlot_spec (d : Drop) (c : Slot) :
    (dropSlot d c).live = c.live ∧ (dropSlot d c).hdr = c.hdr ∧ (dropSlot d c).hdrLen = 0 ∧
      (dropSlot d c).declLen = c.declLen := by
  cases d <;> exact ⟨rfl, rfl, rfl, rfl⟩

/-- What serving one slot can do: nothing; put a new content into a live slot; or answer a request on it. -/
theorem tcpServe_cases (i : Nat) {s : State} (h : s.build.Legal) :
    tcpServe i s = .next s ∨
    ∃ c d, s.slots[i]? = some c ∧ c.live = true ∧ d.live = true ∧
      (c.hdrLen ≤ 6 → d.hdr.length = c.hdr.length) ∧
      ((d.hdrLen < 6 ∧ tcpServe i s = .next (s.setSlot i d)) ∨
       ∃ p unit t, dispatch p (s.setSlot i d) = .next t ∧ Handled (s.setSlot i d) t ∧
         tcpServe i s = .next (mbapEmit i d unit t)) := by
  rcases hc : s.slots[i]? with _ | c
  · exact .inl (by simp [tcpServe, hc])
  · cases hl : c.live
    · exact .inl (by simp [tcpServe, hc, hl])
    · refine .inr ⟨c, ?_⟩
      have hm : c.hdrLen ≤ 6 → (mbapCollect c).hdr.length = c.hdr.length :=
        fun h6 => (mbapCollect_spec c h6).2.2.1
      have hml : (mbapCollect c).live = true := hl
      by_cases h6 : (mbapCollect c).hdrLen < 6
      · exact ⟨mbapCollect c, rfl, hl, hml, hm, .inl ⟨h6, by simp [tcpServe, hc, hl, h6]⟩⟩
      · have e : tcpServe i s = mbapParse i (mbapCollect c) (s.setSlot i (mbapCollect c)) := by
          simp [tcpServe, hc, hl, h6]
        rw [e]
        generalize mbapCollect c = k at *
        have ss (a b : Slot) : (s.setSlot i a).setSlot i b = s.setSlot i b := by simp [State.setSlot]
        have ml (v : Word16) : mbapLength { k with declLen := v } = mbapLength k := rfl
        simp only [mbapParse, ss, ml]
        split
        · rename_i d hd
          obtain ⟨d1, d2, d3, d4⟩ := dropSlot_spec d { k with declLen := mbapLength k }
          exact ⟨_, trivial, hl, d1.trans hml, fun h => by rw [d2]; exact hm h, .inl ⟨by rw [d3]; omega, rfl⟩⟩
        · rename_i hv
          obtain ⟨v1, v2, v3, v4⟩ := mbapVerdict_none.1 hv
          have v2' : 2 ≤ (mbapLength k).toNat := v2
          have v4' : k.sockq.length = (mbapLength k).toNat := v4
          refine ⟨{ k with declLen := mbapLength k, sockq := k.sockq.drop (mbapLength k).toNat }, trivial, hl, hml, hm,
            .inr ?_⟩
          · have hp : (k.sockq.take (mbapLength k).toNat).drop 1 ≠ [] := by
              intro hn
              have := congrArg List.length hn
              simp only [List.length_drop, List.length_take, List.length_nil] at this
              omega
            obtain ⟨t, ht, hh⟩ := dispatch_handled (s := s.setSlot i
              { k with declLen := mbapLength k, sockq := k.sockq.drop (mbapLength k).toNat }) h hp
            exact ⟨_, _, t, ht, hh, by rw [ht]; rfl⟩

/-! ## The runtime's changes (R50, R290) -/

theorem runtimeChanges_append (a b : List RuntimeChange) (s : State) :
    runtimeChanges (a ++ b) s = runtimeChanges b (runtimeChanges a s) := by
  simp [runtimeChanges, tickAfter, varsAfter]

@[simp] theorem runtimeChanges_nil (s : State) : runtimeChanges [] s = s := rfl

theorem setVariable_sizes (vars : List (List Octet)) (i : Nat) (v : List Octet) :
    (setVariable vars i v).map List.length = vars.map List.length := by
  rw [setVariable]
  split
  · rename_i h
    rw [List.map_set, h]
    apply List.ext_getElem? fun j => ?_
    rw [List.getElem?_set]
    split
    · rename_i e
      subst e
      rw [List.getElem?_map, List.length_map]
      split
      · rename_i hl
        rw [List.getElem?_eq_getElem hl]
        simp [List.getD_eq_getElem?_getD, hl]
      · rename_i hl
        rw [List.getElem?_eq_none (by omega)]
        rfl
    · rfl
  · rfl

/-- No change of the runtime's alters the number of variables or the size of one (R290). -/
theorem varsAfter_sizes (cs : List RuntimeChange) (vars : List (List Octet)) :
    (varsAfter cs vars).map List.length = vars.map List.length := by
  induction cs generalizing vars with
  | nil => rfl
  | cons c cs ih =>
    rcases c with n | ⟨i, v⟩
    · exact ih vars
    · exact (ih _).trans (setVariable_sizes vars i v)

/-- A pass keeps whatever serving one slot keeps and the runtime's changes keep, and goes on if serving does. -/
theorem tcpServeAll_keeps {P : State → Prop} (h : ∀ i s, P s → ∃ t, tcpServe i s = .next t ∧ P t)
    (hr : ∀ cs s, P s → P (runtimeChanges cs s)) : ∀ (is : List Nat) (between : List (List RuntimeChange)) (s : State),
    P s → ∃ t, tcpServeAll is between s = .next t ∧ P t := by
  intro is
  induction is with
  | nil => exact fun _ s hs => ⟨s, rfl, hs⟩
  | cons i is ih =>
    intro between s hs
    obtain ⟨t, ht, hp⟩ := h i _ (hr (between.headD []) s hs)
    obtain ⟨u, hu, hq⟩ := ih between.tail t hp
    exact ⟨u, by rw [tcpServeAll, ht]; exact hu, hq⟩

/-- Slots that are not live are passed over. -/
theorem tcpServe_dead {i : Nat} {s : State} (h : ∀ c, s.slots[i]? = some c → c.live = false) :
    tcpServe i s = .next s := by
  rcases hc : s.slots[i]? with _ | c
  · simp [tcpServe, hc]
  · simp [tcpServe, hc, h c hc]

/-- Accepting changes the table and the pending count only: nothing, or one free slot made live and empty (R191). -/
theorem tcpAccept_cases (s : State) : tcpAccept s = s ∨
    ∃ i c, s.slots[i]? = some c ∧ c.live = false ∧ 0 < s.connPending ∧
      tcpAccept s = { s.setSlot i (acceptSlot c) with connPending := s.connPending - 1 } := by
  simp only [tcpAccept]
  split
  · exact .inl rfl
  rename_i h0
  split
  · exact .inl rfl
  rename_i i hi
  obtain ⟨hlt, hp, -⟩ := List.findIdx?_eq_some_iff_getElem.1 hi
  refine .inr ⟨i, s.slots[i], by simp [hlt], by simpa using hp, by omega, ?_⟩
  simp [List.getD_eq_getElem?_getD, hlt]

end Sys2Proof.Machine
end

