-- ==== Sys2Proof/Laws/PerInstr.lean ====
section
/-! SUPPORT. One fact for each instruction, by name: its encoding begins with the function code its row of the opcode
table has, and that code selects its own constructor back (spec/30_encoding.md R95, R108). -/

namespace Sys2Proof.Laws.SelectsItself

open Sys2Proof

/-- The PDU of `i` begins with its function code, and the decoder reads the same function code back from it. -/
def Statement (i : Instr) : Prop :=
  ∃ j, encode i = functionCode i :: encodePayload i ∧
    decodeFunction (functionCode i) (encodePayload i) = some j ∧ functionCode j = functionCode i

theorem rdcoil (o : Option RdOps) : Statement (.rdcoil o) := ⟨_, rfl, rfl, rfl⟩
theorem rddisc (o : Option RdOps) : Statement (.rddisc o) := ⟨_, rfl, rfl, rfl⟩
theorem rdhold (o : Option RdOps) : Statement (.rdhold o) := ⟨_, rfl, rfl, rfl⟩
theorem rdinreg (o : Option RdOps) : Statement (.rdinreg o) := ⟨_, rfl, rfl, rfl⟩
theorem wrcoil (o : Option Wr1Ops) : Statement (.wrcoil o) := ⟨_, rfl, rfl, rfl⟩
theorem wrreg (o : Option Wr1Ops) : Statement (.wrreg o) := ⟨_, rfl, rfl, rfl⟩
theorem wrcoils (o : Option WrnOps) : Statement (.wrcoils o) := ⟨_, rfl, rfl, rfl⟩
theorem wrregs (o : Option WrnOps) : Statement (.wrregs o) := ⟨_, rfl, rfl, rfl⟩
theorem dbginfo : Statement .dbginfo := ⟨_, rfl, rfl, rfl⟩
theorem dbgset (o : Option SetOps) : Statement (.dbgset o) := ⟨_, rfl, rfl, rfl⟩
theorem dbgget (o : Option GetOps) : Statement (.dbgget o) := ⟨_, rfl, rfl, rfl⟩
theorem dbglist (o : Option ListOps) : Statement (.dbglist o) := ⟨_, rfl, rfl, rfl⟩
theorem dbgmd5 (marker : Option Word16) : Statement (.dbgmd5 marker) := ⟨_, rfl, rfl, rfl⟩

end Sys2Proof.Laws.SelectsItself
end

