-- ==== Sys2Proof/Tests/Slice0.lean ====
section
/-! SUPPORT. Tests. Expected results are the spec's own: the encodings of spec/30_encoding.md and the vectors of
spec/95_test_vectors.md (its line is named in each comment, letters as there). After them, for each statement of
Certificates/Slice0/Obligations.lean that has hypotheses, a concrete state and operands that meet them. -/

namespace Sys2Proof.Tests

open Sys2Proof Sys2Proof.Machine

/- Each test is checked before the next begins: many small kernel evaluations waiting for one another at once would take
a thread each. -/
set_option Elab.async false

/-! ## Helpers -/

/-- Octets from numbers. -/
def octets (l : List Nat) : List Octet := l.map (BitVec.ofNat 8)

/-- The next state of a step, if it goes on. -/
def nextOf : Result → Option State
  | .next t => some t
  | .fault _ => none
  | .refused _ => none

theorem next_of_isSome {r : Result} (h : (nextOf r).isSome = true) : ∃ t, r = .next t := by
  cases r <;> simp_all [nextOf]

/-- The response PDU to a request PDU. -/
def reply (p : List Nat) (s : State) : Option (List Octet) := (nextOf (dispatch (octets p) s)).map (·.respPdu)

/-- The bank after a request PDU. -/
def bank (p : List Nat) (s : State) : Option Memory := (nextOf (dispatch (octets p) s)).map (·.mem)

/-- The reset state with the given holding registers, coils and inputs listed. -/
def withBank (m : Memory) : State := { State.reset with mem := m }

/-- Coils 0..9 = 1,0,1,1,0,0,1,1,1,0. -/
def someCoils : Memory :=
  { State.reset.mem with coils := [(0, true), (2, true), (3, true), (6, true), (7, true), (8, true)] }

/-- Holding registers 0 and 1 = 0x1234, 0xABCD. -/
def someHolding : Memory := { State.reset.mem with holdingRegisters := [(0, 0x1234#16), (1, 0xABCD#16)] }

/-- A state whose next event closes the last window on the frame `f`. -/
def serialState (f : List Octet) : State :=
  { State.reset with fsm := .collecting, rxq := f, lastCount := f.length, winTimer := 1#32, inputs := [.tick] }

/-- A live slot with the octets `m` waiting. -/
def liveSlot (m : List Octet) : Slot := { freeSlot with live := true, sockq := m }

/-- A state whose next event serves slot 0, on which the octets `m` wait. -/
def tcpState (m : List Octet) : State :=
  { withBank someHolding with inputs := [.pollTcp []], slots := [liveSlot m, freeSlot] }

/-- A state in which a three-octet PDU is being answered, `w` ticks left in phase `ph`. -/
def answering (ph : TxPhase) (w : Word32) (es : List Event) : State :=
  { State.reset with
    fsm := .responding, txPhase := ph, winTimer := w, txen := true, inputs := es, frameLen := 3
    frame := octets [0x01, 0x87, 0x01] ++ List.replicate 256 0#8 }

/-- What a step transmits and where the framer is after it. -/
def outcome (s : State) : Option (Fsm × List Output) := (nextOf (step s)).map fun t => (t.fsm, t.trace)

/-! ## WellFormed refuses -/

theorem test_wf_refuses_long_coil_data : (Instr.wrcoils (some ⟨0#16, 1#16, 1#8, octets [0, 0]⟩)).wf = false := by decide
theorem test_wf_refuses_long_register_data :
    (Instr.wrregs (some ⟨0#16, 1#16, 2#8, octets [0, 0, 0]⟩)).wf = false := by decide
theorem test_wf_refuses_long_value : (Instr.dbgset (some ⟨1#16, 1#8, 1#16, octets [0, 0]⟩)).wf = false := by decide
theorem test_wf_refuses_long_list : (Instr.dbglist (some ⟨1#16, [3#16, 0#16]⟩)).wf = false := by decide
theorem test_wf_accepts_truncated : (Instr.wrregs (some ⟨1#16, 2#16, 4#8, octets [0, 10, 1]⟩)).wf = true := by decide

/-! ## Decoding: every row's octets, written out from its format (R96 to R106, R108) -/

theorem test_decode_rdcoil : decode (octets [0x01, 0x12, 0x34, 0x00, 0x0A]) = .ok (.rdcoil (some ⟨0x1234#16, 10#16⟩)) := rfl
theorem test_decode_rddisc : decode (octets [0x02, 0x00, 0x04, 0x01, 0x03]) = .ok (.rddisc (some ⟨4#16, 0x0103#16⟩)) := rfl
theorem test_decode_rdhold : decode (octets [0x03, 0x00, 0x08, 0x00, 0x03]) = .ok (.rdhold (some ⟨8#16, 3#16⟩)) := rfl
theorem test_decode_rdinreg : decode (octets [0x04, 0x00, 0x05, 0x00, 0x01]) = .ok (.rdinreg (some ⟨5#16, 1#16⟩)) := rfl
theorem test_decode_wrcoil : decode (octets [0x05, 0x00, 0x03, 0xFF, 0x00]) = .ok (.wrcoil (some ⟨3#16, 0xFF00#16⟩)) := rfl
theorem test_decode_wrreg : decode (octets [0x06, 0x00, 0x02, 0x12, 0x34]) = .ok (.wrreg (some ⟨2#16, 0x1234#16⟩)) := rfl
theorem test_decode_wrcoils : decode (octets [0x0F, 0x00, 0x00, 0x00, 0x0A, 0x02, 0xCD, 0x01, 0x99]) =
    .ok (.wrcoils (some ⟨0#16, 10#16, 2#8, octets [0xCD, 0x01]⟩)) := rfl
theorem test_decode_wrregs : decode (octets [0x10, 0x00, 0x01, 0x00, 0x02, 0x04, 0x00, 0x0A, 0x01]) =
    .ok (.wrregs (some ⟨1#16, 2#16, 4#8, octets [0x00, 0x0A, 0x01]⟩)) := rfl
theorem test_decode_dbginfo : decode (octets [0x41, 0x99]) = .ok .dbginfo := rfl
theorem test_decode_dbgset : decode (octets [0x42, 0x00, 0x01, 0x01, 0x00, 0x02, 0xBE, 0xEF]) =
    .ok (.dbgset (some ⟨1#16, 1#8, 2#16, octets [0xBE, 0xEF]⟩)) := rfl
theorem test_decode_dbgget : decode (octets [0x43, 0x00, 0x00, 0x00, 0x02]) = .ok (.dbgget (some ⟨0#16, 2#16⟩)) := rfl
theorem test_decode_dbglist : decode (octets [0x44, 0x00, 0x02, 0x00, 0x03, 0x03, 0xE7]) =
    .ok (.dbglist (some ⟨2#16, [3#16, 999#16]⟩)) := rfl
theorem test_decode_dbgmd5 : decode (octets [0x45, 0xDE, 0xAD]) = .ok (.dbgmd5 (some 0xDEAD#16)) := rfl

/-- Short PDUs keep their instruction and lose their operands (R112). -/
theorem test_decode_short : decode (octets [0x03, 0x00, 0x00, 0x00]) = .ok (.rdhold none) ∧
    decode (octets [0x45, 0xDE]) = .ok (.dbgmd5 none) ∧ decode (octets [0x2B]) = .error (.unknownFunction 0x2B#8) ∧
    decode [] = .error .emptyPdu := ⟨rfl, rfl, rfl, rfl⟩

theorem test_encode_wrregs :
    encode (.wrregs (some ⟨3#16, 2#16, 4#8, octets [0xAB, 0xCD, 0x00, 0x01]⟩)) =
      octets [0x10, 0x00, 0x03, 0x00, 0x02, 0x04, 0xAB, 0xCD, 0x00, 0x01] := by decide

/-- The thirteen rows of the opcode table, by number. -/
theorem test_decodeTableWord : [0x01, 0x02, 0x03, 0x04, 0x05, 0x06, 0x0F, 0x10, 0x41, 0x42, 0x43, 0x44, 0x45].map
      (fun w => (decodeTableWord 8 w).map functionCode) =
    (octets [0x01, 0x02, 0x03, 0x04, 0x05, 0x06, 0x0F, 0x10, 0x41, 0x42, 0x43, 0x44, 0x45]).map some := by decide

/-- Each of them is the next instruction that a step runs: the response begins with its function code (an exception's
with bit 7 set). -/
theorem test_withFetchWord_runs : [0x01, 0x02, 0x03, 0x04, 0x05, 0x06, 0x0F, 0x10, 0x41, 0x42, 0x43, 0x44, 0x45].map
      (fun w => (nextOf (step (State.reset.withFetchWord 8 w))).map fun t => t.frame.getD 1 0#8 &&& 0x7F#8) =
    (octets [0x01, 0x02, 0x03, 0x04, 0x05, 0x06, 0x0F, 0x10, 0x41, 0x42, 0x43, 0x44, 0x45]).map some := by
  decide +kernel

/-! ## The CRC unit (A1 to A5) -/

theorem test_crc_steps : [0x01#8, 0x03#8, 0x00#8, 0x00#8, 0x00#8, 0x0A#8].foldl crcStep crcInit = (0xC5#8, 0xCD#8) ∧
    crcStep (0xFF#8, 0xFF#8) 0x01#8 = (0x7E#8, 0x80#8) ∧ crcStep (0x40#8, 0x21#8) 0x00#8 = (0x20#8, 0xF0#8) := by
  decide +kernel
theorem test_crc16_values : crc16 0x01#8 [] = 0x7E80#16 ∧ crc16 0x00#8 [] = 0xBF40#16 ∧ crc16 0xFF#8 [] = 0xFF00#16 ∧
    crc16 0x11#8 (octets [0x03, 0x00, 0x6B, 0x00, 0x03]) = 0x7687#16 := by decide +kernel
theorem test_crc_append : crcAppend 0x01#8 (octets [0x83, 0x02]) = octets [0x01, 0x83, 0x02, 0xC0, 0xF1] := by
  decide +kernel
theorem test_crc_check : crcCheck (octets [0x01, 0x83, 0x02, 0xC0, 0xF1]) = true ∧
    crcCheck (octets [0x01, 0x83, 0x02, 0xF1, 0xC0]) = false := by decide +kernel

/-! ## Timing (B1), packing (F) -/

theorem test_timing : [300, 1200, 2400, 4800, 9600, 14400, 19200, 19201, 115200].map
      (fun b => ((t15Of (BitVec.ofNat 32 b)).toNat, (t35Of (t15Of (BitVec.ofNat 32 b))).toNat)) =
    [(55000, 192500), (13750, 48125), (6875, 24062), (3437, 12029), (1718, 6013), (1145, 4007), (859, 3006),
      (750, 2625), (750, 2625)] := by decide +kernel
theorem test_pack : pack [true, false, true, true, false, false, false, false, true, true] = octets [0x0D, 0x03] ∧
    pack [true] = octets [0x01] ∧ pack (List.replicate 9 true) = octets [0xFF, 0x01] := by decide
theorem test_unpack : unpack (octets [0xCD, 0x01]) 10 =
    [true, false, true, true, false, false, true, true, true, false] := by decide

/-! ## One test or two for each instruction (D to G) -/

theorem test_rdcoil : reply [0x01, 0x00, 0x00, 0x00, 0x0A] (withBank someCoils) =
    some (octets [0x01, 0x02, 0xCD, 0x01]) := by decide +kernel
theorem test_rddisc : reply [0x02, 0x00, 0x04, 0x00, 0x03]
      (withBank { State.reset.mem with discreteInputs := [(4, true), (5, true)] }) =
    some (octets [0x02, 0x01, 0x03]) := by decide +kernel
theorem test_rdhold : reply [0x03, 0x00, 0x00, 0x00, 0x02, 0x99, 0x99] (withBank someHolding) =
    some (octets [0x03, 0x04, 0x12, 0x34, 0xAB, 0xCD]) := by decide +kernel
theorem test_rdhold_no_wrap : reply [0x03, 0xFF, 0xFF, 0x00, 0x02] State.reset = some (octets [0x83, 0x02]) := by
  decide +kernel
theorem test_rdinreg : reply [0x04, 0x00, 0x05, 0x00, 0x01]
      (withBank { State.reset.mem with inputRegisters := [(5, 0x00FF#16)] }) =
    some (octets [0x04, 0x02, 0x00, 0xFF]) := by decide +kernel
theorem test_rdinreg_beyond : reply [0x04, 0x00, 0x07, 0x00, 0x02] State.reset = some (octets [0x84, 0x02]) := by
  decide +kernel
theorem test_wrcoil : bank [0x05, 0x00, 0x03, 0x00, 0x00] (withBank someCoils) =
    some { someCoils with coils := [(0, true), (2, true), (6, true), (7, true), (8, true)] } := by decide +kernel
theorem test_wrcoil_value_first : reply [0x05, 0x00, 0x10, 0x12, 0x34] State.reset = some (octets [0x85, 0x03]) := by
  decide +kernel
theorem test_wrreg : bank [0x06, 0x00, 0x09, 0xFF, 0xFF] State.reset =
    some { State.reset.mem with holdingRegisters := [(9, 0xFFFF#16)] } := by decide +kernel
theorem test_wrreg_beyond : reply [0x06, 0x00, 0x0A, 0x00, 0x01] State.reset = some (octets [0x86, 0x02]) := by
  decide +kernel
theorem test_wrcoils : bank [0x0F, 0x00, 0x00, 0x00, 0x0A, 0x02, 0xCD, 0x01] State.reset = some someCoils := by
  decide +kernel
theorem test_wrcoils_value_first : reply [0x0F, 0x00, 0x64, 0x00, 0x0A, 0x01, 0xCD] State.reset =
    some (octets [0x8F, 0x03]) := by decide +kernel
theorem test_wrregs : bank [0x10, 0x00, 0x03, 0x00, 0x02, 0x04, 0xAB, 0xCD, 0x00, 0x01] State.reset =
    some { State.reset.mem with holdingRegisters := [(3, 0xABCD#16), (4, 0x0001#16)] } := by decide +kernel
theorem test_wrregs_all_or_nothing : bank [0x10, 0x00, 0x09, 0x00, 0x02, 0x04, 0x00, 0x01, 0x00, 0x02] State.reset =
    some State.reset.mem := by decide +kernel
theorem test_dbginfo : reply [0x41] State.reset = some (octets [0x41, 0x00, 0x04]) := by decide +kernel
theorem test_dbgset : (nextOf (dispatch (octets [0x42, 0x00, 0x01, 0x01, 0x00, 0x02, 0xBE, 0xEF]) State.reset)).map
      (fun t => (t.respPdu, t.trace)) =
    some (octets [0x42, 0x7E], [.setTrace 1#16 true (octets [0xBE, 0xEF])]) := by decide +kernel
theorem test_dbgset_too_long : reply [0x42, 0x00, 0x01, 0x00, 0x00, 0xFA, 0x00] State.reset =
    some (octets [0x42, 0x81]) := by decide +kernel
theorem test_dbgget : reply [0x43, 0x00, 0x00, 0x00, 0x02] State.reset = some (octets [0x43, 0x7E, 0x00, 0x02,
    0x00, 0x00, 0x00, 0x64, 0x00, 0x07, 0x01, 0x12, 0x34, 0xDE, 0xAD, 0xBE, 0xEF]) := by decide +kernel
theorem test_dbgget_early_stop : reply [0x43, 0x00, 0x00, 0x00, 0x03]
      { State.reset with build := { exampleBuild with maxFrame := 16, hash := [] } } =
    some (octets [0x43, 0x7E, 0x00, 0x01, 0x00, 0x00, 0x00, 0x64, 0x00, 0x03, 0x01, 0x12, 0x34]) := by decide +kernel
theorem test_dbglist : reply [0x44, 0x00, 0x02, 0x00, 0x03, 0x00, 0x00] State.reset =
    some (octets [0x44, 0x7E, 0x00, 0x00, 0x00, 0x00, 0x00, 0x64, 0x00, 0x03, 0x00, 0x2A, 0x01]) := by decide +kernel
theorem test_dbglist_atomic : reply [0x44, 0x00, 0x02, 0x00, 0x02, 0x03, 0xE7] State.reset =
    some (octets [0x44, 0x81]) := by decide +kernel
theorem test_dbgmd5 : (nextOf (dispatch (octets [0x45, 0xAD, 0xDE]) State.reset)).map
      (fun t => (t.dbgOrder, t.respPdu)) = some (.asADDE, octets [0x45, 0x7E] ++ exampleBuild.hash) := by decide +kernel
theorem test_unknown_functions : [[0x07], [0x90, 0x00], [0xFF]].map (fun p => reply p State.reset) =
    [some (octets [0x87, 0x01]), some (octets [0x90, 0x01]), some (octets [0xFF, 0x01])] := by decide +kernel
theorem test_capacity : [[0x03, 0x00, 0x00, 0x00, 0x40], [0x01, 0x00, 0x00, 0x03, 0xF1]].map (fun p => reply p
      { State.reset with build := { exampleBuild with maxFrame := 128, nHold := 64, nCoils := 1009 } }) =
    [some (octets [0x83, 0x04]), some (octets [0x81, 0x04])] := by decide +kernel

/-! ## The Serial Framer (B2, B4, P4) -/

theorem test_serial_accept : (nextOf (step (serialState (octets [0x01, 0x06, 0x00, 0x02, 0x12, 0x34, 0x25, 0x7D])))).map
      (fun t => ((t.fsm, t.txPhase, t.winTimer), (t.txen, t.trace), (responseFrame t, t.mem))) =
    some ((.responding, .leadIn, 100#32), (true, [.txEnAssert]),
      (octets [0x01, 0x06, 0x00, 0x02, 0x12, 0x34, 0x25, 0x7D],
        { State.reset.mem with holdingRegisters := [(2, 0x1234#16)] })) := by decide +kernel
theorem test_serial_drops : [[0x01], [0x01, 0x03, 0x00], [0x01, 0x03, 0x00, 0x00, 0x00, 0x0A, 0xCD, 0xC5],
      [0x02, 0x03, 0x00, 0x00, 0x00, 0x0A, 0xC5, 0xFE], [0x00, 0x03, 0x00, 0x00, 0x00, 0x01, 0x85, 0xDB]].map
      (fun f => outcome (serialState (octets f))) = List.replicate 5 (some (.idle, [])) := by decide +kernel
theorem test_serial_broadcast : (nextOf (step (serialState (octets [0xFF, 0x06, 0x00, 0x05, 0x00, 0x07, 0xCD, 0xD7])))).map
      (fun t => (t.fsm, t.trace, t.txen, t.mem.holdingRegisters)) = some (.idle, [], false, [(5, 0x0007#16)]) := by
  decide +kernel
theorem test_serial_overrun : (nextOf (step { serialState (octets [0x01, 0x06, 0x00, 0x02, 0x12, 0x34, 0x25, 0x7D]) with
      rxOverrun := true })).map (fun t => (t.fsm, t.rxOverrun, t.rxq, t.mem)) =
    some (.idle, false, [], State.reset.mem) := by decide +kernel
theorem test_serial_window_grows : (nextOf (step { serialState (List.replicate 8 0#8) with lastCount := 3 })).map
      (fun t => (t.fsm, t.lastCount, t.winTimer)) = some (.collecting, 8, 1718#32) := by decide +kernel
theorem test_serial_lead_in_ends : outcome (answering .leadIn 1#32 [.tick]) = some (.responding,
    (octets [0x01, 0x87, 0x01, 0x82, 0x30]).map .txByte) := by decide +kernel
theorem test_serial_frame_delay_ends : outcome (answering .frameDelay 1#32 [.tick]) = some (.idle, [.txEnDeassert]) := by
  decide +kernel

/-! ## The TCP Framer (C) -/

theorem test_tcp_read : outcome (tcpState (octets [0x00, 0x07, 0x00, 0x00, 0x00, 0x06, 0x01, 0x03, 0x00, 0x00, 0x00, 0x02])) =
    some (.idle, [.tcpSend 0 (octets [0x00, 0x07, 0x00, 0x00, 0x00, 0x07, 0x01, 0x03, 0x04, 0x12, 0x34, 0xAB, 0xCD])]) := by
  decide +kernel
theorem test_tcp_exception : outcome (tcpState (octets [0x00, 0x0F, 0x00, 0x00, 0x00, 0x02, 0x01, 0x2B])) =
    some (.idle, [.tcpSend 0 (octets [0x00, 0x0F, 0x00, 0x00, 0x00, 0x03, 0x01, 0xAB, 0x01])]) := by decide +kernel
theorem test_tcp_rejects : [[0x00, 0x0A, 0x00, 0x01, 0x00, 0x06, 0x01, 0x03, 0x00, 0x00, 0x00, 0x01],
      [0x00, 0x0B, 0x00, 0x00, 0x00, 0x00], [0x00, 0x11, 0x00, 0x00, 0x01, 0x01, 0x01, 0x03],
      [0x00, 0x0C, 0x00, 0x00, 0x00, 0x14, 0x01, 0x03, 0x00, 0x00, 0x00, 0x02, 0x00, 0x00, 0x00, 0x00],
      [0x00, 0x0E, 0x00, 0x00, 0x00, 0x01, 0x01]].map
      (fun m => (nextOf (step (tcpState (octets m)))).map fun t =>
        (t.trace, t.slots.map fun c => (c.live, c.hdrLen + c.sockq.length))) =
    List.replicate 5 (some ([], [(true, 0), (false, 0)])) := by decide +kernel
theorem test_tcp_prefix_waits : (nextOf (step (tcpState (octets [0x00, 0x01, 0x00])))).map
      (fun t => (t.trace, t.slots.map (·.hdrLen))) = some ([], [3, 0]) := by decide +kernel
theorem test_tcp_accept : (nextOf (step { tcpState [] with connPending := 1 })).map
      (fun t => (t.connPending, t.slots.map (·.live))) = some (0, [true, true]) := by decide +kernel
/-- Two live slots, each with a request 0x43 for variable 0: both are served in one pass, in slot order, and the
second samples a later tick and another value where the runtime changes them between the slots (R50, R290, log 15). -/
theorem test_tcp_two_slots : outcome { tcpState [] with
      inputs := [.pollTcp [[], [.tickAdvance 5#32, .varBytes 0 [0x02#8]]]]
      slots := [liveSlot (octets [0, 1, 0, 0, 0, 6, 1, 0x43, 0, 0, 0, 0]),
        liveSlot (octets [0, 2, 0, 0, 0, 6, 1, 0x43, 0, 0, 0, 0])] } =
    some (.idle,
      [.tcpSend 0 (octets [0, 1, 0, 0, 0, 12, 1, 0x43, 0x7E, 0, 0, 0, 0, 0, 0x64, 0, 1, 0x01]),
        .tcpSend 1 (octets [0, 2, 0, 0, 0, 12, 1, 0x43, 0x7E, 0, 0, 0, 0, 0, 0x69, 0, 1, 0x02])]) := by decide +kernel
theorem test_tcp_close : (nextOf (step { tcpState [] with inputs := [.tcpClose 0] })).map
      (fun t => t.slots.map (·.live)) = some [false, false] := by decide +kernel

/-! ## Witnesses: hypotheses that are met -/

/-- A configuration (the reset values of log 3) at another baud rate, with contents for what reset leaves open. -/
def launch (baud : Word32) : Launch :=
  { slaveId := 0x11#8, baud := baud, txenPresent := false, txenLeadIn := 0#32, bank := [.word .hold 2 7#16],
    frame := [0xAA#8], hdrs := [[0x01#8]], tick := 5#32 }

/-- A state whose next event is `e`. -/
def due (e : Event) : State := { State.reset with inputs := [e] }

theorem test_reset_legal : ConfigLegal State.reset.build State.reset.baud := by decide

theorem test_about_to_complete (f : List Octet) : AboutToComplete (serialState f) [] :=
  ⟨test_reset_legal, rfl, rfl, rfl, rfl⟩

theorem test_about_to_serve (m : List Octet) : AboutToServe (tcpState m) [] [] 0 (liveSlot m) m := by
  refine ⟨test_reset_legal, rfl, rfl, rfl, rfl, rfl, rfl, show 0 < 6 by decide, rfl, fun j d hj hd => ?_⟩
  rcases j with _ | _ | j
  · exact absurd rfl hj
  · cases hd; rfl
  · cases hd

theorem test_inv_answering (ph : TxPhase) (w : Word32) (es : List Event) (hw : 1 ≤ w.toNat) :
    Inv (answering ph w es) where
  config := test_reset_legal
  t15 := show 1718#32 = t15Of 9600#32 by decide
  t35 := show 6013#32 = t35Of 1718#32 by decide
  memWf := show State.reset.mem.wf by decide
  memWithin := show State.reset.mem.within exampleBuild by decide
  frame := show (octets [0x01, 0x87, 0x01] ++ List.replicate 256 0#8).length = 259 by rw [List.length_append, List.length_replicate]; rfl
  rxq := Nat.zero_le _
  frameLen := show 3 ≤ 259 by decide
  lastCount := Nat.zero_le _
  fsm := .inr (.inr rfl)
  quiet := fun h => absurd rfl h
  collecting := fun h => by cases h
  responding := fun _ => ⟨rfl, show 0x01#8 ≠ 0xFF#8 by decide, rfl, Nat.le_refl 3, show 3 ≤ 257 by decide, rfl⟩
  leadIn := fun _ _ => ⟨rfl, hw⟩
  frameDelay := fun _ _ => hw
  slots := rfl
  slotInv := fun c hc => by
    have : c = freeSlot := by
      simp only [answering, State.reset, List.mem_cons, List.not_mem_nil, or_false, or_self] at hc
      exact hc
    subst this
    exact ⟨rfl, by decide, fun _ => ⟨rfl, rfl⟩⟩
  respPdu := rfl

theorem test_witness_DecodeOfEncode : [Instr.rdhold (some ⟨0xFFFF#16, 0#16⟩), .wrregs none, .dbginfo,
    .wrcoils (some ⟨0#16, 10#16, 0xFF#8, List.replicate 255 0xA5#8⟩), .dbgset (some ⟨1#16, 1#8, 2#16, []⟩),
    .dbglist (some ⟨2#16, [3#16, 0#16]⟩)].all Instr.wf = true := by decide +kernel
theorem test_witness_UnknownFunctionCodes : 0x07#8 ∉ ([0x01#8, 0x02#8, 0x03#8, 0x04#8, 0x05#8, 0x06#8, 0x0F#8, 0x10#8,
      0x41#8, 0x42#8, 0x43#8, 0x44#8, 0x45#8] : List Octet) ∧
    0x45#8 ∈ ([0x01#8, 0x02#8, 0x03#8, 0x04#8, 0x05#8, 0x06#8, 0x0F#8, 0x10#8,
      0x41#8, 0x42#8, 0x43#8, 0x44#8, 0x45#8] : List Octet) := by decide
/-- R112 at the boundaries: one octet missing, and none, of a fixed part and of a variable part. -/
theorem test_witness_ShortPdus :
    (decode (octets [0x03, 0, 0, 0]) = .ok (.rdhold none) ∧ 4 < formatLength (octets [0x03, 0, 0, 0]) ∧
      isStandard (.rdhold none) = true) ∧
    (decode (octets [0x44, 0, 1, 0]) = .ok (.dbglist (some ⟨1#16, []⟩)) ∧ 4 < formatLength (octets [0x44, 0, 1, 0]) ∧
      isStandard (.dbglist (some ⟨1#16, []⟩)) = false) ∧
    (decode (octets [0x44, 0, 1, 0, 2]) = .ok (.dbglist (some ⟨1#16, [2#16]⟩)) ∧
      formatLength (octets [0x44, 0, 1, 0, 2]) ≤ 5) := by
  exact ⟨⟨rfl, by decide, rfl⟩, ⟨rfl, by decide, rfl⟩, ⟨rfl, by decide⟩⟩
theorem test_witness_CrcResidue : 4 ≤ (octets [0x01, 0x07, 0x41, 0xE2]).length ∧
    crcCheck (octets [0x01, 0x07, 0x41, 0xE2]) = true := by decide +kernel
theorem test_witness_SingleBit : 7 < (octets [0x01, 0x03, 0x00, 0x00, 0x00, 0x0A, 0xC5, 0xCD]).length ∧ 7 < 8 ∧
    crcCheck (octets [0x01, 0x03, 0x00, 0x00, 0x00, 0x0A, 0xC5, 0xCD]) = true := by decide +kernel
theorem test_witness_Timers (baud : Word32) (_ : baud = 1#32 ∨ baud = 19200#32 ∨ baud = 19201#32) :
    ConfigLegal (due (.reset (launch baud))).build (due (.reset (launch baud))).baud ∧ 1 ≤ (launch baud).baud.toNat ∧
      (due (.reset (launch baud))).inputs = .reset (launch baud) :: [] := by
  rcases ‹baud = 1#32 ∨ baud = 19200#32 ∨ baud = 19201#32› with rfl | rfl | rfl <;> exact ⟨by decide, by decide, rfl⟩
theorem test_witness_IllegalConfigurations :
    ¬ConfigLegal { exampleBuild with maxFrame := 15 } 9600#32 ∧ ¬ConfigLegal exampleBuild 0#32 ∧
    ConfigLegal { exampleBuild with maxFrame := 34 } 1#32 ∧ (launch 0#32).baud = 0#32 ∧ (launch 1#32).baud ≠ 0#32 := by
  decide
theorem test_witness_ResetEvent : ConfigLegal (due (.reset (launch 115200#32))).build (due (.reset (launch 115200#32))).baud ∧
    1 ≤ (launch 115200#32).baud.toNat ∧ (due (.reset (launch 115200#32))).inputs = .reset (launch 115200#32) :: [] :=
  ⟨by decide, by decide, rfl⟩
theorem test_witness_step_without_reset : ∃ t, step (due (.pollTcp [])) = .next t ∧
    ∀ e rest, (due (.pollTcp [])).inputs = e :: rest → e.isReset = false ∧ e.isAppWrite = false := by
  obtain ⟨t, h⟩ := next_of_isSome (r := step (due (.pollTcp []))) (by decide +kernel)
  exact ⟨t, h, fun e rest he => by cases he; exact ⟨rfl, rfl⟩⟩
theorem test_witness_ReceivedOctet : ({ due (.rxByte 1#8) with rxq := List.replicate 258 0#8 } : State).rxq.length < 256 + 3 ∧
    256 + 3 ≤ ({ due (.rxByte 1#8) with rxq := List.replicate 259 0#8 } : State).rxq.length ∧
    (due (.rxByte 1#8)).inputs = .rxByte 1#8 :: [] := by decide +kernel
theorem test_witness_SerialPoll : (due .pollSerial).fsm = .idle ∧ (due .pollSerial).rxq = [] ∧
    ({ due .pollSerial with rxq := [1#8] } : State).rxq ≠ [] ∧
    ({ due .pollSerial with fsm := .collecting } : State).fsm ≠ .idle := by decide
theorem test_witness_WindowTick : (serialState [1#8]).fsm = .collecting ∧ (serialState [1#8]).winTimer = 1#32 ∧
    (serialState [1#8]).rxq.length = (serialState [1#8]).lastCount ∧
    ({ serialState [1#8] with lastCount := 0 } : State).rxq.length ≠ 0 ∧
    1 < ({ serialState [1#8] with winTimer := 2#32 } : State).winTimer.toNat := by decide
/-- Each cause of a drop, the others absent. -/
theorem test_witness_FramingErrors :
    AboutToComplete { serialState (octets [0x01, 0x41, 0xC0, 0x10]) with rxOverrun := true } [] ∧
    (octets [0x01, 0x03, 0x00]).length ≤ 3 ∧
    crcCheck (octets [0x01, 0x03, 0x00, 0x00, 0x00, 0x0A, 0xCD, 0xC5]) = false ∧
    crcCheck (octets [0x00, 0x03, 0x00, 0x00, 0x00, 0x01, 0x85, 0xDB]) = true ∧
    (octets [0x00, 0x03, 0x00, 0x00, 0x00, 0x01, 0x85, 0xDB]).getD 0 0#8 ≠ State.reset.slaveId ∧
    (octets [0x00, 0x03, 0x00, 0x00, 0x00, 0x01, 0x85, 0xDB]).getD 0 0#8 ≠ 0xFF#8 :=
  ⟨⟨test_reset_legal, rfl, rfl, rfl, rfl⟩, by decide +kernel⟩
theorem test_witness_SerialStep : (serialState (octets [0x01, 0x41, 0xC0, 0x10])).rxOverrun = false ∧
    crcCheck (octets [0x01, 0x41, 0xC0, 0x10]) = true ∧
    (octets [0x01, 0x41, 0xC0, 0x10]).getD 0 0#8 = State.reset.slaveId ∧
    (((octets [0x01, 0x41, 0xC0, 0x10]).take 2).drop 1) = [0x41#8] ∧ decode [0x41#8] = .ok .dbginfo :=
  ⟨rfl, by decide +kernel, rfl, rfl, rfl⟩
theorem test_witness_Broadcast : (Instr.dbgmd5 (some 0xADDE#16)).wf = true ∧
    octets [0xFF, 0x45, 0xAD, 0xDE, 0xDD, 0x2D] = crcAppend 0xFF#8 (encode (.dbgmd5 (some 0xADDE#16))) := by
  decide +kernel
theorem test_witness_ResponsePhases : (answering .leadIn 1#32 [.tick]).fsm = .responding ∧
    (answering .leadIn 1#32 [.tick]).txPhase = .leadIn ∧ (answering .flush 1#32 [.txDrained]).txPhase = .flush ∧
    (answering .frameDelay 2#32 [.tick]).txPhase = .frameDelay ∧ 1 < (answering .frameDelay 2#32 [.tick]).winTimer.toNat := by
  decide
theorem test_witness_EventsWithoutARule : State.reset.inputs = [] ∧ (due .tick).fsm = .idle ∧ (due .txDrained).fsm ≠ .responding ∧
    (answering .flush 1#32 [.tick]).fsm = .responding ∧ (answering .flush 1#32 [.tick]).txPhase = .flush ∧
    (answering .leadIn 1#32 [.txDrained]).txPhase ≠ .flush := by decide
/-- For `n` the ticks of the frame delay, 6013 in these states. -/
theorem test_witness_ResponseIsSent (n : Nat) (_ : n = State.reset.t35.toNat) :
    (Inv (answering .leadIn 2#32 (Event.tick :: Event.tick :: Event.txDrained :: List.replicate n Event.tick)) ∧
      Event.tick :: Event.tick :: Event.txDrained :: List.replicate n Event.tick =
        List.replicate (2#32 : Word32).toNat Event.tick ++ (Event.txDrained :: List.replicate n Event.tick)) ∧
    Inv (answering .flush 1#32 (Event.txDrained :: List.replicate n Event.tick)) :=
  ⟨⟨test_inv_answering _ _ _ (by decide), rfl⟩, test_inv_answering _ _ _ (by decide)⟩
theorem test_witness_PassAccepts : 0 < ({ due (.pollTcp []) with connPending := 1 } : State).connPending ∧
    ([liveSlot [], freeSlot] : List Slot)[1]? = some freeSlot ∧ freeSlot.live = false ∧
    (∀ (j : Nat) (d : Slot), j < 1 → ([liveSlot [], freeSlot] : List Slot)[j]? = some d → d.live = true) ∧
    ∀ c ∈ [liveSlot [], liveSlot []], c.live = true := by
  refine ⟨by decide, rfl, rfl, fun j d hj hd => ?_, by decide⟩
  obtain rfl : j = 0 := by omega
  cases hd
  rfl
theorem test_witness_Prefix : (liveSlot (octets [0, 1, 0])).hdr.length = 6 ∧
    (liveSlot (octets [0, 1, 0])).hdrLen + (liveSlot (octets [0, 1, 0])).sockq.length < 6 := by decide
/-- Four octets of a prefix collected in an earlier pass, the rest of the request available in this one. -/
theorem test_about_to_serve_later : AboutToServe { tcpState [] with
      inputs := [.pollTcp [[.tickAdvance 1#32]]]
      slots := [{ liveSlot (octets [0, 2, 1, 0x41]) with hdr := octets [0, 7, 0, 0, 9, 9], hdrLen := 4 }, freeSlot] }
    [[.tickAdvance 1#32]] [] 0 { liveSlot (octets [0, 2, 1, 0x41]) with hdr := octets [0, 7, 0, 0, 9, 9], hdrLen := 4 }
    (octets [0, 7, 0, 0, 0, 2, 1, 0x41]) := by
  refine ⟨test_reset_legal, rfl, rfl, rfl, rfl, rfl, rfl, show 4 < 6 by decide, rfl, fun j d hj hd => ?_⟩
  rcases j with _ | _ | j
  · exact absurd rfl hj
  · cases hd; rfl
  · cases hd
/-- A slot at each turn: no connection, an incomplete prefix (none and five octets), a dropped and an accepted request. -/
theorem test_witness_ServingASlot : freeSlot.live = false ∧ (liveSlot []).received.length < 6 ∧
    (liveSlot (octets [0, 7, 0, 0, 0])).received.length = 5 ∧ (liveSlot (octets [0, 7, 0, 0, 0])).hdr.length = 6 ∧
    MbapDropped 256 (octets [0, 7, 0, 0, 0, 1, 1]) ∧ ¬MbapDropped 256 (octets [0, 7, 0, 0, 0, 2, 1, 0x41]) := by
  decide
theorem test_witness_PassServes : Inv (answering .flush 1#32 [.pollTcp [[], [.tickAdvance 1#32]]]) ∧
    (answering .flush 1#32 [.pollTcp [[], [.tickAdvance 1#32]]]).inputs = .pollTcp [[], [.tickAdvance 1#32]] :: [] :=
  ⟨test_inv_answering _ _ _ (by decide), rfl⟩
/-- Each of the five causes, in its order, on octets that meet no earlier one. -/
theorem test_witness_MalformedMbap : be16 0x00#8 0x01#8 ≠ 0#16 ∧ be16 0x00#8 0x00#8 = 0#16 ∧
    exampleBuild.maxFrame < (be16 0x01#8 0x01#8).toNat ∧
    (octets [0, 0x0D, 0, 0, 0, 6, 1, 3, 0, 0, 0, 2, 0]).length - 6 ≠ (be16 0#8 6#8).toNat ∧ be16 0#8 1#8 = 1#16 := by
  decide
theorem test_witness_TcpStep : let m := octets [0, 7, 0, 0, 0, 2, 1, 0x41]
    8 ≤ m.length ∧ m.length - 6 ≤ exampleBuild.maxFrame ∧ be16 (m.getD 2 0#8) (m.getD 3 0#8) = 0#16 ∧
    (be16 (m.getD 4 0#8) (m.getD 5 0#8)).toNat = m.length - 6 ∧ decode (m.drop 7) = .ok .dbginfo :=
  ⟨by decide, by decide, by decide, by decide, rfl⟩
theorem test_witness_TcpPass : ∃ t, step (tcpState (octets [0, 7, 0, 0, 0, 2, 1, 0x41])) = .next t ∧
    (tcpState (octets [0, 7, 0, 0, 0, 2, 1, 0x41])).inputs = [.pollTcp []] := by
  obtain ⟨t, h⟩ := next_of_isSome (r := step (tcpState (octets [0, 7, 0, 0, 0, 2, 1, 0x41]))) (by decide +kernel)
  exact ⟨t, h, rfl⟩
theorem test_witness_OnlyClose : ∃ t, step { tcpState [] with inputs := [.tcpClose 1] } = .next t ∧
    ({ tcpState [] with inputs := [.tcpClose 1] } : State).slots[0]? = some (liveSlot []) ∧ (liveSlot []).live = true ∧
    (Event.tcpClose 1).isReset = false ∧ Event.tcpClose 1 ≠ .tcpClose 0 := by
  obtain ⟨t, h⟩ := next_of_isSome (r := step { tcpState [] with inputs := [.tcpClose 1] }) (by decide +kernel)
  exact ⟨t, h, rfl, rfl, rfl, by decide⟩
theorem test_witness_SocketEvents : ConfigLegal (tcpState []).build (tcpState []).baud ∧
    0 < ({ due .tcpConnectWithdraw with connPending := 1 } : State).connPending ∧
    (tcpState []).slots[0]? = some (liveSlot []) ∧ (liveSlot []).live = true := by decide
theorem test_witness_Dispatch : exampleBuild.Legal ∧ [0x2B#8] ≠ ([] : List Octet) := by decide
theorem test_witness_Exceptions : isStandard (.wrreg (some ⟨0xFFFF#16, 1#16⟩)) = true ∧
    (nextOf (exec (.wrreg (some ⟨0xFFFF#16, 1#16⟩)) State.reset)).map
      (fun t => (t.respPdu.getD 0 0#8).getLsbD 7) = some true := by decide +kernel
theorem test_witness_DebugNeverRaise : isStandard (.dbgget none) = false ∧
    (nextOf (exec (.dbgget none) State.reset)).isSome = true := by decide +kernel
/-- Two states that differ in the transport, the framer, the configuration and the pending events. -/
theorem test_witness_Transport : let s₂ := { tcpState [] with fsm := .responding, slaveId := 9#8, mem := State.reset.mem }
    State.reset.build = s₂.build ∧ State.reset.mem = s₂.mem ∧ State.reset.dbgOrder = s₂.dbgOrder ∧
    State.reset.tick = s₂.tick ∧ State.reset.vars = s₂.vars ∧ State.reset ≠ s₂ ∧
    (nextOf (dispatch [0x41#8] State.reset)).isSome = true := by decide +kernel
/-- The counts at their bounds, on builds whose tables hold them. -/
theorem test_witness_Reads : (1#16 : Word16).toNat = 1 ∧ (0x7D0#16 : Word16).toNat = 2000 ∧ 2 + (2000 + 7) / 8 ≤ 256 ∧
    (0#16 : Word16).toNat + 2000 ≤ ({ exampleBuild with nCoils := 2000, nDisc := 2000 } : Build).nCoils ∧
    (0x7D#16 : Word16).toNat = 125 ∧ 2 + 2 * 125 ≤ 256 ∧
    (15#16 : Word16).toNat + 1 ≤ exampleBuild.nCoils ∧ exampleBuild.nCoils < (16#16 : Word16).toNat + 1 ∧
    128 < 2 + (1009 + 7) / 8 ∧ 128 < 2 + 2 * 64 := by decide
theorem test_witness_Writes : State.reset.mem.wf ∧ (15#16 : Word16).toNat < exampleBuild.nCoils ∧
    exampleBuild.nCoils ≤ (16#16 : Word16).toNat ∧ (9#16 : Word16).toNat < exampleBuild.nHold ∧
    exampleBuild.nHold ≤ (10#16 : Word16).toNat ∧ (2#8 : Octet).toNat = ((10#16 : Word16).toNat + 7) / 8 ∧
    (octets [0xCD, 0x01]).length = (2#8 : Octet).toNat ∧ (6#16 : Word16).toNat + (10#16 : Word16).toNat ≤ exampleBuild.nCoils ∧
    exampleBuild.nCoils < (7#16 : Word16).toNat + (10#16 : Word16).toNat ∧
    (0xF6#8 : Octet).toNat = ((0x7B0#16 : Word16).toNat + 7) / 8 ∧
    (4#8 : Octet).toNat = 2 * (2#16 : Word16).toNat ∧ (0xF6#8 : Octet).toNat = 2 * (0x7B#16 : Word16).toNat ∧
    (8#16 : Word16).toNat + (2#16 : Word16).toNat ≤ exampleBuild.nHold ∧
    exampleBuild.nHold < (9#16 : Word16).toNat + (2#16 : Word16).toNat := by
  decide
theorem test_witness_RepeatedWrites : State.reset.mem.wf ∧
    (nextOf (exec (.wrregs (some ⟨3#16, 2#16, 4#8, octets [0xAB, 0xCD, 0, 1]⟩)) State.reset)).isSome = true := by
  decide +kernel
/-- The four variables of the reset state are indices 0 to 3. -/
theorem test_variable_count : (variableCount State.reset).toNat = 4 := rfl
theorem test_witness_SetTrace : 7 ≤ exampleBuild.maxFrame ∧ (3#16 : Word16).toNat < 4 ∧ 4 ≤ (4#16 : Word16).toNat ∧
    (249#16 : Word16).toNat ≤ exampleBuild.maxFrame - 7 ∧ exampleBuild.maxFrame - 7 < (250#16 : Word16).toNat ∧
    (List.replicate 249 0#8 : List Octet).length = (249#16 : Word16).toNat := by decide +kernel
theorem test_witness_GetTrace : (10 ≤ exampleBuild.maxFrame ∧ exampleBuild.maxFrame ≤ 65534 ∧
      (0#16 : Word16).toNat ≤ (3#16 : Word16).toNat ∧ (3#16 : Word16).toNat < 4 ∧ 2#16 ≠ 0#16 ∧
      [3#16, 0#16].length = (2#16 : Word16).toNat ∧
      4 ≤ (4#16 : Word16).toNat ∧ (1#16 : Word16).toNat < (2#16 : Word16).toNat) ∧
    ∀ i ∈ [3#16, 0#16], i.toNat < 4 := ⟨by decide, by simp⟩
theorem test_witness_GetMd5 : 0x1234#16 ≠ 0xDEAD#16 ∧ 0x1234#16 ≠ 0xADDE#16 := by decide
/-- Every form a frame statement names goes on to a next state. -/
theorem test_witness_Frames : [Instr.rdcoil none, .rddisc (some ⟨4#16, 3#16⟩), .rdhold none, .rdinreg none, .dbginfo,
    .dbgget (some ⟨0#16, 2#16⟩), .dbglist none, .wrcoil (some ⟨3#16, 0xFF00#16⟩), .wrcoils none,
    .wrcoils (some ⟨0#16, 10#16, 2#8, octets [0xCD, 0x01]⟩), .wrreg (some ⟨2#16, 7#16⟩), .wrregs none,
    .wrregs (some ⟨3#16, 1#16, 2#8, octets [0, 1]⟩), .dbgset (some ⟨1#16, 1#8, 0#16, []⟩), .dbgmd5 none].all
      (fun i => (nextOf (exec i State.reset)).isSome) = true := by decide +kernel
theorem test_witness_StepKeepsTheInvariant : Inv (answering .flush 1#32 [.pollTcp []]) ∧
    ∃ t, step (answering .flush 1#32 [.pollTcp []]) = .next t :=
  ⟨test_inv_answering _ _ _ (by decide), next_of_isSome (by decide +kernel)⟩
theorem test_witness_EveryEvent : ConfigLegal (due (.reset (launch 300#32))).build (due (.reset (launch 300#32))).baud ∧
    ∀ l rest, (due (.reset (launch 300#32))).inputs = .reset l :: rest → 1 ≤ l.baud.toNat := by
  refine ⟨by decide, fun l rest h => ?_⟩
  cases h
  decide
theorem test_witness_Application : (due (.appWrite [.word .inreg 7 5#16])).inputs = .appWrite [.word .inreg 7 5#16] :: [] ∧
    State.reset.mem.wf ∧ 7 < wordSize exampleBuild .inreg ∧ 15 < bitSize exampleBuild .disc ∧
    [BankWrite.word .inreg 7 4#16, .word .inreg 7 5#16, .word .hold 7 6#16] =
      [.word .inreg 7 4#16] ++ .word .inreg 7 5#16 :: [.word .hold 7 6#16] ∧
    (∀ w ∈ [BankWrite.word .hold 7 6#16], ∀ x, w ≠ .word .inreg 7 x) ∧
    ∀ w ∈ [BankWrite.bit .coil 15 true], ∀ x, w ≠ .bit .disc 15 x := by
  refine ⟨rfl, by decide, by decide, by decide, rfl, ?_, ?_⟩ <;> simp
theorem test_witness_Runtime : (∃ t, step (due (.runtime [.tickAdvance 0xFFFFFFFF#32])) = .next t ∧ t.tick = 0x63#32) ∧
    (due (.runtime [.varBytes 1 [1#8, 2#8]])).inputs = .runtime [.varBytes 1 [1#8, 2#8]] :: [] ∧
    State.reset.vars[1]? = some [0x12#8, 0x34#8] ∧ [1#8, 2#8].length = [0x12#8, 0x34#8].length :=
  ⟨⟨_, rfl, by decide⟩, rfl, rfl, rfl⟩
theorem test_witness_Outputs : Inv (answering .frameDelay 1#32 [.tick]) ∧
    (∃ t, step (answering .frameDelay 1#32 [.tick]) = .next t) ∧
    ∀ e rest, (answering .frameDelay 1#32 [.tick]).inputs = e :: rest → e.isReset = false :=
  ⟨test_inv_answering _ _ _ (by decide), next_of_isSome (by decide +kernel), fun e rest h => by cases h; rfl⟩

end Sys2Proof.Tests
end

namespace Sys2Proof.Machine

open Sys2Proof

/-! ## What holds within an event too

`Inv` speaks of states between events. A completion passes through `Validating` and `Dispatching`, where the clauses
about the framer's phase do not hold; the others do, and every operation keeps them. -/

/-- The clauses of the invariant that do not depend on where the framer stands. -/
structure SteadyInv (s : State) : Prop where
  config : ConfigLegal s.build s.baud
  t15 : s.t15 = t15Of s.baud
  t35 : s.t35 = t35Of s.t15
  memWf : s.mem.wf
  memWithin : s.mem.within s.build
  frame : s.frame.length = s.build.rxCap
  rxq : s.rxq.length ≤ s.build.rxCap
  lastCount : s.lastCount ≤ s.build.rxCap
  slots : s.slots.length = s.build.maxSrvClients
  slotInv : ∀ c ∈ s.slots, SlotInv c

theorem Inv.steady {s : State} (h : Inv s) : SteadyInv s := { h with }

/-- An idle framer with an empty frame buffer and a released line is between events (R159, R164, R169). -/
theorem SteadyInv.idle {s : State} (h : SteadyInv s) (hf : s.fsm = .idle) (hl : s.frameLen = 0) (ht : s.txen = false)
    (hp : s.txPhase = .leadIn) (hq : s.respPdu = []) : Inv s :=
  { h with
    frameLen := by omega
    fsm := .inl hf
    quiet := fun _ => ⟨hl, ht, hp⟩
    collecting := by simp [hf]
    responding := by simp [hf]
    leadIn := by simp [hf]
    frameDelay := by simp [hf]
    respPdu := hq }

/-- The frame buffer holds a response to a request that came to this slave's own address (R164, R165). -/
def HoldsResponse (s : State) : Prop :=
  s.isBroadcast = false ∧ s.slaveId ≠ broadcastAddr ∧ s.frame.getD 0 0#8 = s.slaveId ∧
    3 ≤ s.frameLen ∧ s.frameLen ≤ 1 + s.build.maxFrame

theorem Inv.holdsResponse {s : State} (h : Inv s) (hf : s.fsm = .responding) :
    HoldsResponse s ∧ s.txen = s.txenPresent := by
  obtain ⟨hb, hs, ha, h3, hm, ht⟩ := h.responding hf
  exact ⟨⟨hb, hs, ha, h3, hm⟩, ht⟩

/-- So is a framer whose response is on its way, with the line driven where it is configured (R165, R170). -/
theorem SteadyInv.responding {s : State} (h : SteadyInv s) (hf : s.fsm = .responding) (hr : HoldsResponse s)
    (ht : s.txen = s.txenPresent)
    (hl : s.txPhase = .leadIn → s.txenPresent = true ∧ 1 ≤ s.winTimer.toNat)
    (hd : s.txPhase = .frameDelay → 1 ≤ s.winTimer.toNat) (hq : s.respPdu = []) : Inv s :=
  have ⟨hb, hs, ha, h3, hm⟩ := hr
  { h with
    frameLen := by
      rw [Build.rxCap]
      omega
    fsm := .inr (.inr hf)
    quiet := fun hn => absurd hf hn
    collecting := by simp [hf]
    responding := fun _ => ⟨hb, hs, ha, h3, hm, ht⟩
    leadIn := fun _ => hl
    frameDelay := fun _ => hd
    respPdu := hq }

theorem Inv.t15_pos {s : State} (h : Inv s) : 1 ≤ s.t15.toNat := by
  have := (t15Of_bounds h.config.2).1
  rw [h.t15]
  omega

theorem Inv.t35_pos {s : State} (h : Inv s) : 1 ≤ s.t35.toNat := by
  obtain ⟨hl, hu, -⟩ := t15Of_bounds h.config.2
  rw [h.t35, h.t15, t35Of_toNat hu]
  omega

/-! ## Everything but the Serial Framer -/

/-- The invariant is kept by whatever changes the bank and the connection table within their own clauses, and the
fields the invariant does not speak of. -/
theorem Inv.off_line {s : State} (h : Inv s) {m : Memory} {slots : List Slot} {n : Nat} {o : DbgOrder} {tick : Word32}
    {vars : List (List Octet)} {trace : List Output} {es : List Event} (hm : m.wf) (hw : m.within s.build)
    (hl : slots.length = s.build.maxSrvClients) (hs : ∀ c ∈ slots, SlotInv c) :
    Inv { s with
      mem := m, slots := slots, connPending := n, dbgOrder := o, tick := tick, vars := vars, trace := trace
      inputs := es, respPdu := [] } :=
  { h with memWf := hm, memWithin := hw, slots := hl, slotInv := hs, respPdu := rfl }

theorem inv_inputs {s : State} (h : Inv s) (es : List Event) : Inv { s with inputs := es } := { h with }

theorem inv_runtimeChanges {s : State} (h : Inv s) (cs : List RuntimeChange) : Inv (runtimeChanges cs s) := { h with }

theorem inv_appWrite {s : State} (h : Inv s) (ws : List BankWrite) : Inv (appWrite ws s) :=
  { h with memWf := applyWrites_wf ws h.memWf, memWithin := applyWrites_within ws h.memWithin }

theorem inv_connPending {s : State} (h : Inv s) (n : Nat) : Inv { s with connPending := n } := { h with }

theorem Inv.slot {s : State} (h : Inv s) {i : Nat} {c : Slot} (hc : s.slots[i]? = some c) : SlotInv c :=
  h.slotInv c (List.mem_of_getElem? hc)

theorem slotInv_set {slots : List Slot} (h : ∀ c ∈ slots, SlotInv c) {i : Nat} {d : Slot} (hd : SlotInv d) :
    ∀ c ∈ slots.set i d, SlotInv c :=
  fun c hc => (List.mem_or_eq_of_mem_set hc).elim (h c) (· ▸ hd)

theorem inv_setSlot {s : State} (h : Inv s) {i : Nat} {d : Slot} (hd : SlotInv d) : Inv (s.setSlot i d) :=
  { h with slots := by simpa using h.slots, slotInv := slotInv_set h.slotInv hd }

/-- A live slot with a whole header buffer that is not full is between requests. -/
theorem slotInv_live {c : Slot} (hl : c.live = true) (h6 : c.hdr.length = 6) (hn : c.hdrLen < 6) : SlotInv c :=
  ⟨h6, hn, fun h => by simp [hl] at h⟩

/-! ### The TCP Framer -/

theorem inv_tcpAccept {s : State} (h : Inv s) : Inv (tcpAccept s) := by
  obtain e | ⟨i, c, hc, -, -, e⟩ := tcpAccept_cases s
  · rwa [e]
  · rw [e]
    have ha : SlotInv (acceptSlot c) := slotInv_live rfl (h.slot hc).hdr (Nat.zero_lt_succ 5)
    exact inv_connPending (inv_setSlot h ha) _

/-- A handler's effect, and then the sending of its response on slot `i` (R201). -/
theorem inv_mbapEmit {s t : State} (h : Inv s) {i : Nat} {d : Slot} (unit : Octet)
    (hd : SlotInv { d with hdrLen := 0 }) (ht : Handled (s.setSlot i d) t) : Inv (mbapEmit i d unit t) := by
  obtain ⟨m, o, out, q, rfl, -, -, hwf, hin, -⟩ := ht
  refine h.off_line (hwf h.memWf) (hin h.memWithin) ?_ ?_
  · simpa using h.slots
  · simpa using slotInv_set h.slotInv hd

theorem inv_tcpServe (i : Nat) {s : State} (h : Inv s) : ∃ t, tcpServe i s = .next t ∧ Inv t := by
  obtain e | ⟨c, d, hc, -, hl, hh, ⟨hn, e⟩ | ⟨p, unit, t, -, ht, e⟩⟩ := tcpServe_cases i h.config.1
  · exact ⟨s, e, h⟩
  all_goals
    have h6 : d.hdr.length = 6 := (hh (h.slot hc).hdrLen.le).trans (h.slot hc).hdr
  · exact ⟨_, e, inv_setSlot h (slotInv_live hl h6 hn)⟩
  · exact ⟨_, e, inv_mbapEmit h unit (slotInv_live hl h6 (Nat.zero_lt_succ 5)) ht⟩

theorem inv_tcpPoll {s t : State} (h : Inv s) {between : List (List RuntimeChange)}
    (ht : tcpPoll between s = .next t) : Inv t := by
  obtain ⟨u, hu, hi⟩ := tcpServeAll_keeps (P := Inv) (fun i _ => inv_tcpServe i)
    (fun cs _ h => inv_runtimeChanges h cs) (List.range s.build.maxSrvClients) between (tcpAccept s)
    (inv_tcpAccept h)
  rw [tcpPoll, hu] at ht
  cases ht
  exact hi

theorem inv_tcpData {s : State} (h : Inv s) (i : Nat) (octets : List Octet) : Inv (tcpData i octets s) := by
  rw [tcpData]
  split
  · rename_i c hc
    split
    · exact inv_setSlot h (slotInv_live ‹_› (h.slot hc).hdr (h.slot hc).hdrLen)
    · exact h
  · exact h

theorem inv_tcpClose {s : State} (h : Inv s) (i : Nat) : Inv (tcpClose i s) := by
  rw [tcpClose]
  split
  · rename_i c hc
    exact inv_setSlot h ⟨(h.slot hc).hdr, Nat.zero_lt_succ 5, fun _ => ⟨rfl, rfl⟩⟩
  · exact h

/-! ## The Serial Framer -/

theorem word_pos {w : Word32} (h : w ≠ 0#32) : 1 ≤ w.toNat := by
  bv_omega

/-- An octet that finds room is queued (R40). -/
theorem rxByte_queued {s : State} (b : Octet) (h : s.rxq.length < s.build.rxCap) :
    rxByte b s = { s with rxq := s.rxq ++ [b] } := by
  simp [rxByte, overrunFlag, h, Nat.not_le.2 h]

/-- An octet that finds the queue full is lost, and the loss is flagged (R40). -/
theorem rxByte_lost {s : State} (b : Octet) (h : s.build.rxCap ≤ s.rxq.length) :
    rxByte b s = { s with rxOverrun := true } := by
  simp [rxByte, overrunFlag, h, Nat.not_lt.2 h]

theorem inv_rxByte {s : State} (h : Inv s) (b : Octet) : Inv (rxByte b s) := by
  by_cases hr : s.rxq.length < s.build.rxCap
  · rw [rxByte_queued b hr]
    refine { h with rxq := ?_, collecting := fun hf => ?_ }
    · rw [List.length_append, List.length_singleton]
      exact hr
    · obtain ⟨hw, h1, hl⟩ := h.collecting hf
      rw [List.length_append]
      exact ⟨hw, h1, Nat.le_add_right_of_le hl⟩
  · rw [rxByte_lost b (Nat.le_of_not_lt hr)]
    exact { h with }

/-- A window starts on the octets available (R153, R155). -/
theorem inv_startWindow {s : State} (h : Inv s) (hf : s.fsm ≠ .responding) (hq : s.rxq ≠ []) :
    Inv { startWindow s with fsm := .collecting } :=
  { h with
    lastCount := h.rxq
    fsm := .inr (.inl rfl)
    quiet := fun _ => h.quiet hf
    collecting := fun _ => ⟨h.t15_pos, List.length_pos_of_ne_nil hq, Nat.le_refl _⟩
    responding := nofun
    leadIn := nofun
    frameDelay := nofun }

theorem inv_rtuPoll {s : State} (h : Inv s) : Inv (rtuPoll s) := by
  rw [rtuPoll]
  split
  · rename_i hc
    exact inv_startWindow h (by simp [hc.1]) hc.2
  · exact h

/-- A timer that has not run out goes on running. -/
theorem inv_countDown {s : State} (h : Inv s) (hw : (countDown s).winTimer ≠ 0#32) : Inv (countDown s) :=
  { h with
    collecting := fun hf => ⟨word_pos hw, (h.collecting hf).2⟩
    leadIn := fun hf hp => ⟨(h.leadIn hf hp).1, word_pos hw⟩
    frameDelay := fun _ _ => word_pos hw }

/-! ### The events of `Responding` (R166 to R169) -/

/-- The response begins: the line stays as it is, and the flush follows (R167). -/
theorem inv_send {s : State} (h : SteadyInv s) (hf : s.fsm = .responding) (hr : HoldsResponse s)
    (ht : s.txen = s.txenPresent) (hq : s.respPdu = []) : Inv (send s) :=
  SteadyInv.responding (s := send s) { h with } hf hr ht nofun nofun hq

theorem inv_leadInTick {s : State} (h : Inv s) (hf : s.fsm = .responding) : Inv (leadInTick s) := by
  obtain ⟨hr, ht⟩ := h.holdsResponse hf
  simp only [leadInTick]
  split
  · exact inv_send (s := countDown s) { h with } hf hr ht h.respPdu
  · exact inv_countDown h ‹_›

/-- The line is released where it was driven, and the framer is idle (R169, R170). -/
theorem inv_release {s : State} (h : SteadyInv s) (ht : s.txen = s.txenPresent) (hq : s.respPdu = []) :
    Inv (release s) := by
  rw [release]
  split
  · exact SteadyInv.idle { h with } rfl rfl rfl rfl hq
  · rename_i hp
    exact SteadyInv.idle { h with } rfl rfl (ht.trans (Bool.not_eq_true _ ▸ hp)) rfl hq

theorem inv_frameDelayTick {s : State} (h : Inv s) (hf : s.fsm = .responding) : Inv (frameDelayTick s) := by
  obtain ⟨-, ht⟩ := h.holdsResponse hf
  simp only [frameDelayTick]
  split
  · exact inv_release (s := countDown s) { h with } ht h.respPdu
  · exact inv_countDown h ‹_›

theorem inv_txDrained {s : State} (h : Inv s) : Inv (txDrained s) := by
  rw [txDrained]
  split
  · rename_i hc
    obtain ⟨hf, -⟩ := hc
    obtain ⟨hr, ht⟩ := h.holdsResponse hf
    exact SteadyInv.responding { h with } hf hr ht nofun (fun _ => h.t35_pos) h.respPdu
  · exact h

/-! ### Completion (R158 to R165) -/

/-- What a completion can do: drop the frame, or have it handled and answer it. -/
theorem rtuComplete_cases {s t : State} (hb : s.build.Legal) (hl : s.lastCount = s.rxq.length)
    (h : rtuComplete s = .next t) :
    (∃ d, rtuVerdict s.rxOverrun s.slaveId s.rxq = some d ∧
      t = toIdle { validateCrc (takeFrame s) s.rxq with rxOverrun := false }) ∨
    (rtuVerdict s.rxOverrun s.slaveId s.rxq = none ∧
      ∃ u, Handled (accepted s) u ∧ t = rtuRespond (placeResponse u)) := by
  rcases hv : rtuVerdict s.rxOverrun s.slaveId s.rxq with _ | d
  · obtain ⟨-, h4, -⟩ := rtuVerdict_none.1 hv
    have hp : (s.rxq.take (s.rxq.length - 2)).drop 1 ≠ [] := by
      rw [← List.length_pos_iff, List.length_drop, List.length_take]
      omega
    obtain ⟨u, hu, hh⟩ := dispatch_handled (s := accepted s) hb hp
    rw [rtuComplete_accept hl hv, hu] at h
    cases h
    exact .inr ⟨rfl, u, hh, rfl⟩
  · rw [rtuComplete_drop hl hv] at h
    cases h
    exact .inl ⟨d, rfl, rfl⟩

/-- What a `Tick` can do to the framer (R155, R166, R169, R172). -/
theorem serialTick_cases {s t : State} (h : serialTick s = .next t) :
    t = s ∨
    (s.fsm = .collecting ∧ (countDown s).winTimer ≠ 0#32 ∧ t = countDown s) ∨
    (s.fsm = .collecting ∧ s.rxq.length ≠ s.lastCount ∧ t = startWindow (countDown s)) ∨
    (s.fsm = .collecting ∧ s.lastCount = s.rxq.length ∧ rtuComplete (countDown s) = .next t) ∨
    (s.fsm = .responding ∧ t = leadInTick s) ∨
    (s.fsm = .responding ∧ t = frameDelayTick s) := by
  have goes {u : State} (h : (.next u : Result) = .next t) : t = u := (Host.Outcome.next.inj h).symm
  cases hf : s.fsm with
  | collecting =>
    simp only [serialTick, hf] at h
    obtain ⟨-, h⟩ | ⟨hw, h⟩ := ite_cases h
    · obtain ⟨hl, h⟩ | ⟨hl, h⟩ := ite_cases h
      · exact .inr (.inr (.inr (.inl ⟨rfl, hl.symm, h⟩)))
      · exact .inr (.inr (.inl ⟨rfl, hl, goes h⟩))
    · exact .inr (.inl ⟨rfl, hw, goes h⟩)
  | responding =>
    cases hp : s.txPhase <;> simp only [serialTick, hf, hp] at h
    case leadIn => exact .inr (.inr (.inr (.inr (.inl ⟨rfl, goes h⟩))))
    case flush => exact .inl (goes h)
    case frameDelay => exact .inr (.inr (.inr (.inr (.inr ⟨rfl, goes h⟩))))
  | idle | validating | dispatching =>
    simp only [serialTick, hf] at h
    exact .inl (goes h)

/-- A frame taken leaves the buffers within their capacity (R36, R158). -/
theorem steadyInv_takeFrame {s : State} (h : SteadyInv s) : SteadyInv (takeFrame s) :=
  { h with
    frame := by
      refine (overwrite_length ?_).trans h.frame
      rw [h.frame, List.length_take]
      have := h.lastCount
      omega
    rxq := (List.drop_sublist ..).length_le.trans h.rxq }

/-- Validation changes the accumulator registers only (R134, R159). -/
theorem validateCrc_eq (s : State) (f : List Octet) :
    ∃ hi lo, validateCrc s f = { s with crcHi := hi, crcLo := lo } := by
  rw [validateCrc]
  split
  · exact ⟨_, _, rfl⟩
  · exact ⟨_, _, rfl⟩

theorem steadyInv_accepted {s : State} (h : SteadyInv s) : SteadyInv (accepted s) :=
  { steadyInv_takeFrame h with }

/-- A handler changes the bank, the debug bit and the trace, and leaves a response of 2 to `MAX_FRAME` octets. -/
theorem Handled.keeps {s t : State} (h : Handled s t) :
    t = { s with mem := t.mem, dbgOrder := t.dbgOrder, trace := t.trace, respPdu := t.respPdu } ∧
      2 ≤ t.respPdu.length ∧ t.respPdu.length ≤ s.build.maxFrame := by
  obtain ⟨m, o, out, q, rfl, h2, hm, -⟩ := h
  exact ⟨rfl, h2, hm⟩

theorem Handled.steadyInv {s t : State} (ht : Handled s t) (h : SteadyInv s) : SteadyInv t := by
  obtain ⟨m, o, out, q, rfl, -, -, hwf, hin, -⟩ := ht
  exact { h with memWf := hwf h.memWf, memWithin := hin h.memWithin }

/-- A response of at most `MAX_FRAME` octets fits behind the address (R163). -/
theorem steadyInv_placeResponse {s : State} (h : SteadyInv s) (hq : s.respPdu.length ≤ s.build.maxFrame) :
    SteadyInv (placeResponse s) :=
  { h with
    frame := by
      refine (overwrite_length ?_).trans h.frame
      rw [h.frame, Build.rxCap]
      omega }

/-- The response of an addressed request begins: with the lead-in, or at once (R165). -/
theorem inv_respondAddressed {s : State} (h : SteadyInv s) (hr : HoldsResponse s) (ht : s.txen = false)
    (hq : s.respPdu = []) : Inv (respondAddressed s) := by
  simp only [respondAddressed]
  split
  · rename_i hp
    split
    · exact inv_send { h with } rfl hr hp.symm hq
    · rename_i hl
      exact SteadyInv.responding { h with } rfl hr hp.symm (fun _ => ⟨hp, word_pos hl⟩) nofun hq
  · rename_i hp
    exact inv_send { h with } rfl hr (ht.trans (Bool.eq_false_of_not_eq_true hp).symm) hq

/-- The response placed behind the address of an accepted frame is one of this slave, unless the frame was a
broadcast (R159, R163). -/
theorem holdsResponse_placeResponse {s u : State} (hv : rtuVerdict s.rxOverrun s.slaveId s.rxq = none)
    (hl : s.lastCount = s.rxq.length) (hu : Handled (accepted s) u) (hb : u.isBroadcast = false) :
    HoldsResponse (placeResponse u) := by
  obtain ⟨he, h2, hm⟩ := hu.keeps
  obtain ⟨-, h4, -, ha⟩ := rtuVerdict_none.1 hv
  obtain ⟨a, rest, hx⟩ := List.exists_cons_of_length_pos (l := s.rxq) (by omega)
  have hna : a ≠ broadcastAddr := by
    rw [he] at hb
    simpa [accepted, broadcastFlag, hx] using hb
  have has : a = s.slaveId := (by simpa [hx] using ha : a = s.slaveId ∨ a = 0xFF#8).resolve_right hna
  have hf : u.frame = a :: (rest ++ s.frame.drop s.rxq.length) := by
    rw [he]
    refine (takeFrame_frame hl).1.trans ?_
    simp [overwrite, hx]
  have hs : a = u.slaveId := has.trans (congrArg State.slaveId he).symm
  have hn : u.build = s.build := by rw [he]; rfl
  refine ⟨hb, hs ▸ hna, (placeResponse_frame hf).1.trans hs, Nat.add_le_add_left h2 1, Nat.add_le_add_left ?_ 1⟩
  exact hn ▸ hm

/-- A completed frame is dropped or answered (R158 to R165). -/
theorem inv_rtuComplete {s t : State} (h : SteadyInv s) (hl : s.lastCount = s.rxq.length) (ht : s.txen = false)
    (hp : s.txPhase = .leadIn) (hq : s.respPdu = []) (hc : rtuComplete s = .next t) : Inv t := by
  obtain ⟨d, -, rfl⟩ | ⟨hv, u, hu, rfl⟩ := rtuComplete_cases h.config.1 hl hc
  · obtain ⟨hi, lo, e⟩ := validateCrc_eq (takeFrame s) s.rxq
    rw [e]
    exact SteadyInv.idle { steadyInv_takeFrame h with } rfl rfl ht hp hq
  · obtain ⟨he, -, hm⟩ := hu.keeps
    have hn : u.build = s.build := by rw [he]; rfl
    have hx : u.txen = false := (congrArg State.txen he).trans ht
    have hd : SteadyInv (placeResponse u) :=
      steadyInv_placeResponse (hu.steadyInv (steadyInv_accepted h)) (hn ▸ hm)
    rw [rtuRespond]
    split
    · exact SteadyInv.idle { hd with } rfl rfl hx ((congrArg State.txPhase he).trans hp) rfl
    · rename_i hb
      exact inv_respondAddressed hd (holdsResponse_placeResponse hv hl hu (Bool.eq_false_of_not_eq_true hb)) hx rfl

theorem inv_serialTick {s t : State} (h : Inv s) (ht : serialTick s = .next t) : Inv t := by
  obtain rfl | ⟨-, hw, rfl⟩ | ⟨hf, hl, rfl⟩ | ⟨hf, hl, hc⟩ | ⟨hf, rfl⟩ | ⟨hf, rfl⟩ := serialTick_cases ht
  · exact h
  · exact inv_countDown h hw
  · obtain ⟨-, h1, h2⟩ := h.collecting hf
    have hq : s.rxq ≠ [] := List.length_pos_iff.1 (by omega)
    have e : startWindow (countDown s) = { startWindow s with fsm := .collecting } := by rw [← hf]; rfl
    exact e ▸ inv_startWindow h (by simp [hf]) hq
  · obtain ⟨-, hx, hp⟩ := h.quiet (by simp [hf])
    exact inv_rtuComplete (s := countDown s) { h.steady with } hl hx hp h.respPdu hc
  · exact inv_leadInTick h hf
  · exact inv_frameDelayTick h hf

/-! ## Reset and the whole step -/

theorem inv_resetState {l : Launch} {s : State} (h : ConfigLegal s.build l.baud) : Inv (resetState l s) where
  config := h
  t15 := rfl
  t35 := rfl
  memWf := applyWrites_wf _ emptyBank_wf
  memWithin := applyWrites_within _ emptyBank_within
  frame := fitTo_length ..
  rxq := Nat.zero_le _
  frameLen := Nat.zero_le _
  lastCount := Nat.zero_le _
  fsm := .inl rfl
  quiet := fun _ => ⟨rfl, rfl, rfl⟩
  collecting := nofun
  responding := nofun
  leadIn := nofun
  frameDelay := nofun
  slots := by simp [resetState]
  slotInv := by
    intro c hc
    obtain ⟨i, -, rfl⟩ := List.mem_map.1 hc
    exact ⟨fitTo_length .., Nat.zero_lt_succ 5, fun _ => ⟨rfl, rfl⟩⟩
  respPdu := rfl

/-- A `Reset` goes on exactly when it brings a legal configuration. -/
theorem resetEvent_eq_next {l : Launch} {s t : State} :
    resetEvent l s = .next t ↔ ConfigLegal s.build l.baud ∧ t = resetState l s := by
  rw [resetEvent]
  split
  · rename_i hc
    exact ⟨fun h => ⟨hc, (Host.Outcome.next.inj h).symm⟩, fun h => congrArg _ h.2.symm⟩
  · rename_i hc
    exact ⟨nofun, fun h => absurd h.1 hc⟩

/-- Every event leaves the invariant as it found it. -/
theorem inv_handle {e : Event} {s t : State} (h : Inv s) (ht : handle e s = .next t) : Inv t := by
  cases e with
  | reset l =>
    obtain ⟨hc, rfl⟩ := resetEvent_eq_next.1 ht
    exact inv_resetState hc
  | pollTcp between => exact inv_tcpPoll h ht
  | tick => exact inv_serialTick h ht
  | pollSerial => cases ht; exact inv_rtuPoll h
  | rxByte b => cases ht; exact inv_rxByte h b
  | txDrained => cases ht; exact inv_txDrained h
  | tcpConnect => cases ht; exact inv_connPending h _
  | tcpConnectWithdraw => cases ht; exact inv_connPending h _
  | tcpData i octets => cases ht; exact inv_tcpData h i octets
  | tcpClose i => cases ht; exact inv_tcpClose h i
  | appWrite ws => cases ht; exact inv_appWrite h ws
  | runtime cs => cases ht; exact inv_runtimeChanges h cs

/-- Settles O54: the step handles at most one event, and each event keeps the invariant. -/
theorem stepKeepsTheInvariant : Obligations.StepKeepsTheInvariant := by
  intro s t h ht
  obtain ⟨-, rfl⟩ | ⟨e, rest, -, ht⟩ := step_cases ht
  · exact h
  · exact inv_handle (inv_inputs h rest) ht

/-! ## What an event other than `Reset` leaves -/

/-- The trace of `t` is the trace of `s` with outputs added of which each meets `P`. -/
def Emits (P : Output → Prop) (s t : State) : Prop := ∃ out, t.trace = s.trace ++ out ∧ ∀ o ∈ out, P o

section emits

variable {P Q : Output → Prop} {s t u : State}

theorem emits_none (h : t.trace = s.trace) : Emits P s t := ⟨[], by simp [h], by simp⟩

theorem Emits.trans (h : Emits P s t) (h' : Emits P t u) : Emits P s u := by
  obtain ⟨a, ha, pa⟩ := h
  obtain ⟨b, hb, pb⟩ := h'
  refine ⟨a ++ b, by rw [hb, ha, List.append_assoc], fun o ho => ?_⟩
  exact (List.mem_append.1 ho).elim (pa o) (pb o)

theorem Emits.mono (h : Emits P s t) (hpq : ∀ o, P o → Q o) : Emits Q s t := by
  obtain ⟨a, ha, pa⟩ := h
  exact ⟨a, ha, fun o ho => hpq o (pa o ho)⟩

end emits

/-- From `s` to `t` the build and the configuration stay (R353), the inputs that the runtime owns change as `cs` says
(R50, R290), and outputs are added of which each meets `P`. -/
structure Effect (cs : List RuntimeChange) (P : Output → Prop) (s t : State) : Prop where
  build : t.build = s.build := by rfl
  slaveId : t.slaveId = s.slaveId := by rfl
  baud : t.baud = s.baud := by rfl
  t15 : t.t15 = s.t15 := by rfl
  t35 : t.t35 = s.t35 := by rfl
  txenPresent : t.txenPresent = s.txenPresent := by rfl
  txenLeadIn : t.txenLeadIn = s.txenLeadIn := by rfl
  tick : t.tick = tickAfter cs s.tick := by rfl
  vars : t.vars = varsAfter cs s.vars := by rfl
  emits : Emits P s t := by exact emits_none rfl

section effect

variable {P Q : Output → Prop} {s t u : State} {cs ds : List RuntimeChange}

theorem Effect.refl : Effect [] P s s := {}

theorem Effect.trans (h : Effect cs P s t) (h' : Effect ds P t u) : Effect (cs ++ ds) P s u where
  build := h'.build.trans h.build
  slaveId := h'.slaveId.trans h.slaveId
  baud := h'.baud.trans h.baud
  t15 := h'.t15.trans h.t15
  t35 := h'.t35.trans h.t35
  txenPresent := h'.txenPresent.trans h.txenPresent
  txenLeadIn := h'.txenLeadIn.trans h.txenLeadIn
  tick := by rw [h'.tick, h.tick, tickAfter, tickAfter, tickAfter, List.foldl_append]
  vars := by rw [h'.vars, h.vars, varsAfter, varsAfter, varsAfter, List.foldl_append]
  emits := h.emits.trans h'.emits

theorem Effect.mono (h : Effect cs P s t) (hpq : ∀ o, P o → Q o) : Effect cs Q s t :=
  { h with emits := h.emits.mono hpq }

theorem effect_runtimeChanges (cs : List RuntimeChange) (s : State) : Effect cs P s (runtimeChanges cs s) := {}

end effect

/-! ### The TCP Framer -/

/-- An output that is none of the serial line's. -/
def OffLine (o : Output) : Prop := o.isTxEn = false ∧ o.isTxByte = false

theorem Handled.effect {s t : State} (h : Handled s t) : Effect [] OffLine s t := by
  obtain ⟨m, o, out, q, rfl, -, -, -, -, -, -, ho⟩ := h
  exact { emits := ⟨out, rfl, fun x hx => ⟨(ho x hx).2.1, (ho x hx).1⟩⟩ }

theorem effect_tcpAccept (s : State) : Effect [] OffLine s (tcpAccept s) := by
  obtain e | ⟨i, c, -, -, -, e⟩ := tcpAccept_cases s <;> rw [e] <;> exact {}

theorem effect_mbapEmit (i : Nat) (c : Slot) (unit : Octet) (s : State) :
    Effect [] OffLine s (mbapEmit i c unit s) where
  emits := ⟨_, rfl, by simp [OffLine, Output.isTxEn, Output.isTxByte]⟩

theorem effect_tcpServe {i : Nat} {s t : State} (h : s.build.Legal) (ht : tcpServe i s = .next t) :
    Effect [] OffLine s t := by
  obtain e | ⟨c, d, -, -, -, -, ⟨-, e⟩ | ⟨p, unit, u, -, hu, e⟩⟩ := tcpServe_cases i h <;> rw [e] at ht <;> cases ht
  · exact .refl
  · exact {}
  · have hd : Effect [] OffLine s (s.setSlot i d) := {}
    exact (hd.trans hu.effect).trans (effect_mbapEmit i d unit u)

/-- A pass over slots brings the changes that come with those slots (log 15). -/
theorem effect_tcpServeAll {is : List Nat} {between : List (List RuntimeChange)} {s t : State} (h : s.build.Legal)
    (ht : tcpServeAll is between s = .next t) : Effect (between.take is.length).flatten OffLine s t := by
  induction is generalizing between s with
  | nil => cases ht; exact .refl
  | cons i is ih =>
    obtain ⟨u, hu, ht⟩ := andThen_eq_next.1 ht
    have h1 := (effect_runtimeChanges (between.headD []) s).trans (effect_tcpServe h hu)
    have h2 := h1.trans (ih (h1.build ▸ h) ht)
    cases between <;> simpa using h2

theorem effect_tcpPoll {between : List (List RuntimeChange)} {s t : State} (h : s.build.Legal)
    (ht : tcpPoll between s = .next t) : Effect (between.take s.build.maxSrvClients).flatten OffLine s t := by
  have ha := effect_tcpAccept s
  simpa using ha.trans (effect_tcpServeAll (ha.build ▸ h) ht)

theorem effect_tcpData {P : Output → Prop} (i : Nat) (octets : List Octet) (s : State) :
    Effect [] P s (tcpData i octets s) := by
  rw [tcpData]
  split
  · split <;> exact {}
  · exact {}

theorem effect_tcpClose {P : Output → Prop} (i : Nat) (s : State) : Effect [] P s (tcpClose i s) := by
  rw [tcpClose]
  split <;> exact {}

/-! ### The Serial Framer -/

/-- What the Serial Framer can emit in `s`: line changes where the line is configured (R30, R42), and octets when it is
responding or its address is not the broadcast address (R160, R164). -/
def SerialOutput (s : State) (o : Output) : Prop :=
  (o.isTxEn = true → s.txenPresent = true) ∧ (o.isTxByte = true → s.fsm = .responding ∨ s.slaveId ≠ broadcastAddr)

theorem serialOutput_of_offLine {s : State} {o : Output} (h : OffLine o) : SerialOutput s o := by
  obtain ⟨he, hb⟩ := h
  simp [SerialOutput, he, hb]

theorem serialOutput_txByte {s : State} (h : s.fsm = .responding ∨ s.slaveId ≠ broadcastAddr) (b : Octet) :
    SerialOutput s (.txByte b) := ⟨nofun, fun _ => h⟩

section line

variable {P : Output → Prop}

theorem effect_send (s : State) (hb : ∀ b, P (.txByte b)) : Effect [] P s (send s) where
  emits := ⟨_, rfl, fun o ho => by
    obtain ⟨b, -, rfl⟩ := List.mem_map.1 ho
    exact hb b⟩

theorem effect_leadInTick (s : State) (hb : ∀ b, P (.txByte b)) : Effect [] P s (leadInTick s) := by
  have hc : Effect [] P s (countDown s) := {}
  simp only [leadInTick]
  split
  · exact hc.trans (effect_send _ hb)
  · exact hc

theorem effect_frameDelayTick (s : State) (he : s.txenPresent = true → P .txEnDeassert) :
    Effect [] P s (frameDelayTick s) := by
  simp only [frameDelayTick, release]
  split
  · split
    · rename_i hp
      exact { emits := ⟨_, rfl, by simpa using he hp⟩ }
    · exact {}
  · exact {}

theorem effect_respondAddressed (s : State) (hb : ∀ b, P (.txByte b)) (he : s.txenPresent = true → P .txEnAssert) :
    Effect [] P s (respondAddressed s) := by
  simp only [respondAddressed]
  split
  · rename_i hp
    have hd : Effect [] P s ({ s.withCrc (s.frame.take s.frameLen) with fsm := .responding, txen := true }.emit
        .txEnAssert) := { emits := ⟨_, rfl, by simpa using he hp⟩ }
    split
    · exact hd.trans (effect_send _ hb)
    · exact { hd with }
  · have hd : Effect [] P s { s.withCrc (s.frame.take s.frameLen) with fsm := .responding } := {}
    exact hd.trans (effect_send _ hb)

end line

theorem effect_rtuPoll {P : Output → Prop} (s : State) : Effect [] P s (rtuPoll s) := by
  rw [rtuPoll]
  split <;> exact {}

theorem effect_txDrained {P : Output → Prop} (s : State) : Effect [] P s (txDrained s) := by
  rw [txDrained]
  split <;> exact {}

theorem effect_rtuComplete {s t : State} (h : s.build.Legal) (hl : s.lastCount = s.rxq.length)
    (ht : rtuComplete s = .next t) : Effect [] (SerialOutput s) s t := by
  obtain ⟨d, -, rfl⟩ | ⟨hv, u, hu, rfl⟩ := rtuComplete_cases h hl ht
  · obtain ⟨hi, lo, e⟩ := validateCrc_eq (takeFrame s) s.rxq
    rw [e]
    exact {}
  · have ha : Effect [] (SerialOutput s) s (accepted s) := {}
    have hd : Effect [] (SerialOutput s) s (placeResponse u) :=
      { ha.trans (hu.effect.mono fun _ => serialOutput_of_offLine) with }
    rw [rtuRespond]
    split
    · exact { hd with }
    · rename_i hb
      obtain ⟨-, hs, -⟩ := holdsResponse_placeResponse hv hl hu (Bool.eq_false_of_not_eq_true hb)
      refine hd.trans (effect_respondAddressed _ (serialOutput_txByte (.inr (hd.slaveId ▸ hs))) fun hp => ?_)
      exact ⟨fun _ => hd.txenPresent ▸ hp, nofun⟩

theorem effect_serialTick {s t : State} (h : s.build.Legal) (ht : serialTick s = .next t) :
    Effect [] (SerialOutput s) s t := by
  obtain rfl | ⟨-, -, rfl⟩ | ⟨-, -, rfl⟩ | ⟨-, hl, hc⟩ | ⟨hf, rfl⟩ | ⟨hf, rfl⟩ := serialTick_cases ht
  · exact .refl
  · exact {}
  · exact {}
  · exact { effect_rtuComplete (s := countDown s) h hl hc with }
  · exact effect_leadInTick s (serialOutput_txByte (.inl hf))
  · exact effect_frameDelayTick s fun hp => ⟨fun _ => hp, nofun⟩

/-! ### Every event -/

/-- An event other than `Reset` changes the runtime's inputs by what it brings, keeps the configuration, and emits on
the serial line what the framer can emit. -/
theorem effect_handle {e : Event} {s t : State} (h : s.build.Legal) (he : e.isReset = false)
    (ht : handle e s = .next t) : Effect (e.runtimeChanges s.build.maxSrvClients) (SerialOutput s) s t := by
  cases e with
  | reset l => cases he
  | pollTcp between => exact (effect_tcpPoll h ht).mono fun _ => serialOutput_of_offLine
  | tick => exact effect_serialTick h ht
  | pollSerial => cases ht; exact effect_rtuPoll s
  | rxByte b => cases ht; exact {}
  | txDrained => cases ht; exact effect_txDrained s
  | tcpConnect => cases ht; exact {}
  | tcpConnectWithdraw => cases ht; exact {}
  | tcpData i octets => cases ht; exact effect_tcpData i octets s
  | tcpClose i => cases ht; exact effect_tcpClose i s
  | appWrite ws => cases ht; exact {}
  | runtime cs => cases ht; exact effect_runtimeChanges cs s

theorem effect_step {s t : State} {e : Event} {rest : List Event} (hi : s.inputs = e :: rest)
    (he : e.isReset = false) (ht : step s = .next t) :
    Effect (e.runtimeChanges s.build.maxSrvClients) (SerialOutput s) s t := by
  have hc := step_config ht
  rw [step_event hc hi] at ht
  exact { effect_handle (s := { s with inputs := rest }) hc.1 he ht with }

/-- Settles O59: what a step emits on the line the framer can emit, and a block of the invariant with the broadcast
address is never responding. -/
theorem outputsFollowTheConfiguration : Obligations.OutputsFollowTheConfiguration := by
  intro s t h ht hr
  have hp : Emits (SerialOutput s) s t := by
    obtain ⟨-, rfl⟩ | ⟨e, rest, hi, -⟩ := step_cases ht
    · exact emits_none rfl
    · exact (effect_step hi (hr e rest hi) ht).emits
  obtain ⟨out, hout, hp⟩ := hp
  refine ⟨out, hout, fun hn o ho => Bool.eq_false_of_not_eq_true fun hc => ?_,
    fun hs o ho => Bool.eq_false_of_not_eq_true fun hc => ?_⟩
  · have hpresent : s.txenPresent = true := (hp o ho).1 hc
    exact Bool.noConfusion (hn.symm.trans hpresent)
  · obtain hf | hn := (hp o ho).2 hc
    · obtain ⟨⟨-, hn, -⟩, -⟩ := h.holdsResponse hf
      exact hn hs
    · exact hn hs

theorem isReset_cases (e : Event) : e.isReset = false ∨ ∃ l, e = .reset l := by
  cases e with
  | reset l => exact .inr ⟨l, rfl⟩
  | _ => exact .inl rfl

/-- The variables after a step are what the event's changes make of them; a `Reset` brings none (log 6). -/
theorem step_vars {s t : State} {e : Event} {rest : List Event} (hi : s.inputs = e :: rest) (ht : step s = .next t) :
    t.vars = varsAfter (e.runtimeChanges s.build.maxSrvClients) s.vars := by
  obtain he | ⟨l, rfl⟩ := isReset_cases e
  · exact (effect_step hi he ht).vars
  · rw [step_event (step_config ht) hi] at ht
    obtain ⟨-, rfl⟩ := resetEvent_eq_next.1 ht
    rfl

/-- Settles O60: the runtime's inputs change by what the event brings. -/
theorem onlyTheRuntimeChangesItsInputs : Obligations.OnlyTheRuntimeChangesItsInputs := by
  refine ⟨fun s t ht => ?_, fun s cs rest hc hi => step_event hc hi, fun _ _ _ => ⟨rfl, rfl⟩,
    fun i old value t vars => ⟨rfl, fun ho hl => if_pos (by simpa [ho] using hl)⟩⟩
  obtain ⟨hn, rfl⟩ | ⟨e, rest, hi, -⟩ := step_cases ht
  · exact ⟨rfl, fun _ => ⟨rfl, rfl⟩, by simp [hn]⟩
  · refine ⟨by rw [step_vars hi ht, varsAfter_sizes], by simp [hi], fun e' rest' hi' => ?_⟩
    exact ⟨step_vars hi' ht, fun he => (effect_step hi' he ht).tick⟩

/-! ## Configuration, reset and the single registers -/

/-- With a legal configuration a `Reset` that brings a legal baud rate puts the block in its reset state (R350, R354). -/
theorem step_reset {s : State} {l : Launch} {rest : List Event} (hc : ConfigLegal s.build s.baud)
    (hl : 1 ≤ l.baud.toNat) (hi : s.inputs = .reset l :: rest) :
    step s = .next (resetState l { s with inputs := rest }) :=
  (step_event hc hi).trans (if_pos ⟨hc.1, hl⟩)

/-- Settles O9: a `Reset` computes the timers, whose bounds are those of the two formulas. -/
theorem timersAreComputedFromTheBaudRate : Obligations.TimersAreComputedFromTheBaudRate := by
  intro s l rest hc hl hi
  obtain ⟨hlo, hhi, hslow, hfast⟩ := t15Of_bounds hl
  refine ⟨_, step_reset hc hl hi, ?_⟩
  have h35 : (t35Of (t15Of l.baud)).toNat = (t15Of l.baud).toNat * 7 / 2 := t35Of_toNat hhi
  have h15 : (t15Of l.baud).toNat = if l.baud.toNat ≤ 19200 then 16500000 / l.baud.toNat else 750 := by
    split
    · exact (hslow ‹_›).1
    · exact hfast (by omega)
  simp only [resetState]
  exact ⟨h15, h35, hlo, hhi, by omega, by omega, fun h => (hslow h).2⟩

/-- Settles O10: both the step and the `Reset` event test the configuration. -/
theorem illegalConfigurationsAreRefused : Obligations.IllegalConfigurationsAreRefused := by
  refine ⟨fun s h => if_neg fun hc => h ⟨hc.2, hc.1⟩, fun s l rest hc hi => ⟨fun h0 => ?_, fun h0 => ?_⟩⟩
  · refine (step_event hc hi).trans (if_neg fun hl => ?_)
    have hb : 1 ≤ l.baud.toNat := hl.2
    simp [h0] at hb
  · exact ⟨_, step_reset hc (word_pos h0) hi⟩

/-- Settles O11: the step leaves the reset state, whose registers hold the values of R52. -/
theorem resetEventRestoresTheResetValues : Obligations.ResetEventRestoresTheResetValues := by
  intro s l rest hc hl hi
  refine ⟨_, step_reset hc hl hi, rfl, rfl, rfl, rfl, rfl, rfl, rfl, rfl, rfl, rfl, rfl, rfl, ?_, fun c hm => ?_,
    rfl, rfl, rfl, rfl, rfl, rfl, rfl, rfl⟩
  · simp [resetState]
  · obtain ⟨i, -, rfl⟩ := List.mem_map.1 hm
    exact ⟨rfl, rfl, rfl, rfl⟩

/-- Settles O13: the two cases of the receive queue's capacity. -/
theorem receivedOctetIsQueuedOrLost : Obligations.ReceivedOctetIsQueuedOrLost := by
  intro s b rest hc hi
  rw [step_event hc hi]
  exact ⟨fun h => congrArg _ (rxByte_queued (s := { s with inputs := rest }) b h),
    fun h => congrArg _ (rxByte_lost (s := { s with inputs := rest }) b h)⟩

theorem tcpData_live {s : State} {i : Nat} {c : Slot} (octets : List Octet) (hc : s.slots[i]? = some c)
    (hl : c.live = true) : tcpData i octets s = s.setSlot i { c with sockq := c.sockq ++ octets } := by
  simp [tcpData, hc, hl]

theorem tcpClose_slot {s : State} {i : Nat} {c : Slot} (hc : s.slots[i]? = some c) :
    tcpClose i s = s.setSlot i { c with live := false, hdrLen := 0, sockq := [] } := by
  simp [tcpClose, hc]

/-- Settles O30: each event of the socket layer, handled where it is enabled. -/
theorem socketEventsReachTheirSlot : Obligations.SocketEventsReachTheirSlot := by
  refine fun s rest hc => ⟨fun hi => step_event hc hi, fun hi _ => step_event hc hi,
    fun i c octets hi hs hl => ?_, fun i c hi hs => ?_⟩
  · exact (step_event hc hi).trans (congrArg _ (tcpData_live (s := { s with inputs := rest }) octets hs hl))
  · exact (step_event hc hi).trans (congrArg _ (tcpClose_slot (s := { s with inputs := rest }) hs))

/-- The configuration that `State.reset` holds (log 3), with an empty bank and zero buffers (log 2, log 4). -/
def exampleLaunch : Launch where
  slaveId := 0x01#8
  baud := 9600#32
  txenPresent := true
  txenLeadIn := 100#32
  bank := []
  frame := []
  hdrs := []
  tick := 0x64#32

/-- `State.reset` is what a `Reset` with that configuration leaves. -/
theorem reset_eq_resetState : State.reset = resetState exampleLaunch State.reset := by decide +kernel

/-- Settles O55: the reset state is one that a legal `Reset` leaves. -/
theorem resetStateMeetsTheInvariant : Obligations.ResetStateMeetsTheInvariant := by
  have hc : ConfigLegal State.reset.build exampleLaunch.baud := by decide
  have hi : Inv (resetState exampleLaunch State.reset) := inv_resetState hc
  rwa [← reset_eq_resetState] at hi

end Sys2Proof.Machine

namespace Sys2Proof.Machine

open Sys2Proof

/-! ## Serving one slot, exactly (R192 to R202) -/

/-- A slot whose header is still incomplete after its octets have been collected (R193). -/
def Slot.waiting (c : Slot) : Slot :=
  { c with hdr := c.received ++ c.hdr.drop c.received.length, hdrLen := c.received.length, sockq := [] }

/-- A slot whose header is complete, as its request is judged: `MBAP_PARSE` has recorded the declared length (R194). -/
def Slot.complete (c : Slot) : Slot :=
  { c with
    hdr := c.received.take 6
    hdrLen := 6
    declLen := be16 (c.received.getD 4 0#8) (c.received.getD 5 0#8)
    sockq := c.received.drop 6 }

/-- A slot whose request has been taken or dropped: the header stays in its buffer, no octet is left (R200, R202). -/
def Slot.emptied (c : Slot) : Slot := { c.complete with hdrLen := 0, sockq := [] }

theorem mbapLength_complete (c : Slot) : mbapLength c.complete = c.complete.declLen := by
  simp [mbapLength, Slot.complete]

/-- The checks on a complete header with the octets behind it pass exactly the requests that are not dropped. -/
theorem mbapVerdict_complete {n : Nat} {c : Slot} : mbapVerdict n c.complete = none ↔ ¬MbapDropped n c.received := by
  have hp : mbapProto c.complete = be16 (c.received.getD 2 0#8) (c.received.getD 3 0#8) := by
    simp [mbapProto, Slot.complete]
  rw [mbapVerdict_none, hp, mbapLength_complete]
  simp only [MbapDropped, Slot.complete, List.length_drop, BitVec.toNat_eq, ne_eq, BitVec.toNat_ofNat]
  omega

/-- An empty PDU is found only where the declared one octet is all there is (R196, R198). -/
theorem sockq_length_of_emptyPdu {n : Nat} {c : Slot} (h : mbapVerdict n c = some .emptyPdu) : c.sockq.length = 1 := by
  simp only [mbapVerdict] at h
  iterate 3
    obtain ⟨-, h⟩ | ⟨-, h⟩ := ite_cases h
    · cases h
  obtain ⟨-, h⟩ | ⟨hl, h⟩ := ite_cases h
  · cases h
  obtain ⟨h1, -⟩ | ⟨-, h⟩ := ite_cases h
  · simpa [h1] using hl
  · cases h

/-- Every drop empties the slot's queue and frees its header buffer. -/
theorem dropSlot_of_verdict {n : Nat} {c : Slot} {d : Drop} (h : mbapVerdict n c = some d) :
    dropSlot d c = { c with hdrLen := 0, sockq := [] } := by
  cases d
  case emptyPdu => simp [dropSlot, List.drop_eq_nil_of_le (sockq_length_of_emptyPdu h).le]
  all_goals rfl

section serve

variable {s : State} {i : Nat} {c : Slot}

theorem State.setSlot_setSlot (s : State) (i : Nat) (c d : Slot) : (s.setSlot i c).setSlot i d = s.setSlot i d := by
  simp [State.setSlot]

/-- Parsing puts the slot anew, whatever stands in the table. -/
theorem mbapParse_setSlot (d : Slot) : mbapParse i c (s.setSlot i d) = mbapParse i c s := by
  simp only [mbapParse, State.setSlot_setSlot, State.setSlot_build]

theorem mbapParse_drops {d : Drop} (hl : mbapLength c = c.declLen) (hv : mbapVerdict s.build.maxFrame c = some d) :
    mbapParse i c s = .next (s.setSlot i (dropSlot d c)) := by
  simp [mbapParse, hl, hv]

theorem mbapParse_answers (hl : mbapLength c = c.declLen) (hv : mbapVerdict s.build.maxFrame c = none) :
    mbapParse i c s = andThen (dispatch (c.sockq.drop 1) (s.setSlot i { c with sockq := [] })) fun t =>
      .next (mbapEmit i { c with sockq := [] } (c.sockq.getD 0 0#8) t) := by
  obtain ⟨-, -, -, hq⟩ := mbapVerdict_none.1 hv
  have hd : c.declLen.toNat = c.sockq.length := by rw [← hl, ← hq]
  simp [mbapParse, hl, hv, hd]

variable (hc : s.slots[i]? = some c) (hl : c.live = true) (h6 : c.hdr.length = 6) (hn : c.hdrLen < 6)
include hc hl h6 hn

theorem tcpServe_waits (hm : c.received.length < 6) : tcpServe i s = .next (s.setSlot i c.waiting) := by
  simp [tcpServe, hc, hl, mbapCollect_waits h6 hn hm, hm, Slot.waiting]

/-- A slot with a complete header is judged by what it has received. -/
theorem tcpServe_complete (hm : 6 ≤ c.received.length) : tcpServe i s = mbapParse i c.complete s := by
  have hw := mbapCollect_whole h6 hn hm
  have hs : tcpServe i s = mbapParse i (mbapCollect c) (s.setSlot i (mbapCollect c)) := by simp [tcpServe, hc, hl, hw]
  rw [hs, mbapParse_setSlot, hw]
  rfl

theorem tcpServe_drops (hm : 6 ≤ c.received.length) (hd : MbapDropped s.build.maxFrame c.received) :
    tcpServe i s = .next (s.setSlot i c.emptied) := by
  obtain ⟨d, hv⟩ := Option.ne_none_iff_exists'.1 fun hv => mbapVerdict_complete.1 hv hd
  rw [tcpServe_complete hc hl h6 hn hm, mbapParse_drops (mbapLength_complete c) hv, dropSlot_of_verdict hv]
  rfl

theorem tcpServe_answers (hm : 6 ≤ c.received.length) (hd : ¬MbapDropped s.build.maxFrame c.received) :
    tcpServe i s = andThen (dispatch (c.received.drop 7) (s.setSlot i { c.complete with sockq := [] })) fun t =>
      .next (mbapEmit i c.emptied (c.received.getD 6 0#8) t) := by
  rw [tcpServe_complete hc hl h6 hn hm, mbapParse_answers (mbapLength_complete c) (mbapVerdict_complete.2 hd)]
  simp [Slot.complete, Slot.emptied, mbapEmit]

end serve

/-! ## A polling pass (R77, R78, R190) -/

/-- What serving slot `i` once makes of its content `c`, with `out` the outputs of the pass: the slot is passed over,
waits, drops its request, or has it answered with a response of its own (R192, R193, R196, R198, R201). -/
inductive Served (n i : Nat) (c : Slot) (out : List Output) : Slot → Prop
  | free (hl : c.live = false) (hs : i ∉ out.filterMap Output.slot) : Served n i c out c
  | waits (hl : c.live = true) (hm : c.received.length < 6) (hs : i ∉ out.filterMap Output.slot) :
    Served n i c out c.waiting
  | dropped (hl : c.live = true) (hm : 6 ≤ c.received.length) (hd : MbapDropped n c.received)
    (hs : i ∉ out.filterMap Output.slot) : Served n i c out c.emptied
  | answered (hl : c.live = true) (hm : 6 ≤ c.received.length) (hd : ¬MbapDropped n c.received) (q : List Octet)
    (h2 : 2 ≤ q.length) (hq : q.length ≤ n)
    (hs : .tcpSend i (mbapAdu c.received (c.received.getD 6 0#8) q) ∈ out) : Served n i c out c.emptied

/-- Only the outputs that go to the slot matter. -/
theorem Served.congr {n i : Nat} {c d : Slot} {a b : List Output} (h : Served n i c a d)
    (hab : ∀ o, o.slot = some i → (o ∈ a ↔ o ∈ b)) : Served n i c b d := by
  have silent (hs : i ∉ a.filterMap Output.slot) : i ∉ b.filterMap Output.slot := fun hb => by
    obtain ⟨o, ho, hi⟩ := List.mem_filterMap.1 hb
    exact hs (List.mem_filterMap.2 ⟨o, (hab o hi).2 ho, hi⟩)
  cases h with
  | free hl hs => exact .free hl (silent hs)
  | waits hl hm hs => exact .waits hl hm (silent hs)
  | dropped hl hm hd hs => exact .dropped hl hm hd (silent hs)
  | answered hl hm hd q h2 hq hs => exact .answered hl hm hd q h2 hq ((hab _ rfl).1 hs)

theorem Served.of_free {n i : Nat} {c d : Slot} {out : List Output} (h : Served n i c out d) (hl : c.live = false) :
    d = c ∧ i ∉ out.filterMap Output.slot := by
  cases h with
  | free _ hs => exact ⟨rfl, hs⟩
  | waits hl' | dropped hl' | answered hl' => exact Bool.noConfusion (hl.symm.trans hl')

theorem Served.of_incomplete {n i : Nat} {c d : Slot} {out : List Output} (h : Served n i c out d)
    (hl : c.live = true) (hm : c.received.length < 6) : d = c.waiting ∧ i ∉ out.filterMap Output.slot := by
  cases h with
  | free hl' => exact Bool.noConfusion (hl.symm.trans hl')
  | waits _ _ hs => exact ⟨rfl, hs⟩
  | dropped _ hm' | answered _ hm' => exact absurd hm (Nat.not_lt.2 hm')

theorem Served.of_complete {n i : Nat} {c d : Slot} {out : List Output} (h : Served n i c out d)
    (hl : c.live = true) (hm : 6 ≤ c.received.length) : d = c.emptied ∧
      (MbapDropped n c.received → i ∉ out.filterMap Output.slot) ∧
      (¬MbapDropped n c.received → ∃ q : List Octet, 2 ≤ q.length ∧ q.length ≤ n ∧
        .tcpSend i (mbapAdu c.received (c.received.getD 6 0#8) q) ∈ out) := by
  cases h with
  | free hl' => exact Bool.noConfusion (hl.symm.trans hl')
  | waits _ hm' => exact absurd hm (Nat.not_le.2 hm')
  | dropped _ _ hd hs => exact ⟨rfl, fun _ => hs, fun hn => absurd hd hn⟩
  | answered _ _ hd q h2 hq hs => exact ⟨rfl, fun hd' => absurd hd' hd, fun _ => ⟨q, h2, hq, hs⟩⟩

/-- From `s` to `t` the slots `is` are served, each once, and `out` is emitted: the responses go out in the order of
`is`, and no other slot changes. -/
structure PassOver (is : List Nat) (s t : State) (out : List Output) : Prop where
  build : t.build = s.build
  trace : t.trace = s.trace ++ out
  order : (out.filterMap Output.slot).Sublist is
  others : ∀ j, j ∉ is → t.slots[j]? = s.slots[j]?
  served : ∀ i ∈ is, ∀ c, s.slots[i]? = some c → ∃ d, t.slots[i]? = some d ∧ Served s.build.maxFrame i c out d

section pass

variable {s t u : State} {is js : List Nat} {a b out : List Output} {i : Nat} {c d : Slot}

theorem PassOver.nil : PassOver [] s s [] where
  build := rfl
  trace := by simp
  order := by simp
  others _ _ := rfl
  served := by simp

/-- A pass sends nothing to a slot it does not serve. -/
theorem PassOver.not_mem (h : PassOver is s t out) (hi : i ∉ is) {o : Output} (ho : o.slot = some i) : o ∉ out :=
  fun hm => hi (h.order.subset (List.mem_filterMap.2 ⟨o, hm, ho⟩))

/-- Passes over different slots follow one another (R77). -/
theorem PassOver.append (h : PassOver is s t a) (h' : PassOver js t u b) (hd : is.Disjoint js) :
    PassOver (is ++ js) s u (a ++ b) where
  build := h'.build.trans h.build
  trace := by rw [h'.trace, h.trace, List.append_assoc]
  order := by
    rw [List.filterMap_append]
    exact h.order.append h'.order
  others j hj := by
    rw [List.mem_append, not_or] at hj
    exact (h'.others j hj.2).trans (h.others j hj.1)
  served i hi c hc := by
    by_cases his : i ∈ is
    · obtain ⟨d, hd', hs⟩ := h.served i his c hc
      have hj : i ∉ js := fun hj => hd his hj
      exact ⟨d, (h'.others i hj).trans hd', hs.congr fun o ho => by simp [h'.not_mem hj ho]⟩
    · have hj : i ∈ js := (List.mem_append.1 hi).resolve_left his
      obtain ⟨d, hd', hs⟩ := h'.served i hj c ((h.others i his).trans hc)
      exact ⟨d, hd', h.build ▸ hs.congr fun o ho => by simp [h.not_mem his ho]⟩

theorem passOver_dead (h : ∀ c, s.slots[i]? = some c → c.live = false) : PassOver [i] s s [] where
  build := rfl
  trace := by simp
  order := by simp
  others _ _ := rfl
  served j hj c hc := by
    obtain rfl := List.mem_singleton.1 hj
    exact ⟨c, hc, .free (h c hc) (by simp)⟩

/-- The slot served is the only one put anew. -/
theorem passOver_set (hc : s.slots[i]? = some c) (hb : t.build = s.build) (ht : t.trace = s.trace ++ out)
    (hs : t.slots = s.slots.set i d) (ho : (out.filterMap Output.slot).Sublist [i])
    (hd : Served s.build.maxFrame i c out d) : PassOver [i] s t out where
  build := hb
  trace := ht
  order := ho
  others j hj := by
    rw [hs, List.getElem?_set_ne (Ne.symm (List.mem_singleton.not.1 hj))]
  served j hj c' hc' := by
    obtain rfl := List.mem_singleton.1 hj
    obtain rfl := Option.some.inj (hc.symm.trans hc')
    obtain ⟨hlt, -⟩ := List.getElem?_eq_some_iff.1 hc
    exact ⟨d, by rw [hs, List.getElem?_set_self hlt], hd⟩

theorem passOver_setSlot (hc : s.slots[i]? = some c) (hd : Served s.build.maxFrame i c [] d) :
    PassOver [i] s (s.setSlot i d) [] :=
  passOver_set hc rfl (by simp) rfl (by simp) hd

/-- A handler sends nothing on a connection; the framer sends its response (R201). -/
theorem passOver_mbapEmit (hc : s.slots[i]? = some c) (hl : c.live = true) (hm : 6 ≤ c.received.length)
    (hd : ¬MbapDropped s.build.maxFrame c.received) (ht : Handled (s.setSlot i d) t) :
    ∃ out, PassOver [i] s (mbapEmit i c.emptied (c.received.getD 6 0#8) t) out := by
  obtain ⟨m, o, sent, q, rfl, h2, hq, -, -, -, -, hs⟩ := ht
  have hn : sent.filterMap Output.slot = [] := List.filterMap_eq_nil_iff.2 fun x hx => (hs x hx).2.2
  refine ⟨sent ++ [.tcpSend i (mbapAdu c.received (c.received.getD 6 0#8) q)],
    passOver_set (d := c.emptied) hc rfl ?_ ?_ ?_ (.answered hl hm hd q h2 hq (by simp))⟩
  · simp [mbapEmit, mbapAdu, Slot.emptied, Slot.complete, List.take_take]
  · simp [mbapEmit, Slot.emptied]
  · simp [hn, Output.slot]

/-- A request that is not dropped has a PDU (R198). -/
theorem pdu_ne_nil {n : Nat} (hd : ¬MbapDropped n c.received) : c.received.drop 7 ≠ [] := by
  obtain ⟨-, h2, -, hq⟩ := mbapVerdict_none.1 (mbapVerdict_complete.2 hd)
  have hl : c.complete.sockq.length = c.received.length - 6 := by simp [Slot.complete]
  rw [← List.length_pos_iff, List.length_drop]
  omega

theorem handled_of_dispatch {p : List Octet} (h : s.build.Legal) (hp : p ≠ []) (ht : dispatch p s = .next t) :
    Handled s t := by
  obtain ⟨u, hu, hh⟩ := dispatch_handled h hp
  obtain rfl := Host.Outcome.next.inj (hu.symm.trans ht)
  exact hh

/-- Serving one slot is a pass over it. -/
theorem passOver_tcpServe (h : Inv s) (ht : tcpServe i s = .next t) : ∃ out, PassOver [i] s t out := by
  by_cases hd : ∀ c, s.slots[i]? = some c → c.live = false
  · rw [tcpServe_dead hd] at ht
    cases ht
    exact ⟨[], passOver_dead hd⟩
  simp only [not_forall, Bool.not_eq_false] at hd
  obtain ⟨c, hc, hl⟩ := hd
  obtain ⟨h6, hn, -⟩ := h.slot hc
  rcases Nat.lt_or_ge c.received.length 6 with hm | hm
  · rw [tcpServe_waits hc hl h6 hn hm] at ht
    cases ht
    exact ⟨[], passOver_setSlot hc (.waits hl hm (by simp))⟩
  by_cases hd : MbapDropped s.build.maxFrame c.received
  · rw [tcpServe_drops hc hl h6 hn hm hd] at ht
    cases ht
    exact ⟨[], passOver_setSlot hc (.dropped hl hm hd (by simp))⟩
  · rw [tcpServe_answers hc hl h6 hn hm hd] at ht
    obtain ⟨u, hu, ht⟩ := andThen_eq_next.1 ht
    cases ht
    exact passOver_mbapEmit hc hl hm hd (handled_of_dispatch h.config.1 (pdu_ne_nil hd) hu)

/-- A pass over different slots serves each of them once, whatever the runtime changes in between (R190, log 15). -/
theorem passOver_tcpServeAll (h : Inv s) (hn : is.Nodup) (between : List (List RuntimeChange)) :
    ∃ t out, tcpServeAll is between s = .next t ∧ Inv t ∧ PassOver is s t out := by
  induction is generalizing between s with
  | nil => exact ⟨s, [], rfl, h, .nil⟩
  | cons i is ih =>
    obtain ⟨hi, hn⟩ := List.nodup_cons.1 hn
    have hr := inv_runtimeChanges h (between.headD [])
    obtain ⟨u, hu, hv⟩ := inv_tcpServe i hr
    obtain ⟨a, ha⟩ := passOver_tcpServe hr hu
    obtain ⟨t, b, ht, hi', hb⟩ := ih hv hn between.tail
    have ha' : PassOver [i] s u a := { ha with }
    exact ⟨t, a ++ b, by rw [tcpServeAll, hu]; exact ht, hi', ha'.append hb (by simpa using hi)⟩

end pass

/-! ### Accepting (R191) -/

theorem tcpAccept_all_live {s : State} (h : ∀ c ∈ s.slots, c.live = true) : tcpAccept s = s := by
  obtain e | ⟨i, c, hc, hl, -⟩ := tcpAccept_cases s
  · exact e
  · exact Bool.noConfusion ((h c (List.mem_of_getElem? hc)).symm.trans hl)

theorem tcpAccept_least {s : State} {i : Nat} {c : Slot} (h0 : 0 < s.connPending) (hc : s.slots[i]? = some c)
    (hl : c.live = false) (hmin : ∀ j d, j < i → s.slots[j]? = some d → d.live = true) :
    tcpAccept s = { s.setSlot i (acceptSlot c) with connPending := s.connPending - 1 } := by
  obtain ⟨hlt, rfl⟩ := List.getElem?_eq_some_iff.1 hc
  have hf : firstFree s.slots = some i := List.findIdx?_eq_some_iff_getElem.2
    ⟨hlt, by simp [hl], fun j hj => by simp [hmin j _ hj (List.getElem?_eq_getElem (hj.trans hlt))]⟩
  simp [tcpAccept, Nat.pos_iff_ne_zero.1 h0, hf, hlt]

theorem tcpAccept_inputs (s : State) (es : List Event) :
    tcpAccept { s with inputs := es } = { tcpAccept s with inputs := es } := by
  simp only [tcpAccept]
  split
  · rfl
  · split <;> rfl

theorem tcpAccept_trace (s : State) : (tcpAccept s).trace = s.trace := by
  obtain e | ⟨i, c, -, -, -, e⟩ := tcpAccept_cases s <;> simp [e]

/-- What a polling pass makes of the block: the accept, then every slot served once in ascending order (R190). -/
theorem passOver_step {s : State} {between : List (List RuntimeChange)} {rest : List Event} (h : Inv s)
    (hi : s.inputs = .pollTcp between :: rest) : ∃ t out, step s = .next t ∧ Inv t ∧
      PassOver (List.range s.build.maxSrvClients) (tcpAccept s) t out := by
  have ha := inv_tcpAccept (inv_inputs h rest)
  have hn : (List.range s.build.maxSrvClients).Nodup := List.nodup_range
  obtain ⟨t, out, ht, hv, hp⟩ := passOver_tcpServeAll ha hn between
  rw [tcpAccept_inputs] at hp
  exact ⟨t, out, (step_event h.config hi).trans ht, hv, { hp with }⟩

/-- Settles O23: the pass is the accept and a pass over the slots, which serves each of them once. -/
theorem passAcceptsOneThenServesEveryLiveSlot : Obligations.PassAcceptsOneThenServesEveryLiveSlot := by
  refine ⟨fun s between rest hc hi => step_event hc hi, fun _ _ => rfl, fun _ _ _ _ => rfl, fun s h0 => if_pos h0,
    fun s => tcpAccept_all_live, fun s i c => tcpAccept_least, fun s between rest h hi => ?_⟩
  obtain ⟨t, out, ht, hv, hp⟩ := passOver_step h hi
  have hb : (tcpAccept s).build = s.build := (effect_tcpAccept s).build
  refine ⟨t, out, ht, hp.trace.trans (by rw [tcpAccept_trace]), ?_, List.pairwise_lt_range.sublist hp.order,
    fun i c hc => ?_⟩
  · rw [hv.slots, hp.build, hb, h.slots]
  have hlt : i < s.build.maxSrvClients := by
    rw [← hb, ← (inv_tcpAccept h).slots]
    exact (List.getElem?_eq_some_iff.1 hc).1
  obtain ⟨d, hd, hs⟩ := hp.served i (List.mem_range.2 hlt) c hc
  rw [hb] at hs
  refine ⟨fun hl => ?_, fun hl hm => ?_, fun hl hm => ?_⟩
  · obtain ⟨rfl, hn⟩ := hs.of_free hl
    exact ⟨hd, hn⟩
  · obtain ⟨rfl, hn⟩ := hs.of_incomplete hl hm
    exact ⟨hn, hd⟩
  · obtain ⟨rfl, h⟩ := hs.of_complete hl hm
    exact ⟨hd, h⟩

/-! ## Reading the bank (R63, R250, R251) -/

/-- A register read with every check passed: only the response is new, and it carries the registers in ascending
order, high octet first (R63). -/
theorem readWords_answers {fc : Octet} {sp : WordSpace} {start count : Word16} {s : State} (h1 : 1 ≤ count.toNat)
    (hn : count.toNat ≤ 0x7D) (hm : 2 + 2 * count.toNat ≤ s.build.maxFrame)
    (hr : start.toNat + count.toNat ≤ wordSize s.build sp) :
    ∃ d, readWords fc sp (some ⟨start, count⟩) s =
        .next { s with respPdu := [fc, BitVec.ofNat 8 (2 * count.toNat)] ++ d } ∧
      d.length = 2 * count.toNat ∧
      ∀ j, j < count.toNat → (d.getD (2 * j) 0#8).toNat * 256 + (d.getD (2 * j + 1) 0#8).toNat =
        (s.mem.word sp (start.toNat + j)).toNat := by
  have hc : ¬(count.toNat < 1 ∨ 0x7D < count.toNat) := by omega
  refine ⟨wordOctets ((List.range' start.toNat count.toNat).map (s.mem.word sp)), ?_, by simp, fun j hj => ?_⟩
  · simp only [readWords, if_neg hc, if_neg (Nat.not_lt.2 hr)]
    rw [capacityGuard_eq hm, memReadWords_eq hr]
    rfl
  · obtain ⟨hhi, hlo⟩ := wordOctets_getD ((List.range' start.toNat count.toNat).map (s.mem.word sp)) (j := j) (by simpa)
    rw [hhi, hlo, hi8_lo8_toNat]
    simp [hj]

/-- Settles O36: both functions are a register read that passes its checks. -/
theorem registerReadsAnswerBigEndian : Obligations.RegisterReadsAnswerBigEndian :=
  fun _ _ _ h1 hn hm => ⟨readWords_answers (sp := .hold) h1 hn hm, readWords_answers (sp := .inreg) h1 hn hm⟩

/-- A read handler changes the response only (R73). -/
theorem readBits_reply (fc : Octet) (sp : BitSpace) (o : Option RdOps) (s : State) :
    ∃ q, readBits fc sp o s = .next (s.reply q) := by
  obtain ⟨code, e⟩ | ⟨q, e, -⟩ := readBits_cases fc sp o s
  · exact ⟨_, e⟩
  · exact ⟨_, e⟩

theorem readWords_reply (fc : Octet) (sp : WordSpace) (o : Option RdOps) (s : State) :
    ∃ q, readWords fc sp o s = .next (s.reply q) := by
  obtain ⟨code, e⟩ | ⟨q, e, -⟩ := readWords_cases fc sp o s
  · exact ⟨_, e⟩
  · exact ⟨_, e⟩

theorem execDbgget_reply (o : Option GetOps) (s : State) : ∃ q, execDbgget o s = .next (s.reply q) := by
  obtain e | ⟨first, is, e⟩ := execDbgget_cases o s
  · exact ⟨_, e⟩
  · exact ⟨_, e.trans rfl⟩

theorem execDbglist_reply (o : Option ListOps) (s : State) : ∃ q, execDbglist o s = .next (s.reply q) := by
  obtain e | ⟨first, is, e⟩ := execDbglist_cases o s
  · exact ⟨_, e⟩
  · exact ⟨_, e.trans rfl⟩

/-- Settles O50: each of these functions is a reply. -/
theorem readingFunctionsChangeNothing : Obligations.ReadingFunctionsChangeNothing := by
  intro i s t ht hi
  have hr : ∃ q, exec i s = .next (s.reply q) := by
    obtain ⟨o, rfl⟩ | ⟨o, rfl⟩ | ⟨o, rfl⟩ | ⟨o, rfl⟩ | rfl | ⟨o, rfl⟩ | ⟨o, rfl⟩ := hi
    · exact readBits_reply _ _ o s
    · exact readBits_reply _ _ o s
    · exact readWords_reply _ _ o s
    · exact readWords_reply _ _ o s
    · exact ⟨_, rfl⟩
    · exact execDbgget_reply o s
    · exact execDbglist_reply o s
  obtain ⟨q, hq⟩ := hr
  obtain rfl := Host.Outcome.next.inj (hq.symm.trans ht)
  exact ⟨rfl, fun _ _ => rfl, fun _ _ => rfl⟩

/-! ## Writing the bank (R72, R73, R252, R253, R274, R275) -/

section table

variable {α : Type} [DecidableEq α] {d : α} {t : Table α} {a : Nat}

/-- Writing the values a canonical table already holds changes nothing. -/
theorem Table.writeRun_read_self (vs : List α) (h : Table.wf d t)
    (hr : ∀ k, k < vs.length → Table.read d t (a + k) = vs.getD k d) : Table.writeRun d t a vs = t := by
  induction vs generalizing a with
  | nil => rfl
  | cons v vs ih =>
    have h0 : Table.read d t a = v := hr 0 (Nat.zero_lt_succ _)
    rw [Table.writeRun, Table.write_read_self h h0]
    refine ih fun k hk => ?_
    simpa [Nat.add_assoc, Nat.add_comm 1] using hr (k + 1) (Nat.succ_lt_succ hk)

/-- A run written twice is written once. -/
theorem Table.writeRun_idem (vs : List α) (h : Table.wf d t) :
    Table.writeRun d (Table.writeRun d t a vs) a vs = Table.writeRun d t a vs :=
  Table.writeRun_read_self vs (Table.writeRun_wf vs h) fun _ hk => Table.read_writeRun_inside vs h hk d

end table

theorem State.writeBits_idem {s : State} (sp : BitSpace) (a : Nat) (vs : List Bool) (h : s.mem.wf) :
    (s.writeBits sp a vs).writeBits sp a vs = s.writeBits sp a vs := by
  simp only [State.writeBits, Memory.bits_setBits, Table.writeRun_idem vs (Memory.bits_wf h sp)]
  cases sp <;> rfl

theorem State.writeWords_idem {s : State} (sp : WordSpace) (a : Nat) (vs : List Word16) (h : s.mem.wf) :
    (s.writeWords sp a vs).writeWords sp a vs = s.writeWords sp a vs := by
  simp only [State.writeWords, Memory.words_setWords, Table.writeRun_idem vs (Memory.words_wf h sp)]
  cases sp <;> rfl

/-- `MemWrite` of the coils, the only 1-bit space a request can write (R62). -/
abbrev State.writeCoils (s : State) (a : Nat) (vs : List Bool) : State := s.writeBits .coil a vs

/-- `MemWrite` of the holding registers, the only 16-bit space a request can write (R62). -/
abbrev State.writeHolding (s : State) (a : Nat) (vs : List Word16) : State := s.writeWords .hold a vs

/-- In every state of the build `b` the handler `f` answers the same PDU and writes the same elements, all of them in
the run of `count` elements from `start` on. An exception writes none. -/
def WritesRun {α : Type} (write : State → Nat → List α → State) (b : Build) (start count : Nat) (f : State → Result) :
    Prop :=
  ∃ vs q, vs.length ≤ count ∧ ∀ s, s.build = b → f s = .next ((write s start vs).reply q)

section handlers

variable {b : Build} {start count : Nat} {f : State → Result} {fc : Octet} {code : ExcCode}

theorem writesCoils_of_raise (h : ∀ s, s.build = b → f s = raiseExc fc code s) :
    WritesRun State.writeCoils b start count f :=
  ⟨[], excBuild fc code, Nat.zero_le _, h⟩

theorem writesHolding_of_raise (h : ∀ s, s.build = b → f s = raiseExc fc code s) :
    WritesRun State.writeHolding b start count f :=
  ⟨[], excBuild fc code, Nat.zero_le _, h⟩

theorem execWrcoil_writesRun (o : Option Wr1Ops) :
    WritesRun State.writeCoils b (o.elim 0 fun o => o.addr.toNat) (o.elim 0 fun _ => 1) (execWrcoil o) := by
  rcases o with _ | ⟨coil, status⟩
  · exact writesCoils_of_raise fun _ _ => rfl
  by_cases hv : coilStatusLegal status = false
  · exact writesCoils_of_raise fun s _ => if_pos hv
  by_cases ha : b.nCoils ≤ coil.toNat
  · exact writesCoils_of_raise fun s hs => (if_neg hv).trans (if_pos (hs ▸ ha))
  refine ⟨[coilStatusOn status], [0x05#8] ++ be16enc coil ++ be16enc status, Nat.le_refl 1, fun s hs => ?_⟩
  subst hs
  simp only [execWrcoil, if_neg hv, if_neg ha]
  exact memWriteBits_eq (Nat.lt_of_not_le ha)

theorem execWrcoils_writesRun (o : Option WrnOps) : WritesRun State.writeCoils b (o.elim 0 fun o => o.start.toNat)
    (o.elim 0 fun o => o.count.toNat) (execWrcoils o) := by
  rcases o with _ | ⟨start, count, bc, data⟩
  · exact writesCoils_of_raise fun _ _ => rfl
  by_cases hn : count.toNat < 1 ∨ 0x7B0 < count.toNat
  · exact writesCoils_of_raise fun s _ => if_pos hn
  by_cases hb : bc.toNat ≠ ceil8 count.toNat
  · exact writesCoils_of_raise fun s _ => (if_neg hn).trans (if_pos hb)
  by_cases hd : data.length < bc.toNat
  · exact writesCoils_of_raise fun s _ => (if_neg hn).trans ((if_neg hb).trans (if_pos hd))
  by_cases ha : b.nCoils < start.toNat + count.toNat
  · exact writesCoils_of_raise fun s hs =>
      (if_neg hn).trans ((if_neg hb).trans ((if_neg hd).trans (if_pos (hs ▸ ha))))
  refine ⟨unpack data count.toNat, [0x0F#8] ++ be16enc start ++ be16enc count, (unpack_length ..).le, fun s hs => ?_⟩
  subst hs
  simp only [execWrcoils, if_neg hn, if_neg hb, if_neg hd, if_neg ha]
  exact memWriteBits_eq (by simpa [bitSize] using ha)

theorem execWrreg_writesRun (o : Option Wr1Ops) :
    WritesRun State.writeHolding b (o.elim 0 fun o => o.addr.toNat) (o.elim 0 fun _ => 1) (execWrreg o) := by
  rcases o with _ | ⟨register, value⟩
  · exact writesHolding_of_raise fun _ _ => rfl
  by_cases ha : b.nHold ≤ register.toNat
  · exact writesHolding_of_raise fun s hs => if_pos (hs ▸ ha)
  refine ⟨[value], [0x06#8] ++ be16enc register ++ be16enc value, Nat.le_refl 1, fun s hs => ?_⟩
  subst hs
  simp only [execWrreg, if_neg ha]
  exact memWriteWords_eq (Nat.lt_of_not_le ha)

theorem execWrregs_writesRun (o : Option WrnOps) : WritesRun State.writeHolding b (o.elim 0 fun o => o.start.toNat)
    (o.elim 0 fun o => o.count.toNat) (execWrregs o) := by
  rcases o with _ | ⟨start, count, bc, data⟩
  · exact writesHolding_of_raise fun _ _ => rfl
  by_cases hn : count.toNat < 1 ∨ 0x7B < count.toNat
  · exact writesHolding_of_raise fun s _ => if_pos hn
  by_cases hb : bc.toNat ≠ 2 * count.toNat
  · exact writesHolding_of_raise fun s _ => (if_neg hn).trans (if_pos hb)
  by_cases hd : data.length < bc.toNat
  · exact writesHolding_of_raise fun s _ => (if_neg hn).trans ((if_neg hb).trans (if_pos hd))
  by_cases ha : b.nHold < start.toNat + count.toNat
  · exact writesHolding_of_raise fun s hs =>
      (if_neg hn).trans ((if_neg hb).trans ((if_neg hd).trans (if_pos (hs ▸ ha))))
  have hl : ((be16s data).take count.toNat).length ≤ count.toNat := List.length_take_le ..
  refine ⟨(be16s data).take count.toNat, [0x10#8] ++ be16enc start ++ be16enc count, hl, fun s hs => ?_⟩
  subst hs
  simp only [execWrregs, if_neg hn, if_neg hb, if_neg hd, if_neg ha]
  exact memWriteWords_eq ((Nat.add_le_add_left hl _).trans (Nat.le_of_not_lt ha))

end handlers

/-- What writes the same elements in every state of a build changes nothing the second time (R73). -/
theorem WritesRun.repeated {α : Type} {write : State → Nat → List α → State} {s t : State} {start count : Nat}
    {f : State → Result} (h : WritesRun write s.build start count f) (hb : ∀ vs, (write s start vs).build = s.build)
    (hi : ∀ vs q, write ((write s start vs).reply q) start vs = (write s start vs).reply q)
    (ht : f s = .next t) : f t = .next t := by
  obtain ⟨vs, q, -, hf⟩ := h
  obtain rfl := Host.Outcome.next.inj ((hf s rfl).symm.trans ht)
  rw [hf ((write s start vs).reply q) (hb vs), hi]
  rfl

theorem repeated_of_writesCoils {s t : State} {start count : Nat} {f : State → Result} (hw : s.mem.wf)
    (h : WritesRun State.writeCoils s.build start count f) (ht : f s = .next t) : f t = .next t :=
  h.repeated (fun _ => rfl) (fun vs q => congrArg (State.reply · q) (State.writeBits_idem .coil start vs hw)) ht

theorem repeated_of_writesHolding {s t : State} {start count : Nat} {f : State → Result} (hw : s.mem.wf)
    (h : WritesRun State.writeHolding s.build start count f) (ht : f s = .next t) : f t = .next t :=
  h.repeated (fun _ => rfl) (fun vs q => congrArg (State.reply · q) (State.writeWords_idem .hold start vs hw)) ht

/-- Settles O43: each write handler writes the same run in the state it left. -/
theorem repeatedWritesAreIdempotent : Obligations.RepeatedWritesAreIdempotent := by
  intro s t i hw ht hi
  obtain ⟨o, rfl⟩ | ⟨o, rfl⟩ | ⟨o, rfl⟩ | ⟨o, rfl⟩ := hi
  · exact repeated_of_writesCoils hw (execWrcoil_writesRun o) ht
  · exact repeated_of_writesHolding hw (execWrreg_writesRun o) ht
  · exact repeated_of_writesCoils hw (execWrcoils_writesRun o) ht
  · exact repeated_of_writesHolding hw (execWrregs_writesRun o) ht

/-- Settles O51: the run written lies in the run addressed. -/
theorem coilWritesStayInTheirRun : Obligations.CoilWritesStayInTheirRun := by
  intro s t i start count ht hi
  have hw : WritesRun State.writeCoils s.build start count (exec i) := by
    obtain ⟨o, rfl, rfl, rfl⟩ | ⟨o, rfl, rfl, rfl⟩ | ⟨rfl | rfl, -⟩ := hi
    · exact execWrcoil_writesRun (some o)
    · exact execWrcoils_writesRun (some o)
    · exact writesCoils_of_raise fun _ _ => rfl
    · exact writesCoils_of_raise fun _ _ => rfl
  obtain ⟨vs, q, hl, hf⟩ := hw
  obtain rfl := Host.Outcome.next.inj ((hf s rfl).symm.trans ht)
  exact ⟨rfl, fun a ha => State.writeBits_outside (s := s) (sp := .coil) (a := start) vs (by omega), fun _ => rfl,
    fun _ _ => rfl⟩

/-- Settles O52: the run written lies in the run addressed. -/
theorem registerWritesStayInTheirRun : Obligations.RegisterWritesStayInTheirRun := by
  intro s t i start count ht hi
  have hw : WritesRun State.writeHolding s.build start count (exec i) := by
    obtain ⟨o, rfl, rfl, rfl⟩ | ⟨o, rfl, rfl, rfl⟩ | ⟨rfl | rfl, -⟩ := hi
    · exact execWrreg_writesRun (some o)
    · exact execWrregs_writesRun (some o)
    · exact writesHolding_of_raise fun _ _ => rfl
    · exact writesHolding_of_raise fun _ _ => rfl
  obtain ⟨vs, q, hl, hf⟩ := hw
  obtain rfl := Host.Outcome.next.inj ((hf s rfl).symm.trans ht)
  exact ⟨rfl, fun a ha => State.writeWords_outside (s := s) (sp := .hold) (a := start) vs (by omega), fun _ => rfl,
    fun _ _ => rfl⟩

/-! ## The read-only tables (R62, R75) -/

/-- The tables that no request writes are as they were. -/
def KeepsReadOnly (s t : State) : Prop :=
  t.mem.discreteInputs = s.mem.discreteInputs ∧ t.mem.inputRegisters = s.mem.inputRegisters

section readOnly

variable {s t u : State}

theorem keepsReadOnly_of_mem (h : t.mem = s.mem) : KeepsReadOnly s t := by
  rw [KeepsReadOnly, h]
  exact ⟨rfl, rfl⟩

theorem KeepsReadOnly.trans (h : KeepsReadOnly s t) (h' : KeepsReadOnly t u) : KeepsReadOnly s u :=
  ⟨h'.1.trans h.1, h'.2.trans h.2⟩

theorem Handled.keepsReadOnly (h : Handled s t) : KeepsReadOnly s t := by
  obtain ⟨m, o, out, q, rfl, -, -, -, -, hd, hr, -⟩ := h
  exact ⟨hd, hr⟩

/-! ### The TCP Framer -/

theorem tcpAccept_mem (s : State) : (tcpAccept s).mem = s.mem := by
  obtain e | ⟨i, c, -, -, -, e⟩ := tcpAccept_cases s <;> simp [e]

theorem tcpData_mem (i : Nat) (octets : List Octet) (s : State) : (tcpData i octets s).mem = s.mem := by
  rw [tcpData]
  split
  · split <;> rfl
  · rfl

theorem tcpClose_mem (i : Nat) (s : State) : (tcpClose i s).mem = s.mem := by
  rw [tcpClose]
  split <;> rfl

theorem keepsReadOnly_tcpServe {i : Nat} (h : s.build.Legal) (ht : tcpServe i s = .next t) : KeepsReadOnly s t := by
  obtain e | ⟨c, d, -, -, -, -, ⟨-, e⟩ | ⟨p, unit, u, -, hu, e⟩⟩ := tcpServe_cases i h <;> rw [e] at ht <;> cases ht
  · exact keepsReadOnly_of_mem rfl
  · exact keepsReadOnly_of_mem rfl
  · exact hu.keepsReadOnly

theorem keepsReadOnly_tcpServeAll {is : List Nat} {between : List (List RuntimeChange)} (h : s.build.Legal)
    (ht : tcpServeAll is between s = .next t) : KeepsReadOnly s t := by
  induction is generalizing between s with
  | nil => cases ht; exact keepsReadOnly_of_mem rfl
  | cons i is ih =>
    obtain ⟨u, hu, ht⟩ := andThen_eq_next.1 ht
    have hr : (runtimeChanges (between.headD []) s).build.Legal := h
    have hb : u.build = s.build := (effect_tcpServe hr hu).build
    have hc : KeepsReadOnly s (runtimeChanges (between.headD []) s) := keepsReadOnly_of_mem rfl
    exact (hc.trans (keepsReadOnly_tcpServe hr hu)).trans (ih (hb ▸ h) ht)

theorem keepsReadOnly_tcpPoll {between : List (List RuntimeChange)} (h : s.build.Legal)
    (ht : tcpPoll between s = .next t) : KeepsReadOnly s t :=
  (keepsReadOnly_of_mem (tcpAccept_mem s)).trans (keepsReadOnly_tcpServeAll ((effect_tcpAccept s).build ▸ h) ht)

/-! ### The Serial Framer -/

theorem rtuPoll_mem (s : State) : (rtuPoll s).mem = s.mem := by
  rw [rtuPoll]
  split <;> rfl

theorem txDrained_mem (s : State) : (txDrained s).mem = s.mem := by
  rw [txDrained]
  split <;> rfl

theorem leadInTick_mem (s : State) : (leadInTick s).mem = s.mem := by
  simp only [leadInTick]
  split <;> rfl

theorem frameDelayTick_mem (s : State) : (frameDelayTick s).mem = s.mem := by
  simp only [frameDelayTick, release]
  split
  · split <;> rfl
  · rfl

theorem rtuRespond_mem (s : State) : (rtuRespond s).mem = s.mem := by
  simp only [rtuRespond, respondAddressed]
  split
  · rfl
  · split
    · split <;> rfl
    · rfl

theorem keepsReadOnly_rtuComplete (h : s.build.Legal) (hl : s.lastCount = s.rxq.length)
    (ht : rtuComplete s = .next t) : KeepsReadOnly s t := by
  obtain ⟨d, -, rfl⟩ | ⟨-, u, hu, rfl⟩ := rtuComplete_cases h hl ht
  · obtain ⟨hi, lo, e⟩ := validateCrc_eq (takeFrame s) s.rxq
    rw [e]
    exact keepsReadOnly_of_mem rfl
  · exact KeepsReadOnly.trans (t := u) hu.keepsReadOnly (keepsReadOnly_of_mem (rtuRespond_mem _))

theorem keepsReadOnly_serialTick (h : s.build.Legal) (ht : serialTick s = .next t) : KeepsReadOnly s t := by
  obtain rfl | ⟨-, -, rfl⟩ | ⟨-, -, rfl⟩ | ⟨-, hl, hc⟩ | ⟨-, rfl⟩ | ⟨-, rfl⟩ := serialTick_cases ht
  · exact keepsReadOnly_of_mem rfl
  · exact keepsReadOnly_of_mem rfl
  · exact keepsReadOnly_of_mem rfl
  · exact keepsReadOnly_rtuComplete (s := countDown s) h hl hc
  · exact keepsReadOnly_of_mem (leadInTick_mem s)
  · exact keepsReadOnly_of_mem (frameDelayTick_mem s)

/-! ### Every event -/

theorem keepsReadOnly_handle {e : Event} (h : s.build.Legal) (hr : e.isReset = false) (ha : e.isAppWrite = false)
    (ht : handle e s = .next t) : KeepsReadOnly s t := by
  cases e with
  | reset l => cases hr
  | appWrite ws => cases ha
  | pollTcp between => exact keepsReadOnly_tcpPoll h ht
  | tick => exact keepsReadOnly_serialTick h ht
  | pollSerial => cases ht; exact keepsReadOnly_of_mem (rtuPoll_mem s)
  | rxByte b => cases ht; exact keepsReadOnly_of_mem rfl
  | txDrained => cases ht; exact keepsReadOnly_of_mem (txDrained_mem s)
  | tcpConnect => cases ht; exact keepsReadOnly_of_mem rfl
  | tcpConnectWithdraw => cases ht; exact keepsReadOnly_of_mem rfl
  | tcpData i octets => cases ht; exact keepsReadOnly_of_mem (tcpData_mem i octets s)
  | tcpClose i => cases ht; exact keepsReadOnly_of_mem (tcpClose_mem i s)
  | runtime cs => cases ht; exact keepsReadOnly_of_mem rfl

end readOnly

/-- Settles O57: every handler keeps the two tables, and no other event of the framers touches the bank. -/
theorem mastersCannotWriteReadOnlyTables : Obligations.MastersCannotWriteReadOnlyTables := by
  intro s t ht he
  obtain ⟨-, rfl⟩ | ⟨e, rest, hi, hh⟩ := step_cases ht
  · exact ⟨rfl, rfl⟩
  · obtain ⟨hr, ha⟩ := he e rest hi
    exact keepsReadOnly_handle (s := { s with inputs := rest }) (step_config ht).1 hr ha hh

/-! ## The application (R76) -/

section application

variable {b : Build} {m : Memory}

theorem applyWrite_bit_other {w : BankWrite} {sp : BitSpace} {a : Nat} (h : ∀ v, w ≠ .bit sp a v) :
    (applyWrite b m w).bit sp a = m.bit sp a := by
  cases w with
  | word sp' i v =>
    simp only [applyWrite]
    split
    · simp only [Memory.bit, Memory.bits_setWords]
    · rfl
  | bit sp' i v =>
    simp only [applyWrite]
    split
    · by_cases hs : sp = sp'
      · subst hs
        have ha : a ≠ i := fun ha => h v (ha ▸ rfl)
        simp only [Memory.bit, Memory.bits_setBits, Table.read_write_other ha]
      · simp only [Memory.bit, Memory.bits_setBits_other _ hs]
    · rfl

theorem applyWrite_word_other {w : BankWrite} {sp : WordSpace} {a : Nat} (h : ∀ v, w ≠ .word sp a v) :
    (applyWrite b m w).word sp a = m.word sp a := by
  cases w with
  | bit sp' i v =>
    simp only [applyWrite]
    split
    · simp only [Memory.word, Memory.words_setBits]
    · rfl
  | word sp' i v =>
    simp only [applyWrite]
    split
    · by_cases hs : sp = sp'
      · subst hs
        have ha : a ≠ i := fun ha => h v (ha ▸ rfl)
        simp only [Memory.word, Memory.words_setWords, Table.read_write_other ha]
      · simp only [Memory.word, Memory.words_setWords_other _ hs]
    · rfl

theorem applyWrite_bit_same {sp : BitSpace} {a : Nat} {v : Bool} (h : m.wf) (ha : a < bitSize b sp) :
    (applyWrite b m (.bit sp a v)).bit sp a = v := by
  simp only [applyWrite, if_pos ha, Memory.bit, Memory.bits_setBits, Table.read_write_same (Memory.bits_wf h sp)]

theorem applyWrite_word_same {sp : WordSpace} {a : Nat} {v : Word16} (h : m.wf) (ha : a < wordSize b sp) :
    (applyWrite b m (.word sp a v)).word sp a = v := by
  simp only [applyWrite, if_pos ha, Memory.word, Memory.words_setWords, Table.read_write_same (Memory.words_wf h sp)]

/-- What no single write of a list changes, the list does not change. -/
theorem applyWrites_keeps {α : Type} {f : Memory → α} {ws : List BankWrite}
    (h : ∀ w ∈ ws, ∀ m, f (applyWrite b m w) = f m) : f (applyWrites b m ws) = f m := by
  induction ws generalizing m with
  | nil => rfl
  | cons w ws ih => exact (ih fun x hx => h x (by simp [hx])).trans (h w (by simp) m)

theorem applyWrites_bit_other {ws : List BankWrite} {sp : BitSpace} {a : Nat} (h : ∀ w ∈ ws, ∀ v, w ≠ .bit sp a v) :
    (applyWrites b m ws).bit sp a = m.bit sp a :=
  applyWrites_keeps (f := fun m => m.bit sp a) fun w hw _ => applyWrite_bit_other (h w hw)

theorem applyWrites_word_other {ws : List BankWrite} {sp : WordSpace} {a : Nat}
    (h : ∀ w ∈ ws, ∀ v, w ≠ .word sp a v) : (applyWrites b m ws).word sp a = m.word sp a :=
  applyWrites_keeps (f := fun m => m.word sp a) fun w hw _ => applyWrite_word_other (h w hw)

theorem applyWrites_append_cons (pre post : List BankWrite) (w : BankWrite) :
    applyWrites b m (pre ++ w :: post) = applyWrites b (applyWrite b (applyWrites b m pre) w) post := by
  simp [applyWrites]

end application

/-- Settles O58: a list of writes leaves in each element the value of the last write that names it. -/
theorem applicationWritesOnlyTheBank : Obligations.ApplicationWritesOnlyTheBank := by
  intro s ws rest hc hi
  refine ⟨_, step_event hc hi, rfl, fun sp a => applyWrites_bit_other, fun sp a => applyWrites_word_other,
    fun hm pre post sp a v hw hp ha => ?_, fun hm pre post sp a v hw hp ha => ?_⟩
  · subst hw
    simp only [appWrite, applyWrites_append_cons, applyWrites_bit_other hp]
    exact applyWrite_bit_same (applyWrites_wf pre hm) ha
  · subst hw
    simp only [appWrite, applyWrites_append_cons, applyWrites_word_other hp]
    exact applyWrite_word_same (applyWrites_wf pre hm) ha

end Sys2Proof.Machine

namespace Sys2Proof

/-! ## The operands of a PDU (R95 to R108) -/

/-- The operands of `i` are what the decoder of its format reads in the octets after the function code. -/
def Instr.OperandsIn (q : List Octet) : Instr → Prop
  | .rdcoil o | .rddisc o | .rdhold o | .rdinreg o => decodeRd q = o
  | .wrcoil o | .wrreg o => decodeWr1 q = o
  | .wrcoils o | .wrregs o => decodeWrn q = o
  | .dbginfo => True
  | .dbgset o => decodeSet q = o
  | .dbgget o => decodeGet q = o
  | .dbglist o => decodeList q = o
  | .dbgmd5 m => decodeMarker q = m

/-- The opcode map selects by function code and leaves the operands to the format's decoder (R108). -/
theorem decodeFunction_eq_some_iff {fc : Octet} {q : List Octet} {i : Instr} :
    decodeFunction fc q = some i ↔ functionCode i = fc ∧ i.OperandsIn q := by
  constructor
  · intro h
    obtain rfl := functionCode_decodeFunction h
    refine ⟨rfl, ?_⟩
    cases i <;> cases h <;> trivial
  · rintro ⟨rfl, h⟩
    cases i <;> cases h <;> rfl

theorem decode_eq_ok_iff {p : List Octet} {i : Instr} :
    decode p = .ok i ↔ ∃ q, p = functionCode i :: q ∧ i.OperandsIn q := by
  simp only [decode_ok_iff, decodeFunction_eq_some_iff]
  constructor
  · rintro ⟨_, q, rfl, rfl, h⟩
    exact ⟨q, rfl, h⟩
  · rintro ⟨q, rfl, h⟩
    exact ⟨_, q, rfl, rfl, h⟩

/-- Each format's decoder reads in the payload of a well-formed instruction the operands it was written from. -/
theorem operandsIn_encodePayload (i : Instr) (h : i.wf = true) : i.OperandsIn (encodePayload i) := by
  cases i with
  | rdcoil o | rddisc o | rdhold o | rdinreg o =>
    cases o with
    | none => rfl
    | some o => exact decodeRd_encodeRd o
  | wrcoil o | wrreg o =>
    cases o with
    | none => rfl
    | some o => exact decodeWr1_encodeWr1 o
  | wrcoils o | wrregs o =>
    cases o with
    | none => rfl
    | some o => exact decodeWrn_encodeWrn o h
  | dbginfo => trivial
  | dbgset o =>
    cases o with
    | none => rfl
    | some o => exact decodeSet_encodeSet o h
  | dbgget o =>
    cases o with
    | none => rfl
    | some o => exact decodeGet_encodeGet o
  | dbglist o =>
    cases o with
    | none => rfl
    | some o => exact decodeList_encodeList o h
  | dbgmd5 m =>
    cases m with
    | none => rfl
    | some m => exact decodeMarker_be16enc m

/-- Settles O1: the function code selects the instruction, and its operands stand in its payload. -/
theorem decodeOfEncodeIsIdentity : Obligations.DecodeOfEncodeIsIdentity :=
  fun i h => decode_eq_ok_iff.2 ⟨encodePayload i, rfl, operandsIn_encodePayload i h⟩

/-- Settles O2: the decoder evaluated on each PDU. -/
theorem writtenPdusDecodeToTheirInstruction : Obligations.WrittenPdusDecodeToTheirInstruction :=
  ⟨rfl, rfl, rfl, rfl, rfl, rfl, rfl, rfl, rfl, rfl, rfl, rfl, rfl⟩


/-! ## Formats and their length (R111, R112) -/

/-- What R111 and R112 say of the decoder `dec` of one format, whose length for the payload `q` is `n` octets, the
function code counted: the operands are `short` exactly when the PDU is, and otherwise octets behind it are ignored. -/
def FollowsFormat {α : Type} (dec : List Octet → Option α) (short : Option α → Prop) (q : List Octet) (n : Nat) : Prop :=
  (short (dec q) ↔ q.length + 1 < n) ∧ (n ≤ q.length + 1 → ∀ extra, dec (q ++ extra) = dec q)

/-- The operands of format `WRN` are short: the fixed part or some announced data octet is missing (R99, R112). -/
def WrnOps.Short : Option WrnOps → Prop
  | none => True
  | some o => o.data.length < o.byteCount.toNat

/-- The operands of 0x42 are short: the fixed part or some announced value octet is missing (R103, R112). -/
def SetOps.Short : Option SetOps → Prop
  | none => True
  | some o => o.value.length < o.length.toNat

/-- The operands of 0x44 are short: the count or some announced index is missing (R105, R112). -/
def ListOps.Short : Option ListOps → Prop
  | none => True
  | some o => o.idx.length < o.n.toNat

section formats
variable (q : List Octet)

theorem decodeRd_followsFormat : FollowsFormat decodeRd (· = none) q 5 := by
  match q with
  | [] | [_] | [_, _] | [_, _, _] => simp [FollowsFormat, decodeRd]
  | _ :: _ :: _ :: _ :: q => simp [FollowsFormat, decodeRd]

theorem decodeWr1_followsFormat : FollowsFormat decodeWr1 (· = none) q 5 := by
  match q with
  | [] | [_] | [_, _] | [_, _, _] => simp [FollowsFormat, decodeWr1]
  | _ :: _ :: _ :: _ :: q => simp [FollowsFormat, decodeWr1]

theorem decodeGet_followsFormat : FollowsFormat decodeGet (· = none) q 5 := by
  match q with
  | [] | [_] | [_, _] | [_, _, _] => simp [FollowsFormat, decodeGet]
  | _ :: _ :: _ :: _ :: q => simp [FollowsFormat, decodeGet]

theorem decodeMarker_followsFormat : FollowsFormat decodeMarker (· = none) q 3 := by
  match q with
  | [] | [_] => simp [FollowsFormat, decodeMarker]
  | _ :: _ :: q => simp [FollowsFormat, decodeMarker]

theorem decodeWrn_followsFormat : FollowsFormat decodeWrn WrnOps.Short q (6 + (q.getD 4 0#8).toNat) := by
  match q with
  | [] | [_] | [_, _] | [_, _, _] | [_, _, _, _] => simp [FollowsFormat, WrnOps.Short, decodeWrn]
  | s1 :: s0 :: c1 :: c0 :: bc :: d =>
    refine ⟨?_, fun hn extra => ?_⟩
    · simp only [decodeWrn, WrnOps.Short, List.length_take, List.length_cons, List.getD_cons_succ, List.getD_cons_zero]
      omega
    · have hd : bc.toNat ≤ d.length := by
        simp only [List.length_cons, List.getD_cons_succ, List.getD_cons_zero] at hn
        omega
      simp only [List.cons_append, decodeWrn, List.take_append_of_le_length hd]

theorem decodeSet_followsFormat :
    FollowsFormat decodeSet SetOps.Short q (6 + (be16 (q.getD 3 0#8) (q.getD 4 0#8)).toNat) := by
  match q with
  | [] | [_] | [_, _] | [_, _, _] | [_, _, _, _] => simp [FollowsFormat, SetOps.Short, decodeSet, Nat.lt_add_right]
  | i1 :: i0 :: f :: l1 :: l0 :: v =>
    refine ⟨?_, fun hn extra => ?_⟩
    · simp only [decodeSet, SetOps.Short, List.length_take, List.length_cons, List.getD_cons_succ, List.getD_cons_zero]
      omega
    · have hv : (be16 l1 l0).toNat ≤ v.length := by
        simp only [List.length_cons, List.getD_cons_succ, List.getD_cons_zero] at hn
        omega
      simp only [List.cons_append, decodeSet, List.take_append_of_le_length hv]

/-- The first `n` fields stand in the first `2 * n` octets. -/
theorem take_be16s : ∀ (l : List Octet) (n : Nat), (be16s l).take n = be16s (l.take (2 * n))
  | _, 0 => by simp [be16s]
  | [], n + 1 => by simp [be16s]
  | [_], n + 1 => by simp [be16s, Nat.mul_add]
  | a :: b :: l, n + 1 => by simp [be16s, Nat.mul_add, take_be16s l n]

theorem decodeList_followsFormat :
    FollowsFormat decodeList ListOps.Short q (3 + 2 * (be16 (q.getD 0 0#8) (q.getD 1 0#8)).toNat) := by
  match q with
  | [] | [_] => simp [FollowsFormat, ListOps.Short, decodeList, Nat.lt_add_right]
  | n1 :: n0 :: r =>
    refine ⟨?_, fun hn extra => ?_⟩
    · simp only [decodeList, ListOps.Short, List.length_take, be16s_length, List.length_cons, List.getD_cons_succ,
        List.getD_cons_zero]
      omega
    · have hr : 2 * (be16 n1 n0).toNat ≤ r.length := by
        simp only [List.length_cons, List.getD_cons_succ, List.getD_cons_zero] at hn
        omega
      simp only [List.cons_append, decodeList, take_be16s, List.take_append_of_le_length hr]

end formats

end Sys2Proof

namespace Sys2Proof.Machine

open Sys2Proof

/-- The short and truncated forms of an instruction (R112). -/
def ShortForm : Instr → Prop
  | .rdcoil o | .rddisc o | .rdhold o | .rdinreg o => o = none
  | .wrcoil o | .wrreg o => o = none
  | .wrcoils o | .wrregs o => WrnOps.Short o
  | .dbginfo => False
  | .dbgset o => SetOps.Short o
  | .dbgget o => o = none
  | .dbglist o => ListOps.Short o
  | .dbgmd5 m => m = none

/-- A PDU shorter than its format is a short form, and no other; behind any other PDU octets are ignored. -/
theorem pdu_followsFormat {i : Instr} {q : List Octet} (h : i.OperandsIn q) :
    (ShortForm i ↔ q.length + 1 < formatLength (functionCode i :: q)) ∧
      (formatLength (functionCode i :: q) ≤ q.length + 1 → ∀ extra, i.OperandsIn (q ++ extra)) := by
  cases i with
  | rdcoil o | rddisc o | rdhold o | rdinreg o => exact h ▸ decodeRd_followsFormat q
  | wrcoil o | wrreg o => exact h ▸ decodeWr1_followsFormat q
  | wrcoils o | wrregs o => exact h ▸ decodeWrn_followsFormat q
  | dbginfo => exact ⟨⟨False.elim, fun hl => by simp [formatLength, functionCode] at hl⟩, fun _ _ => trivial⟩
  | dbgset o => exact h ▸ decodeSet_followsFormat q
  | dbgget o => exact h ▸ decodeGet_followsFormat q
  | dbglist o => exact h ▸ decodeList_followsFormat q
  | dbgmd5 m => exact h ▸ decodeMarker_followsFormat q

/-! ## What a short form is answered (R112, R223, R292) -/

/-- The response PDU to a short form. -/
def shortReply (s : State) (i : Instr) : List Octet :=
  if isStandard i then excBuild (functionCode i) .illegalValue
  else [functionCode i, resOutOfRange] ++ if functionCode i = 0x45#8 then s.build.hash else []

theorem shortReply_standard {s : State} {i : Instr} (h : isStandard i = true) :
    shortReply s i = [functionCode i ||| 0x80#8, 0x03#8] := if_pos h

theorem shortReply_debug {s : State} {i : Instr} (h : isStandard i = false) :
    shortReply s i = [functionCode i, 0x81#8] ++ if functionCode i = 0x45#8 then s.build.hash else [] :=
  if_neg (Bool.eq_false_iff.1 h)

/-- A write of several elements whose data is short fails a check on values, whichever is the first (R225). -/
theorem execWrcoils_short {o : Option WrnOps} (s : State) (h : WrnOps.Short o) :
    execWrcoils o s = raiseExc 0x0F#8 .illegalValue s := by
  rcases o with _ | ⟨start, count, bc, data⟩
  · rfl
  · have hd : data.length < bc.toNat := h
    simp only [execWrcoils, if_pos hd, ite_self]

theorem execWrregs_short {o : Option WrnOps} (s : State) (h : WrnOps.Short o) :
    execWrregs o s = raiseExc 0x10#8 .illegalValue s := by
  rcases o with _ | ⟨start, count, bc, data⟩
  · rfl
  · have hd : data.length < bc.toNat := h
    simp only [execWrregs, if_pos hd, ite_self]

theorem execDbgset_short {o : Option SetOps} (s : State) (h : SetOps.Short o) :
    execDbgset o s = debugError 0x42#8 s := by
  rcases o with _ | ⟨index, force, length, value⟩
  · rfl
  · have hv : value.length < length.toNat := h
    simp only [execDbgset, if_pos hv, ite_self]

theorem execDbglist_short {o : Option ListOps} (s : State) (h : ListOps.Short o) :
    execDbglist o s = debugError 0x44#8 s := by
  rcases o with _ | ⟨n, idx⟩
  · rfl
  · have hi : idx.length < n.toNat := h
    simp only [execDbglist, if_pos (Or.inr hi)]

/-- R112: a short form is answered from its function code, and nothing but the response is new. -/
theorem exec_shortForm {i : Instr} (s : State) (h : ShortForm i) : exec i s = .next (s.reply (shortReply s i)) := by
  cases i with
  | rdcoil o | rddisc o | rdhold o | rdinreg o | wrcoil o | wrreg o | dbgget o | dbgmd5 o => obtain rfl := h; rfl
  | wrcoils o => exact execWrcoils_short s h
  | wrregs o => exact execWrregs_short s h
  | dbginfo => exact h.elim
  | dbgset o => exact execDbgset_short s h
  | dbglist o => exact execDbglist_short s h

/-- Settles O4: a PDU short of its format is a short form, which every handler answers alike. -/
theorem shortPdusAreAnsweredAndExcessIgnored : Obligations.ShortPdusAreAnsweredAndExcessIgnored := by
  intro p i s hd
  obtain ⟨q, rfl, hq⟩ := decode_eq_ok_iff.1 hd
  obtain ⟨hshort, hexcess⟩ := pdu_followsFormat hq
  refine ⟨fun hl hi => ?_, fun hl hi => ?_, fun hl extra => ?_⟩
  · exact shortReply_standard hi ▸ exec_shortForm s (hshort.2 hl)
  · exact shortReply_debug hi ▸ exec_shortForm s (hshort.2 hl)
  · exact decode_eq_ok_iff.2 ⟨q ++ extra, rfl, hexcess hl extra⟩

end Sys2Proof.Machine

namespace Sys2Proof.Machine

open Sys2Proof

/-! ## The CRC unit (40_crc16)

A shift is linear over exclusive or. So eight shifts move the high octet down and add what the low octet alone gives,
which is what the tables hold (R133); this is one step of the accumulator with its halves swapped (R135). -/

@[simp] theorem hi8_xor (v w : Word16) : hi8 (v ^^^ w) = hi8 v ^^^ hi8 w := BitVec.extractLsb'_xor

@[simp] theorem lo8_xor (v w : Word16) : lo8 (v ^^^ w) = lo8 v ^^^ lo8 w := BitVec.extractLsb'_xor

@[simp] theorem hi8_setWidth (x : Octet) : hi8 (x.setWidth 16) = 0#8 := by
  ext i hi
  simp [hi8]

@[simp] theorem lo8_setWidth (x : Octet) : lo8 (x.setWidth 16) = x := by
  ext i hi
  simp [lo8, BitVec.getLsbD_eq_getElem hi, show i < 16 by omega]

theorem eq_be16_iff {v : Word16} {x y : Octet} : v = be16 x y ↔ hi8 v = x ∧ lo8 v = y := by
  rw [← be16_inj, be16_hi8_lo8]

@[simp] theorem hi8_setWidth_shiftLeft_eight (x : Octet) : hi8 (x.setWidth 16 <<< 8) = x := by
  ext i hi
  simp [hi8, BitVec.getLsbD_eq_getElem hi, show 8 + i < 16 ∧ i < 16 by omega]

@[simp] theorem lo8_setWidth_shiftLeft_eight (x : Octet) : lo8 (x.setWidth 16 <<< 8) = 0#8 := by
  ext i hi
  simp [lo8, hi]

/-- A value is its high octet shifted up and its low octet (R13). -/
theorem shiftLeft_hi8_xor_lo8 (w : Word16) : (hi8 w).setWidth 16 <<< 8 ^^^ (lo8 w).setWidth 16 = w :=
  (eq_be16_iff.2 (by simp)).trans (be16_hi8_lo8 w)

theorem crcShift_xor (v w : Word16) : crcShift (v ^^^ w) = crcShift v ^^^ crcShift w := by
  simp only [crcShift, BitVec.getLsbD_xor, BitVec.ushiftRight_xor_distrib]
  cases v.getLsbD 0 <;> cases w.getLsbD 0 <;> simp [BitVec.xor_assoc]
  case true.false => exact BitVec.xor_comm _ _

theorem crcShift8_xor (v w : Word16) : crcShift8 (v ^^^ w) = crcShift8 v ^^^ crcShift8 w := by
  simp only [crcShift8, crcShift_xor]

/-- Each of the eight shifts finds bit 0 clear. -/
theorem crcShift8_setWidth_shiftLeft_eight (x : Octet) : crcShift8 (x.setWidth 16 <<< 8) = x.setWidth 16 := by
  have hdown : crcShift8 (x.setWidth 16 <<< 8) = x.setWidth 16 <<< 8 >>> 8 := by simp [crcShift8, crcShift]
  rw [hdown]
  bv_omega

/-- Settles O5: the entries are data, so they are compared with the shifts one by one. -/
theorem crcTablesFollowTheirDefinition : Obligations.CrcTablesFollowTheirDefinition := by
  have entry : ∀ i : Fin 256, tabHi.getD i 0#8 = lo8 (crcShift8 (BitVec.ofNat 16 i)) ∧
      tabLo.getD i 0#8 = hi8 (crcShift8 (BitVec.ofNat 16 i)) := by decide +kernel
  exact ⟨tabHi_length, tabLo_length, fun i hi => entry ⟨i, hi⟩⟩

theorem crcTables_getD_toNat (x : Octet) :
    tabHi.getD x.toNat 0#8 = lo8 (crcShift8 (x.setWidth 16)) ∧
      tabLo.getD x.toNat 0#8 = hi8 (crcShift8 (x.setWidth 16)) := by
  obtain ⟨-, -, entry⟩ := crcTablesFollowTheirDefinition
  simpa using entry x.toNat x.isLt

theorem tabHi_getD_toNat (x : Octet) : tabHi.getD x.toNat 0#8 = lo8 (crcShift8 (x.setWidth 16)) :=
  (crcTables_getD_toNat x).1

theorem tabLo_getD_toNat (x : Octet) : tabLo.getD x.toNat 0#8 = hi8 (crcShift8 (x.setWidth 16)) :=
  (crcTables_getD_toNat x).2

/-- Eight shifts move the high octet down and add what the low octet gives (R133). -/
theorem crcShift8_eq (t : Word16) :
    crcShift8 t = (hi8 t).setWidth 16 ^^^ crcShift8 ((lo8 t).setWidth 16) := by
  rw [← crcShift8_setWidth_shiftLeft_eight, ← crcShift8_xor, shiftLeft_hi8_xor_lo8]

/-- One step of the accumulator is eight shifts of the conventional register, octets swapped (R132, R135). -/
theorem crcStep_lo8_hi8 (c : Word16) (b : Octet) :
    crcStep (lo8 c, hi8 c) b =
      (lo8 (crcShift8 (c ^^^ b.setWidth 16)), hi8 (crcShift8 (c ^^^ b.setWidth 16))) := by
  rw [crcShift8_eq, crcStep, tabHi_getD_toNat, tabLo_getD_toNat]
  simp

theorem crcRun_eq (octets : List Octet) :
    crcRun octets = (lo8 (crcConventional octets), hi8 (crcConventional octets)) :=
  List.foldl_hom (fun c => (lo8 c, hi8 c)) (init := 0xFFFF#16) crcStep_lo8_hi8

/-- Settles O6: the halves are the register's octets after every step, so they are at the end. -/
theorem crcMatchesTheConventionalRegister : Obligations.CrcMatchesTheConventionalRegister := by
  refine ⟨crcRun_eq, fun seed payload => ?_, by decide +kernel, by decide +kernel⟩
  rw [hi8_crc16, lo8_crc16, crcRun_eq]
  exact ⟨rfl, rfl⟩

/-! ### The residue and single-bit errors (R136, R138) -/

/-- `TAB_LO` takes no value twice: by linearity, two indices with one entry differ by an index whose entry is 0. -/
theorem tabLo_getD_inj {x y : Octet} : tabLo.getD x.toNat 0#8 = tabLo.getD y.toNat 0#8 ↔ x = y := by
  refine ⟨fun h => ?_, fun h => h ▸ rfl⟩
  have hz : tabLo.getD (x ^^^ y).toNat 0#8 = 0#8 := by
    rw [tabLo_getD_toNat, BitVec.setWidth_xor, crcShift8_xor, hi8_xor, ← tabLo_getD_toNat, ← tabLo_getD_toNat, h,
      BitVec.xor_self]
  have hi := tabLo_eq_zero ⟨(x ^^^ y).toNat, BitVec.isLt _⟩ hz
  exact BitVec.xor_eq_zero_iff.1 (BitVec.eq_of_toNat_eq (congrArg Fin.val hi))

/-- A step loses nothing: its result gives back the old low half and the index it looked up (R132). -/
theorem crcStep_inj {h l b h' l' b' : Octet} :
    crcStep (h, l) b = crcStep (h', l') b' ↔ h ^^^ b = h' ^^^ b' ∧ l = l' := by
  rw [crcStep, crcStep, Prod.mk.injEq, tabLo_getD_inj]
  refine ⟨fun ⟨hHi, hIndex⟩ => ⟨hIndex, ?_⟩, fun ⟨hIndex, hl⟩ => ⟨by rw [hIndex, hl], hIndex⟩⟩
  rwa [hIndex, BitVec.xor_left_inj] at hHi

theorem foldl_crcStep_injective (octets : List Octet) : Function.Injective (octets.foldl crcStep) := by
  induction octets with
  | nil => exact fun _ _ h => h
  | cons b octets ih =>
    intro ⟨h, l⟩ ⟨h', l'⟩ e
    obtain ⟨hh, hl⟩ := crcStep_inj.1 (ih e)
    rw [(BitVec.xor_left_inj b).1 hh, hl]

/-- Two runs that differ in one octet never end alike (R138). -/
theorem eq_getD_of_foldl_crcStep_set_eq {octets : List Octet} {j : Nat} {b : Octet} {acc : Octet × Octet}
    (hj : j < octets.length) (e : (octets.set j b).foldl crcStep acc = octets.foldl crcStep acc) :
    b = octets.getD j 0#8 := by
  induction octets generalizing acc j with
  | nil => exact absurd hj (Nat.not_lt_zero j)
  | cons a octets ih =>
    cases j with
    | zero =>
      obtain ⟨hIndex, -⟩ := crcStep_inj.1 (foldl_crcStep_injective octets e)
      exact (BitVec.xor_right_inj acc.1).1 hIndex
    | succ j => exact ih (Nat.lt_of_succ_lt_succ hj) e

/-- The low half becomes 0 only when the octet is the high half, and the old low half then stands in the high one: entry
0 of both tables is 0 (R133). -/
theorem crcStep_eq_low_zero_iff {acc : Octet × Octet} {b y : Octet} :
    crcStep acc b = (y, 0#8) ↔ acc = (b, y) := by
  obtain ⟨h, l⟩ := acc
  have hb : crcStep (b, y) b = (y, 0#8) := by
    rw [crcStep, BitVec.xor_self]
    exact Prod.ext BitVec.xor_zero rfl
  rw [← hb, crcStep_inj, BitVec.xor_left_inj, Prod.mk.injEq]

/-- Running on over two octets ends at zero exactly when they are the accumulator's halves (R136). -/
theorem crcStep_crcStep_eq_zero_iff {acc : Octet × Octet} {x y : Octet} :
    crcStep (crcStep acc x) y = (0#8, 0#8) ↔ acc = (x, y) := by
  rw [crcStep_eq_low_zero_iff, crcStep_eq_low_zero_iff]

theorem crcCheck_iff_crcRun_eq_zero {f : List Octet} (hf : 4 ≤ f.length) :
    crcCheck f = true ↔ crcRun f = (0#8, 0#8) := by
  obtain ⟨a, p, x, y, rfl, -⟩ := frame_split f hf
  rw [crcCheck_append, crcRun_append]
  exact crcStep_crcStep_eq_zero_iff.symm

/-- Settles O7: the first equivalence is the check read octet by octet, the second runs the accumulator on. -/
theorem crcResidueCharacterisesValidFrames : Obligations.CrcResidueCharacterisesValidFrames := by
  refine ⟨fun f hf => ⟨?_, crcCheck_iff_crcRun_eq_zero hf⟩, by decide +kernel, by decide +kernel⟩
  rw [crcCheck, beq_iff_eq, eq_be16_iff]

theorem xor_one_shiftLeft_ne (b : Octet) {k : Nat} (hk : k < 8) : b ^^^ 1#8 <<< k ≠ b := by
  intro h
  have hbit := congrArg (·.getLsbD k) h
  simp [hk] at hbit

/-- Settles O8: a valid frame runs to zero, and the frame with the bit flipped cannot run there too. -/
theorem singleBitCorruptionFailsTheCheck : Obligations.SingleBitCorruptionFailsTheCheck := by
  intro f j k hf hj hk hvalid
  rw [crcCheck_iff_crcRun_eq_zero hf] at hvalid
  refine Bool.eq_false_iff.2 fun hflip => ?_
  rw [crcCheck_iff_crcRun_eq_zero (by rwa [List.length_set])] at hflip
  exact xor_one_shiftLeft_ne _ hk (eq_getD_of_foldl_crcStep_set_eq hj (hflip.trans hvalid.symm))

end Sys2Proof.Machine

namespace Sys2Proof.Machine

open Sys2Proof

/-! ## The Serial Framer, event by event (R153 to R174)

The window, the lead-in and the frame delay share one timer. A step that is not its last only counts it down; the last
one completes the frame, sends the response, or releases the line. -/

section events

variable {s : State} {rest : List Event}

theorem countDown_last (h : s.winTimer = 1#32) : countDown s = { s with winTimer := 0#32 } := by
  rw [countDown, h]
  rfl

theorem countDown_winTimer_ne_zero (h : 1 < s.winTimer.toNat) : (countDown s).winTimer ≠ 0#32 := by
  simp only [countDown]
  bv_omega

theorem countDown_last_winTimer (h : s.winTimer = 1#32) : (countDown s).winTimer = 0#32 := by
  rw [countDown_last h]

/-! ### Polling and collecting (R153 to R155) -/

theorem rtuPoll_starts (hf : s.fsm = .idle) (hq : s.rxq ≠ []) : rtuPoll s = { startWindow s with fsm := .collecting } :=
  if_pos ⟨hf, hq⟩

theorem rtuPoll_keeps (h : s.fsm = .idle → s.rxq = []) : rtuPoll s = s :=
  if_neg fun ⟨hf, hq⟩ => hq (h hf)

theorem rtuWindow_counts (h : 1 < s.winTimer.toNat) : rtuWindow s = .next (countDown s) :=
  if_neg (countDown_winTimer_ne_zero h)

theorem rtuWindow_restarts (h : s.winTimer = 1#32) (hq : s.rxq.length ≠ s.lastCount) :
    rtuWindow s = .next (startWindow (countDown s)) :=
  (if_pos (countDown_last_winTimer h)).trans (if_neg hq)

theorem rtuWindow_completes (h : s.winTimer = 1#32) (hq : s.rxq.length = s.lastCount) :
    rtuWindow s = rtuComplete { s with winTimer := 0#32 } :=
  ((if_pos (countDown_last_winTimer h)).trans (if_pos hq)).trans (congrArg rtuComplete (countDown_last h))

theorem serialTick_collecting (hf : s.fsm = .collecting) : serialTick s = rtuWindow s := by
  simp only [serialTick, hf]

theorem serialTick_idle (hf : s.fsm = .idle) : serialTick s = .next s := by
  simp only [serialTick, hf]

/-- A `Tick` in `Collecting` is a tick of the window (R155). -/
theorem step_window (hc : ConfigLegal s.build s.baud) (hi : s.inputs = .tick :: rest) (hf : s.fsm = .collecting) :
    step s = rtuWindow { s with inputs := rest } :=
  (step_event hc hi).trans (serialTick_collecting hf)

/-! ### Responding (R165 to R169) -/

theorem serialTick_leadIn (hf : s.fsm = .responding) (hp : s.txPhase = .leadIn) :
    serialTick s = .next (leadInTick s) := by
  simp only [serialTick, hf, hp]

theorem serialTick_flush (hf : s.fsm = .responding) (hp : s.txPhase = .flush) : serialTick s = .next s := by
  simp only [serialTick, hf, hp]

theorem serialTick_frameDelay (hf : s.fsm = .responding) (hp : s.txPhase = .frameDelay) :
    serialTick s = .next (frameDelayTick s) := by
  simp only [serialTick, hf, hp]

theorem leadInTick_counts (h : 1 < s.winTimer.toNat) : leadInTick s = countDown s :=
  if_neg (countDown_winTimer_ne_zero h)

theorem leadInTick_sends (h : s.winTimer = 1#32) : leadInTick s = send { s with winTimer := 0#32 } :=
  (if_pos (countDown_last_winTimer h)).trans (congrArg send (countDown_last h))

theorem frameDelayTick_counts (h : 1 < s.winTimer.toNat) : frameDelayTick s = countDown s :=
  if_neg (countDown_winTimer_ne_zero h)

/-- What the last tick of the frame delay leaves: an idle framer, its line released where it is configured (R169). -/
def State.released (s : State) : State :=
  { s with
    winTimer := 0#32
    txPhase := .leadIn
    fsm := .idle
    frameLen := 0
    txen := if s.txenPresent then false else s.txen
    trace := s.trace ++ if s.txenPresent then [.txEnDeassert] else [] }

theorem frameDelayTick_releases (h : s.winTimer = 1#32) : frameDelayTick s = s.released := by
  have hr : frameDelayTick s = release { s with winTimer := 0#32 } :=
    (if_pos (countDown_last_winTimer h)).trans (congrArg release (countDown_last h))
  rw [hr]
  cases hp : s.txenPresent <;> simp [release, State.released, toIdle, State.emit, hp]

theorem txDrained_starts (hf : s.fsm = .responding) (hp : s.txPhase = .flush) :
    txDrained s = { s with txPhase := .frameDelay, winTimer := s.t35 } :=
  if_pos ⟨hf, hp⟩

theorem txDrained_keeps (h : s.fsm ≠ .responding ∨ s.txPhase ≠ .flush) : txDrained s = s :=
  if_neg (not_and_or.2 h)

theorem rtuRespond_broadcast (h : s.isBroadcast = true) : rtuRespond s = toIdle s := if_pos h

theorem rtuRespond_addressed (h : s.isBroadcast = false) : rtuRespond s = respondAddressed s :=
  if_neg (Bool.not_eq_true _ ▸ h)

/-- An addressed response begins: the line is asserted where it is configured; with a lead-in configured that is all,
and otherwise the response is sent at once (R165). -/
theorem respondAddressed_eq (s : State) :
    respondAddressed s = { s.withCrc (s.frame.take s.frameLen) with
      fsm := .responding
      txen := if s.txenPresent then true else s.txen
      txPhase := if s.txenPresent = true ∧ s.txenLeadIn ≠ 0#32 then .leadIn else .flush
      winTimer := if s.txenPresent = true ∧ s.txenLeadIn ≠ 0#32 then s.txenLeadIn else s.winTimer
      trace := s.trace ++ (if s.txenPresent then [.txEnAssert] else []) ++
        if s.txenPresent = true ∧ s.txenLeadIn ≠ 0#32 then [] else (responseFrame s).map .txByte } := by
  cases hp : s.txenPresent
  · simp [respondAddressed, send, responseFrame, hp]
  · by_cases hl : s.txenLeadIn = 0#32
    · simp [respondAddressed, send, responseFrame, State.emit, hp, hl]
    · simp [respondAddressed, State.emit, hp, hl]

end events

/-! ### A frame about to be completed (R158, R159) -/

section completion

variable {s : State} {rest : List Event}

theorem takeFrame_whole (h : s.lastCount = s.rxq.length) :
    takeFrame s = { s with
      frame := overwrite s.frame 0 s.rxq, rxq := [], frameLen := s.rxq.length, fsm := .validating } := by
  simp [takeFrame, h]

/-- The last tick of the window on an unchanged queue completes the frame (R155, R156). -/
theorem AboutToComplete.step_eq (h : AboutToComplete s rest) :
    step s = rtuComplete { s with inputs := rest, winTimer := 0#32 } :=
  (step_window h.config h.inputs h.fsm).trans (rtuWindow_completes h.winTimer h.lastCount.symm)

/-- A frame that is not accepted leaves an idle framer; its working registers and nothing else change (R159, R161). -/
theorem AboutToComplete.step_drops (h : AboutToComplete s rest) {d : Drop}
    (hv : rtuVerdict s.rxOverrun s.slaveId s.rxq = some d) :
    ∃ hi lo, step s = .next { s with
      inputs := rest, winTimer := 0#32, rxq := [], rxOverrun := false, fsm := .idle, frameLen := 0,
      frame := overwrite s.frame 0 s.rxq, crcHi := hi, crcLo := lo } := by
  rw [h.step_eq, rtuComplete_drop (s := { s with inputs := rest, winTimer := 0#32 }) h.lastCount hv,
    takeFrame_whole (s := { s with inputs := rest, winTimer := 0#32 }) h.lastCount]
  obtain ⟨hi, lo, e⟩ := validateCrc_eq { s with
    inputs := rest, winTimer := 0#32, frame := overwrite s.frame 0 s.rxq, rxq := [], frameLen := s.rxq.length,
    fsm := .validating } s.rxq
  exact ⟨hi, lo, by rw [e]; rfl⟩

/-- A frame that is accepted is dispatched and answered in the same step (R158, R163). -/
theorem AboutToComplete.step_accepts (h : AboutToComplete s rest)
    (hv : rtuVerdict s.rxOverrun s.slaveId s.rxq = none) :
    step s = andThen (dispatch ((s.rxq.take (s.rxq.length - 2)).drop 1) (acceptedState s rest))
      fun t => .next (rtuRespond (placeResponse t)) := by
  have ha : accepted { s with inputs := rest, winTimer := 0#32 } = acceptedState s rest := by
    rw [accepted, takeFrame_whole (s := { s with inputs := rest, winTimer := 0#32 }) h.lastCount]
    rfl
  rw [h.step_eq, rtuComplete_accept (s := { s with inputs := rest, winTimer := 0#32 }) h.lastCount hv, ha]

/-- An accepted frame has a PDU (R162). -/
theorem framePdu_ne_nil {f : List Octet} (h : 4 ≤ f.length) : (f.take (f.length - 2)).drop 1 ≠ [] := by
  rw [← List.length_pos_iff, List.length_drop, List.length_take]
  omega

/-- The PDU of a frame made by `CRC_APPEND` is the one put into it (R137). -/
theorem framePdu_crcAppend (a : Octet) (q : List Octet) :
    ((crcAppend a q).take ((crcAppend a q).length - 2)).drop 1 = q := by
  rw [crcAppend_length, crcAppend_eq]
  simp

theorem dispatch_decoded {p : List Octet} {i : Instr} (h : decode p = .ok i) (s : State) : dispatch p s = exec i s := by
  simp only [dispatch, h]

end completion

/-! ### The obligations about single events -/

/-- Settles O14: the two cases of the poll. -/
theorem serialPollStartsAWindow : Obligations.SerialPollStartsAWindow := by
  intro s rest hc hi
  rw [step_event hc hi]
  exact ⟨fun hf hq => congrArg _ (rtuPoll_starts (s := { s with inputs := rest }) hf hq),
    fun _ hq => congrArg _ (rtuPoll_keeps (s := { s with inputs := rest }) fun _ => hq),
    fun hf => congrArg _ (rtuPoll_keeps (s := { s with inputs := rest }) fun hn => absurd hn hf)⟩

/-- Settles O15: the three cases of the window's tick. -/
theorem windowTickSamplesTheQueue : Obligations.WindowTickSamplesTheQueue := by
  intro s rest hc hi hf
  rw [step_window hc hi hf]
  exact ⟨fun hw => rtuWindow_counts hw, rtuWindow_restarts (s := { s with inputs := rest }),
    fun hw hq => rtuWindow_completes hw hq⟩

/-- Settles O20: the tick of each timed phase, counting and at its end, and the transmitter's report. -/
theorem responsePhasesFollowEachOther : Obligations.ResponsePhasesFollowEachOther := by
  intro s rest hc hf
  refine ⟨fun hi hp => ?_, fun hi hp => ?_, fun hi hp => ?_⟩
  · have ht : step s = .next (leadInTick { s with inputs := rest }) :=
      (step_event hc hi).trans (serialTick_leadIn hf hp)
    rw [ht]
    exact ⟨fun hw => congrArg _ (leadInTick_counts hw), fun hw => congrArg _ (leadInTick_sends hw)⟩
  · exact (step_event hc hi).trans (congrArg _ (txDrained_starts (s := { s with inputs := rest }) hf hp))
  · have ht : step s = .next (frameDelayTick { s with inputs := rest }) :=
      (step_event hc hi).trans (serialTick_frameDelay hf hp)
    rw [ht]
    exact ⟨fun hw => congrArg _ (frameDelayTick_counts hw), fun hw => congrArg _ (frameDelayTick_releases hw)⟩

/-- Settles O21: each event meets the framer where it has no rule. -/
theorem eventsWithoutARuleChangeNothing : Obligations.EventsWithoutARuleChangeNothing := by
  refine fun s rest hc => ⟨step_none hc, fun hi hf => (step_event hc hi).trans (serialTick_idle hf),
    fun hi hf hp => (step_event hc hi).trans (serialTick_flush hf hp), fun hi h => (step_event hc hi).trans ?_⟩
  exact congrArg _ (txDrained_keeps (s := { s with inputs := rest }) h)

/-! ### The obligations about a completed frame -/

/-- Settles O16: such a frame is not accepted. -/
theorem framingErrorsAreDroppedSilently : Obligations.FramingErrorsAreDroppedSilently := by
  intro s rest h herr
  rcases hv : rtuVerdict s.rxOverrun s.slaveId s.rxq with _ | d
  · obtain ⟨ho, h4, hcrc, ha⟩ := rtuVerdict_none.1 hv
    obtain he | he | he | ⟨he, he'⟩ := herr
    · exact absurd he (by simp [ho])
    · omega
    · exact absurd he (by simp [hcrc])
    · exact absurd ha (not_or.2 ⟨he, he'⟩)
  · obtain ⟨hi, lo, e⟩ := h.step_drops hv
    exact ⟨_, e, rfl⟩

/-- Settles O17: the dispatcher runs the handler of the instruction it decodes. -/
theorem serialStepRunsTheDecodedInstruction : Obligations.SerialStepRunsTheDecodedInstruction := by
  intro s rest i h ho h4 hcrc ha hd
  rw [h.step_accepts (rtuVerdict_none.2 ⟨ho, h4, hcrc, ha⟩), dispatch_decoded hd]

/-- Settles O19: a broadcast that decodes is handled, and the framer goes back to `Idle` with what the handler left. -/
theorem broadcastsAreProcessedNeverAnswered : Obligations.BroadcastsAreProcessedNeverAnswered := by
  intro s rest i h ho hwf hq
  have ha : s.rxq.getD 0 0#8 = 0xFF#8 := by rw [hq]; rfl
  have h4 : 4 ≤ s.rxq.length := by simp [hq, encode]
  have hcrc : crcCheck s.rxq = true := by rw [hq, crcCheck_crcAppend]
  have hd : decode ((s.rxq.take (s.rxq.length - 2)).drop 1) = .ok i := by
    rw [hq, framePdu_crcAppend, decodeOfEncodeIsIdentity i hwf]
  obtain ⟨t, ht, hh⟩ := exec_handled i (s := acceptedState s rest) h.config.1
  obtain ⟨he, -⟩ := hh.keeps
  have hb : (placeResponse t).isBroadcast = true := (congrArg State.isBroadcast he).trans (beq_iff_eq.2 ha)
  have hx : t.txen = s.txen := by rw [he]; rfl
  have hs := serialStepRunsTheDecodedInstruction s rest i h ho h4 hcrc (.inr ha) hd
  rw [ht, andThen_next, rtuRespond_broadcast hb] at hs
  exact ⟨t, _, ht, hs, rfl, rfl, rfl, hx, rfl, rfl, hb,
    hh.effect.emits.mono fun _ ⟨hen, hbyte⟩ => ⟨hbyte, hen⟩⟩

/-! ### The summary function (R174) -/

section summary

variable {s t : State} {rest : List Event}

theorem rtuTransact_drops {f : List Octet} {d : Drop} (hv : rtuVerdict false s.slaveId f = some d) :
    rtuTransact f s = .next (s, none) := by
  simp only [rtuVerdict, if_neg Bool.false_ne_true] at hv
  rw [rtuTransact]
  obtain ⟨hl, -⟩ | ⟨hl, hv⟩ := ite_cases hv
  · exact if_pos (.inl hl)
  obtain ⟨hcrc, -⟩ | ⟨hcrc, hv⟩ := ite_cases hv
  · exact if_pos (.inr hcrc)
  obtain ⟨ha, -⟩ | ⟨-, hv⟩ := ite_cases hv
  · exact (if_neg (not_or.2 ⟨hl, hcrc⟩)).trans (if_pos ha)
  · cases hv

theorem rtuTransact_accepts {f : List Octet} (hv : rtuVerdict false s.slaveId f = none)
    (ht : dispatch ((f.take (f.length - 2)).drop 1) s = .next t) :
    rtuTransact f s = .next (t, if f.getD 0 0#8 = broadcastAddr then none
      else some (crcAppend (f.getD 0 0#8) t.respPdu)) := by
  obtain ⟨-, h4, hcrc, ha⟩ := rtuVerdict_none.1 hv
  have hl : ¬(f.length ≤ 3 ∨ crcCheck f = false) := by simp [hcrc]; omega
  have hn : ¬(f.getD 0 0#8 ≠ s.slaveId ∧ f.getD 0 0#8 ≠ broadcastAddr) := fun ⟨h, h'⟩ => ha.elim h h'
  rw [rtuTransact, if_neg hl, if_neg hn, ht]

/-- What a handler made of a state, put into the state of an accepted frame. -/
def handledState (s : State) (rest : List Event) (t : State) : State :=
  { acceptedState s rest with mem := t.mem, dbgOrder := t.dbgOrder, trace := t.trace, respPdu := t.respPdu }

/-- The handler of an accepted frame sees nothing of the framer (R221). -/
theorem dispatch_acceptedState {p : List Octet} (ht : dispatch p { s with inputs := rest } = .next t)
    (hh : Handled { s with inputs := rest } t) : dispatch p (acceptedState s rest) = .next (handledState s rest t) := by
  rw [dispatch_agree (s := { s with inputs := rest }) (u := acceptedState s rest) rfl rfl rfl rfl rfl ht]
  obtain ⟨m, o, out, q, rfl, -⟩ := hh
  simp [handledState, acceptedState]

/-- The response goes out behind the address that the request came to (R163, R165). -/
theorem responseFrame_placeResponse (hq : s.rxq ≠ []) :
    responseFrame (placeResponse (handledState s rest t)) = crcAppend (s.rxq.getD 0 0#8) t.respPdu := by
  obtain ⟨a, q, hq⟩ := List.exists_cons_of_ne_nil hq
  have hf : (handledState s rest t).frame = a :: (q ++ s.frame.drop s.rxq.length) := by
    simp [handledState, acceptedState, overwrite, hq]
  rw [responseFrame_eq (placeResponse_frame hf).2, hq]
  rfl

end summary

/-- Settles O18: framer and summary judge the frame alike, and its handler does the same before and after the frame is
taken. -/
theorem serialTransactionRefinesItsSummary : Obligations.SerialTransactionRefinesItsSummary := by
  intro s rest h ho
  rcases hv : rtuVerdict s.rxOverrun s.slaveId s.rxq with _ | d
  · obtain ⟨-, h4, -, -⟩ := rtuVerdict_none.1 hv
    obtain ⟨t, ht, hh⟩ := dispatch_handled (s := { s with inputs := rest }) h.config.1 (framePdu_ne_nil h4)
    have hs : step s = .next (rtuRespond (placeResponse (handledState s rest t))) := by
      rw [h.step_accepts hv, dispatch_acceptedState ht hh, andThen_next]
    rw [ho] at hv
    have hr := rtuTransact_accepts (s := { s with inputs := rest }) hv ht
    by_cases hb : s.rxq.getD 0 0#8 = broadcastAddr
    · rw [if_pos hb] at hr
      rw [rtuRespond_broadcast (beq_iff_eq.2 hb)] at hs
      exact ⟨t, _, _, hr, hs, rfl, rfl, rfl, rfl, rfl, rfl, rfl⟩
    · have hf := responseFrame_placeResponse (s := s) (rest := rest) (t := t) (List.length_pos_iff.1 (by omega))
      rw [if_neg hb] at hr
      rw [rtuRespond_addressed (beq_eq_false_iff_ne.2 hb), respondAddressed_eq, hf] at hs
      exact ⟨t, _, _, hr, hs, rfl, rfl, rfl, rfl, rfl, hf, rfl, fun hp hl => ⟨if_pos ⟨hp, hl⟩, if_pos ⟨hp, hl⟩⟩,
        fun hn => if_neg fun ⟨hp, hl⟩ => hn.elim (fun h => Bool.noConfusion (h.symm.trans hp)) hl, rfl⟩
  · obtain ⟨hi, lo, e⟩ := h.step_drops hv
    rw [ho] at hv
    exact ⟨_, _, _, rtuTransact_drops (s := { s with inputs := rest }) hv, e, rfl, rfl, rfl, rfl, rfl, rfl, rfl⟩

/-! ### A response run to its end (R170) -/

section run

variable {s t : State} {rest : List Event}

theorem run_succ (h : step s = .next t) (n : Nat) : Host.Core.run core (n + 1) s = Host.Core.run core n t := by
  have e : core.step s = .next t := h
  simp only [Host.Core.run, e]

/-- A tick of the lead-in or the frame delay that is not its last counts the timer down (R166, R169). -/
theorem step_counts (hc : ConfigLegal s.build s.baud) (hf : s.fsm = .responding)
    (hp : s.txPhase = .leadIn ∨ s.txPhase = .frameDelay) (hi : s.inputs = .tick :: rest) (hw : 1 < s.winTimer.toNat) :
    step s = .next { s with inputs := rest, winTimer := s.winTimer - 1#32 } := by
  obtain ⟨hlead, -, hdelay⟩ := responsePhasesFollowEachOther s rest hc hf
  obtain hp | hp := hp
  · exact (hlead hi hp).1 hw
  · exact (hdelay hi hp).1 hw

/-- The ticks of the lead-in or the frame delay lead where its last one does. -/
theorem run_timer (hc : ConfigLegal s.build s.baud) (hf : s.fsm = .responding)
    (hp : s.txPhase = .leadIn ∨ s.txPhase = .frameDelay) (hw : 1 ≤ s.winTimer.toNat)
    (hi : s.inputs = List.replicate s.winTimer.toNat .tick ++ rest)
    (hlast : step { s with inputs := .tick :: rest, winTimer := 1#32 } = .next t) (m : Nat) :
    Host.Core.run core (s.winTimer.toNat + m) s = Host.Core.run core m t := by
  obtain ⟨n, hn⟩ := Nat.exists_eq_add_of_le' hw
  rw [hn] at hi
  rw [hn, Nat.add_right_comm]
  clear hw
  induction n generalizing s with
  | zero =>
    have h1 : s.winTimer = 1#32 := BitVec.eq_of_toNat_eq hn
    have h2 : s.inputs = .tick :: rest := hi
    rw [← h1, ← h2] at hlast
    rw [Nat.zero_add, run_succ hlast]
  | succ n ih =>
    have hn' : (s.winTimer - 1#32).toNat = n + 1 := by bv_omega
    rw [run_succ (step_counts hc hf hp hi (by omega)), Nat.add_right_comm]
    exact ih (s := { s with inputs := _, winTimer := s.winTimer - 1#32 }) hc hf hp hlast rfl hn'

/-- The lead-in to its end (R166, R167). -/
theorem run_leadIn (hc : ConfigLegal s.build s.baud) (hf : s.fsm = .responding) (hp : s.txPhase = .leadIn)
    (hw : 1 ≤ s.winTimer.toNat) (hi : s.inputs = List.replicate s.winTimer.toNat .tick ++ rest) (m : Nat) :
    Host.Core.run core (s.winTimer.toNat + m) s =
      Host.Core.run core m (send { s with inputs := rest, winTimer := 0#32 }) := by
  obtain ⟨hlead, -⟩ := responsePhasesFollowEachOther { s with inputs := .tick :: rest, winTimer := 1#32 } rest hc hf
  exact run_timer hc hf (.inl hp) hw hi ((hlead rfl hp).2 rfl) m

/-- The frame delay to its end (R169). -/
theorem run_frameDelay (hc : ConfigLegal s.build s.baud) (hf : s.fsm = .responding) (hp : s.txPhase = .frameDelay)
    (hw : 1 ≤ s.winTimer.toNat) (hi : s.inputs = List.replicate s.winTimer.toNat .tick) :
    Host.Core.run core s.winTimer.toNat s = .next { s.released with inputs := [] } := by
  obtain ⟨-, -, hdelay⟩ := responsePhasesFollowEachOther { s with inputs := [.tick], winTimer := 1#32 } [] hc hf
  exact run_timer hc hf (.inr hp) hw (hi.trans (List.append_nil _).symm) ((hdelay rfl hp).2 rfl) 0

/-- From the flush: the transmitter's report, then the frame delay to its end (R168, R169). -/
theorem run_flush (hc : ConfigLegal s.build s.baud) (hf : s.fsm = .responding) (hp : s.txPhase = .flush)
    (h35 : 1 ≤ s.t35.toNat) (hi : s.inputs = .txDrained :: List.replicate s.t35.toNat .tick) :
    Host.Core.run core (1 + s.t35.toNat) s = .next { s.released with inputs := [] } := by
  obtain ⟨-, hdrained, -⟩ := responsePhasesFollowEachOther s _ hc hf
  rw [Nat.add_comm, run_succ (hdrained hi hp)]
  exact run_frameDelay (s := { s with inputs := _, txPhase := .frameDelay, winTimer := s.t35 }) hc hf rfl h35 rfl

end run

/-- Settles O22: the lead-in ends in the flush with the response sent, and from the flush the framer is released. -/
theorem responseIsSentThenTheLineReleased : Obligations.ResponseIsSentThenTheLineReleased := by
  intro s h hf
  obtain ⟨-, hx⟩ := h.holdsResponse hf
  have hlow : (if s.txenPresent then false else s.txen) = false := by rw [hx]; cases s.txenPresent <;> rfl
  refine ⟨fun hp hi => ?_, fun hp hi => ?_⟩
  · obtain ⟨hpresent, hw⟩ := h.leadIn hf hp
    have hflush := run_flush (s := send { s with
      inputs := .txDrained :: List.replicate s.t35.toNat .tick, winTimer := 0#32 }) h.config hf rfl h.t35_pos rfl
    rw [Nat.add_assoc]
    refine ⟨_, (run_leadIn h.config hf hp hw hi _).trans hflush, ?_, rfl, hlow, rfl, rfl, rfl, rfl⟩
    simp [State.released, send, responseFrame, hpresent]
  · exact ⟨_, run_flush h.config hf hp h.t35_pos hi, rfl, rfl, hlow, rfl, rfl, rfl, rfl⟩

end Sys2Proof.Machine

namespace Sys2Proof.Machine

open Sys2Proof

/-! ## The TCP Framer: one slot in any state (R192 to R202) -/

/-- Octets that come later are collected behind those collected before (R193). -/
theorem collectLoop_append (hdr : List Octet) (len : Nat) (q more : List Octet) :
    collectLoop hdr len (q ++ more) =
      collectLoop (collectLoop hdr len q).1 (collectLoop hdr len q).2.1 ((collectLoop hdr len q).2.2 ++ more) := by
  induction q generalizing hdr len with
  | nil => rfl
  | cons b q ih =>
    by_cases hl : len < 6
    · simp only [List.cons_append, collectLoop, if_pos hl, ih]
    · simp only [List.cons_append, collectLoop, if_neg hl]

theorem mbapCollect_append (c : Slot) (more : List Octet) :
    mbapCollect { mbapCollect c with sockq := (mbapCollect c).sockq ++ more } =
      mbapCollect { c with sockq := c.sockq ++ more } := by
  simp only [mbapCollect, collectLoop_append c.hdr]

/-- A response leaves the slot emptied, and goes out behind the octets of the request's own header (R200, R201). -/
theorem mbapEmit_emptied (i : Nat) (c : Slot) (unit : Octet) (t : State) :
    mbapEmit i c.emptied unit t = { t with
      slots := t.slots.set i c.emptied
      respPdu := []
      trace := t.trace ++ [.tcpSend i (mbapAdu c.received unit t.respPdu)] } := by
  simp [mbapEmit, mbapAdu, Slot.emptied, Slot.complete, State.setSlot, State.emit, List.take_take]

/-- Settles O24: a prefix in pieces is collected like one that came at once, and the four cases of serving a slot. -/
theorem slotAssemblesAndServesOneRequest : Obligations.SlotAssemblesAndServesOneRequest := by
  refine ⟨fun c more => ⟨mbapCollect_append c more, fun h6 hm => ?_⟩, fun s i => ⟨tcpServe_dead, ?_⟩⟩
  · have hn : c.hdrLen < 6 := by omega
    have hr := Slot.received_length h6 hn
    rw [mbapCollect_waits h6 hn (hr ▸ hm), hr]
    exact ⟨rfl, rfl, rfl⟩
  · intro c hc hl h6 hn m len c'
    refine ⟨tcpServe_waits hc hl h6 hn, tcpServe_drops hc hl h6 hn, fun hm hd => ?_⟩
    simp only [tcpServe_answers hc hl h6 hn hm hd, mbapEmit_emptied]
    rfl

/-! ## What serving leaves in the table (R192, R203) -/

/-- Serving a slot puts new content into that slot, if it is live, and into no other. -/
theorem tcpServe_slots {i : Nat} {s t : State} (h : s.build.Legal) (ht : tcpServe i s = .next t) :
    t.slots = s.slots ∨ ∃ d, d.live = true ∧ t.slots = s.slots.set i d := by
  obtain e | ⟨c, d, -, -, hd, -, ⟨-, e⟩ | ⟨p, unit, u, -, hu, e⟩⟩ := tcpServe_cases i h <;> rw [e] at ht <;> cases ht
  · exact .inl rfl
  · exact .inr ⟨d, hd, rfl⟩
  · obtain ⟨m, o, out, q, rfl, -⟩ := hu
    exact .inr ⟨{ d with hdrLen := 0 }, hd, by simp [mbapEmit]⟩

/-! ## A pass in which one connection is live (R190, R204) -/

section pass

variable {s t : State}

/-- Over slots of which none is live only the runtime's changes pass (R192, log 15). -/
theorem tcpServeAll_dead {is : List Nat} (between : List (List RuntimeChange))
    (h : ∀ j ∈ is, ∀ c, s.slots[j]? = some c → c.live = false) :
    tcpServeAll is between s = .next (runtimeChanges (between.take is.length).flatten s) := by
  induction is generalizing between s with
  | nil => rfl
  | cons j is ih =>
    obtain ⟨hj, his⟩ := List.forall_mem_cons.1 h
    have hserve : tcpServe j (runtimeChanges (between.headD []) s) = .next _ := tcpServe_dead hj
    rw [tcpServeAll, hserve, andThen_next, ih (s := runtimeChanges (between.headD []) s) between.tail his,
      ← runtimeChanges_append]
    cases between <;> simp

/-- The slots of a pass are served one after the other (R77). -/
theorem tcpServeAll_append (is js : List Nat) (between : List (List RuntimeChange)) (s : State) :
    tcpServeAll (is ++ js) between s =
      andThen (tcpServeAll is between s) (tcpServeAll js (between.drop is.length)) := by
  induction is generalizing between s with
  | nil => rfl
  | cons i is ih =>
    simp only [List.cons_append, tcpServeAll]
    cases tcpServe i (runtimeChanges (between.headD []) s) with
    | next u => simp [ih]
    | fault e => rfl
    | refused e => rfl

/-- A pass that meets one live slot serves it; before and after it only the runtime changes anything. -/
theorem tcpServeAll_one_live {i : Nat} {is js : List Nat} {between : List (List RuntimeChange)}
    (his : ∀ j ∈ is, ∀ c, s.slots[j]? = some c → c.live = false)
    (ht : tcpServe i (runtimeChanges (between.take (is.length + 1)).flatten s) = .next t)
    (hjs : ∀ j ∈ js, ∀ c, t.slots[j]? = some c → c.live = false) :
    tcpServeAll (is ++ i :: js) between s =
      .next (runtimeChanges ((between.drop (is.length + 1)).take js.length).flatten t) := by
  have hhead : (between.take is.length).flatten ++ (between.drop is.length).headD [] =
      (between.take (is.length + 1)).flatten := by
    rw [List.take_add_one, List.flatten_append, List.headD_eq_head?_getD, List.head?_drop]
    cases between[is.length]? <;> simp
  rw [tcpServeAll_append, tcpServeAll_dead between his, andThen_next, tcpServeAll, ← runtimeChanges_append, hhead, ht,
    andThen_next, List.tail_drop, tcpServeAll_dead _ hjs]

end pass

theorem range_eq_append_cons {i n : Nat} (h : i < n) :
    List.range n = List.range i ++ i :: List.range' (i + 1) (n - (i + 1)) := by
  obtain ⟨k, rfl⟩ := Nat.exists_eq_add_of_lt h
  have hk : i + k + 1 - (i + 1) = k := by omega
  rw [hk, ← List.range'_succ, List.range_eq_range', List.range_eq_range', Nat.add_assoc, ← List.range'_append_1,
    Nat.zero_add]

/-- A slot whose request has been taken from it and is being handled: the header is still full (R200). -/
def Slot.taken (c : Slot) : Slot := { c.complete with sockq := [] }

/-- The state in which slot `i` is served when no slot before it is live: the runtime has changed its inputs up to this
slot (log 15). -/
def servingState (s : State) (between : List (List RuntimeChange)) (rest : List Event) (i : Nat) : State :=
  runtimeChanges (between.take (i + 1)).flatten { s with inputs := rest }

/-- What the runtime changes from the serving of slot `i` to the end of the pass (log 15). -/
def changesAfter (s : State) (between : List (List RuntimeChange)) (i : Nat) : List RuntimeChange :=
  ((between.take s.build.maxSrvClients).drop (i + 1)).flatten

section oneConnection

variable {s t : State} {between : List (List RuntimeChange)} {rest : List Event} {i : Nat} {c : Slot} {m : List Octet}

theorem AboutToServe.lt (h : AboutToServe s between rest i c m) : i < s.build.maxSrvClients := by
  rw [← h.size]
  exact (List.getElem?_eq_some_iff.1 h.slot).1

/-- The step is the serving of the live slot, and then what is left of the runtime's changes. -/
theorem AboutToServe.step_eq (h : AboutToServe s between rest i c m)
    (ht : tcpServe i (servingState s between rest i) = .next t) :
    step s = .next (runtimeChanges (changesAfter s between i) t) := by
  have hpass : step s = tcpServeAll (List.range s.build.maxSrvClients) between { s with inputs := rest } :=
    (step_event h.config h.inputs).trans (congrArg _ (if_pos h.connPending))
  have hothers {j : Nat} {d : Slot} (hj : j ≠ i) (hd : t.slots[j]? = some d) : d.live = false := by
    obtain e | ⟨d', -, e⟩ := tcpServe_slots (s := servingState s between rest i) h.config.1 ht <;> rw [e] at hd
    · exact h.others j d hj hd
    · exact h.others j d hj ((List.getElem?_set_ne hj.symm).symm.trans hd)
  rw [hpass, range_eq_append_cons h.lt, changesAfter, List.drop_take]
  have hone := tcpServeAll_one_live (s := { s with inputs := rest }) (i := i) (is := List.range i)
    (js := List.range' (i + 1) (s.build.maxSrvClients - (i + 1))) (between := between) (t := t)
    (fun j hj d => h.others j d (List.mem_range.1 hj).ne) (by rwa [List.length_range])
    (fun j hj d => hothers (Nat.ne_of_gt (List.mem_range'_1.1 hj).1))
  rwa [List.length_range, List.length_range'] at hone

/-- The changes up to the slot and those after it are all the changes of the pass. -/
theorem runtimeChanges_changesAfter (h : i < s.build.maxSrvClients) (u : State) :
    runtimeChanges (changesAfter s between i) (runtimeChanges (between.take (i + 1)).flatten u) =
      runtimeChanges (between.take s.build.maxSrvClients).flatten u := by
  have htake : (between.take s.build.maxSrvClients).take (i + 1) = between.take (i + 1) := by
    rw [List.take_take, Nat.min_eq_left h]
  rw [← runtimeChanges_append, changesAfter, ← List.flatten_append, ← htake, List.take_append_drop]

theorem AboutToServe.step_drops (h : AboutToServe s between rest i c m) (hm : 6 ≤ m.length)
    (hd : MbapDropped s.build.maxFrame m) :
    step s = .next (runtimeChanges (changesAfter s between i) ((servingState s between rest i).setSlot i c.emptied)) := by
  obtain rfl := h.received
  exact h.step_eq (tcpServe_drops h.slot h.live h.hdr h.hdrLen hm hd)

theorem AboutToServe.step_answers (h : AboutToServe s between rest i c m) (hm : 6 ≤ m.length)
    (hd : ¬MbapDropped s.build.maxFrame m)
    (ht : dispatch (m.drop 7) ((servingState s between rest i).setSlot i c.taken) = .next t) :
    step s = .next (runtimeChanges (changesAfter s between i) (mbapEmit i c.emptied (m.getD 6 0#8) t)) := by
  obtain rfl := h.received
  have ha := tcpServe_answers (s := servingState s between rest i) h.slot h.live h.hdr h.hdrLen hm hd
  exact h.step_eq (ha.trans (by rw [← Slot.taken, ht, andThen_next]))

/-- Settles O25: the slot drops the request, and the rest of the pass is the runtime's. -/
theorem malformedMbapIsDroppedSilently : Obligations.MalformedMbapIsDroppedSilently := by
  intro s between rest i c m h hm len hd
  rw [h.step_drops hm hd]
  obtain rfl := h.received
  exact congrArg _ (runtimeChanges_changesAfter h.lt
    { s with inputs := rest, slots := s.slots.set i c.emptied })

/-- A declared length that is the number of octets behind the prefix, with a PDU among them, is accepted (R196, R198). -/
theorem not_mbapDropped {n : Nat} (h8 : 8 ≤ m.length) (hn : m.length - 6 ≤ n)
    (hp : be16 (m.getD 2 0#8) (m.getD 3 0#8) = 0#16)
    (hl : (be16 (m.getD 4 0#8) (m.getD 5 0#8)).toNat = m.length - 6) : ¬MbapDropped n m := by
  have h2 : 2 ≤ (be16 (m.getD 4 0#8) (m.getD 5 0#8)).toNat := by omega
  rintro (h | h | h | h | h)
  · exact h hp
  · exact absurd (h ▸ h2) (by decide)
  · omega
  · exact h hl.symm
  · exact absurd (h ▸ h2) (by decide)

/-- Settles O26: the dispatcher runs the handler of the instruction it decodes. -/
theorem tcpStepRunsTheDecodedInstruction : Obligations.TcpStepRunsTheDecodedInstruction := by
  intro s between rest i c m k h h8 hn hp hl hk c'
  obtain ⟨t, ht, -⟩ := exec_handled k (s := (servingState s between rest i).setSlot i c.taken) h.config.1
  rw [h.step_answers (by omega) (not_mbapDropped h8 hn hp hl) ((dispatch_decoded hk _).trans ht)]
  obtain rfl := h.received
  change _ = andThen (exec k ((servingState s between rest i).setSlot i c.taken)) _
  rw [ht]
  rfl

/-! ### The summary function (R204) -/

theorem tcpTransact_drops (hd : MbapDropped s.build.maxFrame m) : tcpTransact m s = .next (s, none) := by
  simp only [tcpTransact]
  split
  · rfl
  · exact if_pos (by tauto)

/-- An accepted request is dispatched whole: its declared length leaves out none of its octets. -/
theorem tcpTransact_accepts (hm : 6 ≤ m.length) (hd : ¬MbapDropped s.build.maxFrame m)
    (ht : dispatch (m.drop 7) s = .next t) :
    tcpTransact m s = .next (t, some (mbapAdu m (m.getD 6 0#8) t.respPdu)) := by
  simp only [MbapDropped, not_or] at hd
  obtain ⟨hp, h0, hn, hl, h1⟩ := hd
  have hall : m.take (6 + (be16 (m.getD 4 0#8) (m.getD 5 0#8)).toNat) = m := List.take_of_length_le (by omega)
  simp only [tcpTransact, hall, ht]
  exact (if_neg (by tauto)).trans (if_neg h1)

/-- Settles O27: framer and summary judge the request alike, and its handler does the same before and after the request
is taken from the slot. -/
theorem tcpTransactionRefinesItsSummary : Obligations.TcpTransactionRefinesItsSummary := by
  intro s between rest i c m h hm
  by_cases hd : MbapDropped s.build.maxFrame m
  · exact ⟨_, _, _, c.emptied, tcpTransact_drops (s := servingState s between rest i) hd, h.step_drops hm hd, rfl, rfl,
      (List.append_nil _).symm, rfl, h.live, rfl, rfl⟩
  · have hp : m.drop 7 ≠ [] := h.received ▸ pdu_ne_nil (h.received.symm ▸ hd)
    obtain ⟨t, ht, hh⟩ := dispatch_handled (s := servingState s between rest i) h.config.1 hp
    have hs := h.step_answers hm hd (dispatch_agree (s := servingState s between rest i)
      (u := (servingState s between rest i).setSlot i c.taken) rfl rfl rfl rfl rfl ht)
    obtain ⟨m', o, out, q, rfl, -⟩ := hh
    rw [mbapEmit_emptied, h.received] at hs
    refine ⟨_, _, _, c.emptied, tcpTransact_accepts (s := servingState s between rest i) hm hd ht, hs, rfl, rfl, ?_, ?_,
      h.live, rfl, rfl⟩
    · simp
    · simp [servingState]

end oneConnection

/-! ## What a pass keeps (R203, R205) -/

theorem tcpServe_goes_on (i : Nat) {s : State} (h : s.build.Legal) : ∃ t, tcpServe i s = .next t := by
  obtain e | ⟨_, _, -, -, -, -, ⟨-, e⟩ | ⟨_, _, _, -, -, e⟩⟩ := tcpServe_cases i h
  · exact ⟨_, e⟩
  · exact ⟨_, e⟩
  · exact ⟨_, e⟩

/-- A pass keeps what accepting, serving one slot and the runtime's changes keep. -/
theorem tcpPoll_preserves {P : State → Prop}
    (hserve : ∀ {i s t}, s.build.Legal → P s → tcpServe i s = .next t → P t)
    (hruntime : ∀ cs {s}, P s → P (runtimeChanges cs s)) {between : List (List RuntimeChange)} {s t : State}
    (h : s.build.Legal) (hs : P (tcpAccept s)) (ht : tcpPoll between s = .next t) : P t := by
  have hserve' (i : Nat) (u : State) : u.build.Legal ∧ P u → ∃ v, tcpServe i u = .next v ∧ v.build.Legal ∧ P v := by
    rintro ⟨hb, hu⟩
    obtain ⟨v, hv⟩ := tcpServe_goes_on i hb
    exact ⟨v, hv, (effect_tcpServe hb hv).build ▸ hb, hserve hb hu hv⟩
  obtain ⟨u, hu, -, hp⟩ := tcpServeAll_keeps hserve' (fun cs _ ⟨hb, hu⟩ => ⟨hb, hruntime cs hu⟩)
    (List.range s.build.maxSrvClients) between (tcpAccept s) ⟨(effect_tcpAccept s).build ▸ h, hs⟩
  obtain rfl := Host.Outcome.next.inj (hu.symm.trans ht)
  exact hp

/-! ### The registers outside the TCP Framer (R205) -/

/-- The registers of the Serial Framer and of the CRC unit, the transmit-enable line, the receive queue and the
configuration. -/
def State.serialRegisters (s : State) :=
  (s.fsm, s.frame, s.frameLen, s.lastCount, s.winTimer, s.crcHi, s.crcLo, s.isBroadcast, s.rxOverrun, s.txPhase, s.txen,
    s.rxq, s.slaveId, s.baud, s.t15, s.t35, s.txenPresent, s.txenLeadIn)

theorem serialRegisters_tcpAccept (s : State) : (tcpAccept s).serialRegisters = s.serialRegisters := by
  obtain e | ⟨i, c, -, -, -, e⟩ := tcpAccept_cases s
  · rw [e]
  · rw [e]
    rfl

theorem serialRegisters_tcpServe {i : Nat} {s t : State} (h : s.build.Legal) (ht : tcpServe i s = .next t) :
    t.serialRegisters = s.serialRegisters := by
  obtain e | ⟨c, d, -, -, -, -, ⟨-, e⟩ | ⟨p, unit, u, -, hu, e⟩⟩ := tcpServe_cases i h <;> rw [e] at ht <;> cases ht
  · rfl
  · rfl
  · obtain ⟨m, o, out, q, rfl, -⟩ := hu
    rfl

/-- Settles O28: no part of a pass touches them. -/
theorem tcpPassLeavesTheSerialFramerAlone : Obligations.TcpPassLeavesTheSerialFramerAlone := by
  intro s t between rest hi ht
  have hc := step_config ht
  rw [step_event hc hi] at ht
  have hkeeps : t.serialRegisters = s.serialRegisters :=
    tcpPoll_preserves (P := fun u => u.serialRegisters = s.serialRegisters)
      (fun hb hu hv => (serialRegisters_tcpServe hb hv).trans hu) (fun _ _ hu => hu)
      (s := { s with inputs := rest }) hc.1 (serialRegisters_tcpAccept { s with inputs := rest }) ht
  simpa only [State.serialRegisters, Prod.mk.injEq] using hkeeps

/-! ### A live slot (R203) -/

/-- Slot `i` holds a connection. -/
def LiveAt (i : Nat) (s : State) : Prop := ∃ c, s.slots[i]? = some c ∧ c.live = true

section live

variable {s t : State} {i j : Nat} {c : Slot}

theorem LiveAt.of_slots (h : LiveAt i s) (e : t.slots = s.slots) : LiveAt i t := by
  rwa [LiveAt, e]

theorem LiveAt.of_set_ne (h : LiveAt i s) (hj : j ≠ i) (e : t.slots = s.slots.set j c) : LiveAt i t := by
  rwa [LiveAt, e, List.getElem?_set_ne hj]

theorem LiveAt.of_set_live (h : LiveAt i s) (hc : c.live = true) (e : t.slots = s.slots.set j c) : LiveAt i t := by
  by_cases hj : j = i
  · subst hj
    obtain ⟨d, hd, -⟩ := h
    exact ⟨c, by rw [e, List.getElem?_set_self (List.getElem?_eq_some_iff.1 hd).1], hc⟩
  · exact h.of_set_ne hj e

theorem liveAt_tcpAccept (h : LiveAt i s) : LiveAt i (tcpAccept s) := by
  obtain e | ⟨j, c, -, -, -, e⟩ := tcpAccept_cases s <;> rw [e]
  · exact h
  · exact h.of_set_live rfl rfl

theorem liveAt_tcpServe (hb : s.build.Legal) (h : LiveAt i s) (ht : tcpServe j s = .next t) : LiveAt i t := by
  obtain e | ⟨d, hd, e⟩ := tcpServe_slots hb ht
  · exact h.of_slots e
  · exact h.of_set_live hd e

theorem liveAt_tcpData (octets : List Octet) (h : LiveAt i s) : LiveAt i (tcpData j octets s) := by
  rw [tcpData]
  split
  · split
    · exact h.of_set_live ‹_› rfl
    · exact h
  · exact h

theorem liveAt_tcpClose (h : LiveAt i s) (hj : j ≠ i) : LiveAt i (tcpClose j s) := by
  rw [tcpClose]
  split
  · exact h.of_set_ne hj rfl
  · exact h

theorem rtuPoll_slots (s : State) : (rtuPoll s).slots = s.slots := by
  rw [rtuPoll]
  split <;> rfl

theorem txDrained_slots (s : State) : (txDrained s).slots = s.slots := by
  rw [txDrained]
  split <;> rfl

theorem rtuRespond_slots (s : State) : (rtuRespond s).slots = s.slots := by
  rw [rtuRespond, respondAddressed_eq]
  split <;> rfl

theorem rtuComplete_slots (h : s.build.Legal) (hl : s.lastCount = s.rxq.length) (ht : rtuComplete s = .next t) :
    t.slots = s.slots := by
  obtain ⟨d, -, rfl⟩ | ⟨-, u, hu, rfl⟩ := rtuComplete_cases h hl ht
  · obtain ⟨hi, lo, e⟩ := validateCrc_eq (takeFrame s) s.rxq
    rw [e]
    rfl
  · obtain ⟨m, o, out, q, rfl, -⟩ := hu
    exact rtuRespond_slots _

theorem leadInTick_slots (s : State) : (leadInTick s).slots = s.slots := by
  simp only [leadInTick]
  split <;> rfl

theorem frameDelayTick_slots (s : State) : (frameDelayTick s).slots = s.slots := by
  simp only [frameDelayTick, release]
  split
  · split <;> rfl
  · rfl

theorem serialTick_slots (h : s.build.Legal) (ht : serialTick s = .next t) : t.slots = s.slots := by
  obtain rfl | ⟨-, -, rfl⟩ | ⟨-, -, rfl⟩ | ⟨-, hl, hc⟩ | ⟨-, rfl⟩ | ⟨-, rfl⟩ := serialTick_cases ht
  · rfl
  · rfl
  · rfl
  · exact rtuComplete_slots (s := countDown s) h hl hc
  · exact leadInTick_slots s
  · exact frameDelayTick_slots s

theorem liveAt_handle {e : Event} (hb : s.build.Legal) (hr : e.isReset = false) (hc : e ≠ .tcpClose i)
    (h : LiveAt i s) (ht : handle e s = .next t) : LiveAt i t := by
  cases e with
  | reset l => cases hr
  | tcpClose j => cases ht; exact liveAt_tcpClose h fun hj => hc (hj ▸ rfl)
  | tcpData j octets => cases ht; exact liveAt_tcpData octets h
  | pollTcp between => exact tcpPoll_preserves liveAt_tcpServe (fun _ _ hs => hs) hb (liveAt_tcpAccept h) ht
  | tick => exact h.of_slots (serialTick_slots hb ht)
  | pollSerial => cases ht; exact h.of_slots (rtuPoll_slots s)
  | txDrained => cases ht; exact h.of_slots (txDrained_slots s)
  | rxByte b | tcpConnect | tcpConnectWithdraw | appWrite ws | runtime cs => cases ht; exact h

end live

/-- Settles O29: the two events excluded are the only ones that free the slot. -/
theorem onlyCloseOrResetFreesASlot : Obligations.OnlyCloseOrResetFreesASlot := by
  intro s t i c ht hc hl he
  obtain ⟨-, rfl⟩ | ⟨e, rest, hi, hh⟩ := step_cases ht
  · exact ⟨c, hc, hl⟩
  · obtain ⟨hr, hn⟩ := he e rest hi
    exact liveAt_handle (s := { s with inputs := rest }) (step_config ht).1 hr hn ⟨c, hc, hl⟩ hh

end Sys2Proof.Machine

namespace Sys2Proof

/-! ## Known function codes (R108, R222) -/

/-- The function codes of the thirteen request PDUs (R108). -/
def knownFunctions : List Octet :=
  [0x01#8, 0x02#8, 0x03#8, 0x04#8, 0x05#8, 0x06#8, 0x0F#8, 0x10#8, 0x41#8, 0x42#8, 0x43#8, 0x44#8, 0x45#8]

theorem functionCode_mem_knownFunctions (i : Instr) : functionCode i ∈ knownFunctions := by
  cases i <;> simp [functionCode, knownFunctions]

/-- Bit 7 is free in every function code: it marks an exception response (R101). -/
theorem functionCode_bit7 (i : Instr) : (functionCode i).getLsbD 7 = false := by
  have hk : ∀ fc ∈ knownFunctions, fc.getLsbD 7 = false := by decide
  exact hk _ (functionCode_mem_knownFunctions i)

/-- The opcode map has a row for each known function code, whatever the payload. -/
theorem decodeFunction_known {fc : Octet} (h : fc ∈ knownFunctions) (payload : List Octet) :
    ∃ i, decodeFunction fc payload = some i := by
  fin_cases h <;> exact ⟨_, rfl⟩

theorem decode_unknown {fc : Octet} (h : fc ∉ knownFunctions) (payload : List Octet) :
    decode (fc :: payload) = .error (.unknownFunction fc) := by
  obtain ⟨i, -, rfl⟩ | e := decode_cons fc payload
  · exact absurd (functionCode_mem_knownFunctions i) h
  · exact e

theorem decode_known {fc : Octet} (h : fc ∈ knownFunctions) (payload : List Octet) :
    ∃ i, decode (fc :: payload) = .ok i ∧ functionCode i = fc := by
  obtain ⟨i, hi⟩ := decodeFunction_known h payload
  exact ⟨i, decode_ok_iff.2 ⟨fc, payload, rfl, hi⟩, functionCode_decodeFunction hi⟩

end Sys2Proof

namespace Sys2Proof.Machine

open Sys2Proof

/-! ## The dispatcher (R220, R221, R222, R229) -/

/-- Settles O3: the decoder knows a PDU by its first octet alone. -/
theorem unknownFunctionCodesRaiseIllegalFunction : Obligations.UnknownFunctionCodesRaiseIllegalFunction := by
  intro fc payload s
  refine ⟨fun hu => ?_, fun hk => ?_⟩
  · rw [dispatch, decode_unknown hu payload]
    rfl
  · obtain ⟨i, hd, hc⟩ := decode_known hk payload
    exact ⟨i, hd, hc, dispatch_decoded hd s⟩

/-- Settles O31: what a handler can do to the state bounds the response and names the registers that change. -/
theorem dispatchAnswersWithinMaxFrame : Obligations.DispatchAnswersWithinMaxFrame := by
  intro s p hb hp
  obtain ⟨t, ht, m, o, out, q, rfl, h2, hm, -⟩ := dispatch_handled hb hp
  exact ⟨_, ht, h2, hm, rfl⟩

/-- The trace only grows in `DISPATCH`: it is transport-independent in the state it runs in too. -/
theorem dispatch_trace {p : List Octet} {s t : State} (h : dispatch p s = .next t) :
    t.trace = s.trace ++ t.trace.drop s.trace.length :=
  congrArg State.trace (Host.Outcome.next.inj (h.symm.trans (dispatch_agree rfl rfl rfl rfl rfl h)))

/-- Settles O34: what the dispatcher did in one state it does in the other. -/
theorem dispatchIsTransportIndependent : Obligations.DispatchIsTransportIndependent := by
  intro p s₁ s₂ t₁ hb hm ho ht hv h
  exact ⟨_, t₁.trace.drop s₁.trace.length, dispatch_agree hb.symm hm.symm ho.symm ht.symm hv.symm h,
    rfl, rfl, rfl, dispatch_trace h, rfl⟩

/-! ## Exceptions of the standard functions (R224, R326) -/

/-- A handler of function code `fc` has raised, with nothing but the response new, or answers with `fc` in front. -/
def RaisesOrAnswers (fc : Octet) (s : State) (r : Result) : Prop :=
  (∃ code, r = .next (s.reply (excBuild fc code))) ∨ ∃ t q, r = .next t ∧ t.respPdu = fc :: q

theorem raisesOrAnswers_readBits (fc : Octet) (sp : BitSpace) (o : Option RdOps) (s : State) :
    RaisesOrAnswers fc s (readBits fc sp o s) :=
  (readBits_cases fc sp o s).imp_right fun ⟨q, e, _⟩ => ⟨_, q, e, rfl⟩

theorem raisesOrAnswers_readWords (fc : Octet) (sp : WordSpace) (o : Option RdOps) (s : State) :
    RaisesOrAnswers fc s (readWords fc sp o s) :=
  (readWords_cases fc sp o s).imp_right fun ⟨q, e, _⟩ => ⟨_, q, e, rfl⟩

theorem WritesBits.raisesOrAnswers {fc : Octet} {s : State} {r : Result} (h : WritesBits fc s r) :
    RaisesOrAnswers fc s r :=
  h.imp_right fun ⟨_, _, q, _, e, _⟩ => ⟨_, q, e, rfl⟩

theorem WritesWords.raisesOrAnswers {fc : Octet} {s : State} {r : Result} (h : WritesWords fc s r) :
    RaisesOrAnswers fc s r :=
  h.imp_right fun ⟨_, _, q, _, e, _⟩ => ⟨_, q, e, rfl⟩

/-- Every standard function raises with nothing else changed, or answers under its own function code (R224, R326). -/
theorem exec_raisesOrAnswers {i : Instr} (s : State) (h : isStandard i = true) :
    RaisesOrAnswers (functionCode i) s (exec i s) := by
  cases i with
  | rdcoil o | rddisc o => exact raisesOrAnswers_readBits _ _ o s
  | rdhold o | rdinreg o => exact raisesOrAnswers_readWords _ _ o s
  | wrcoil o => exact (execWrcoil_cases o s).raisesOrAnswers
  | wrreg o => exact (execWrreg_cases o s).raisesOrAnswers
  | wrcoils o => exact (execWrcoils_cases o s).raisesOrAnswers
  | wrregs o => exact (execWrregs_cases o s).raisesOrAnswers
  | dbginfo | dbgset o | dbgget o | dbglist o | dbgmd5 m => cases h

/-- The exception codes are 1 to 4 (R101). -/
theorem excOctet_mem (code : ExcCode) : excOctet code ∈ [0x01#8, 0x02#8, 0x03#8, 0x04#8] := by
  cases code <;> decide

/-- Settles O32: a response that does not raise begins with the function code, whose bit 7 is clear. -/
theorem exceptionsArePrecise : Obligations.ExceptionsArePrecise := by
  intro i s t hi ht h7
  obtain ⟨code, e⟩ | ⟨u, q, e, hq⟩ := exec_raisesOrAnswers s hi
  · obtain rfl := Host.Outcome.next.inj (e.symm.trans ht)
    exact ⟨excOctet code, excOctet_mem code, rfl⟩
  · obtain rfl := Host.Outcome.next.inj (e.symm.trans ht)
    rw [hq] at h7
    exact absurd ((functionCode_bit7 i).symm.trans h7) Bool.false_ne_true

/-! ## The order of the checks (R225)

The four reads make the same checks, as do the two writes of several elements; only the bounds differ. -/

section checks

variable {fc : Octet} {s : State} {k : Result} {maxCount lenQ size a n bytes bc present : Nat}

/-- The checks of a read of `n` elements from `a` on: the count, the address, the capacity. -/
def readChecks (fc : Octet) (maxCount size lenQ a n : Nat) (s : State) (k : Result) : Result :=
  if n < 1 ∨ maxCount < n then raiseExc fc .illegalValue s
  else if size < a + n then raiseExc fc .illegalAddress s
  else capacityGuard fc lenQ s k

theorem readBits_eq_readChecks (fc : Octet) (sp : BitSpace) (start count : Word16) (s : State) :
    readBits fc sp (some ⟨start, count⟩) s =
      readChecks fc 2000 (bitSize s.build sp) (2 + ceil8 count.toNat) start.toNat count.toNat s
        (memReadBits sp start.toNat count.toNat s fun bits =>
          answer ([fc, BitVec.ofNat 8 (ceil8 count.toNat)] ++ pack bits) s) := rfl

theorem readWords_eq_readChecks (fc : Octet) (sp : WordSpace) (start count : Word16) (s : State) :
    readWords fc sp (some ⟨start, count⟩) s =
      readChecks fc 125 (wordSize s.build sp) (2 + 2 * count.toNat) start.toNat count.toNat s
        (memReadWords sp start.toNat count.toNat s fun ws =>
          answer ([fc, BitVec.ofNat 8 (2 * count.toNat)] ++ wordOctets ws) s) := rfl

theorem readChecks_value (hn : n = 0 ∨ maxCount < n) :
    readChecks fc maxCount size lenQ a n s k = raiseExc fc .illegalValue s :=
  if_pos (hn.imp_left Nat.lt_one_iff.2)

theorem readChecks_address (h1 : 1 ≤ n) (hn : n ≤ maxCount) (ha : size < a + n) :
    readChecks fc maxCount size lenQ a n s k = raiseExc fc .illegalAddress s := by
  rw [readChecks, if_neg (by omega), if_pos ha]

theorem readChecks_capacity (h1 : 1 ≤ n) (hn : n ≤ maxCount) (ha : a + n ≤ size) (hc : s.build.maxFrame < lenQ) :
    readChecks fc maxCount size lenQ a n s k = raiseExc fc .slaveFailure s := by
  rw [readChecks, if_neg (by omega), if_neg (by omega), capacityGuard_raise hc]

/-- The checks of a write of `n` elements from `a` on that needs `bytes` data octets, with `bc` announced and `present`
there: the count, the byte count, the data, then the address. -/
def writeChecks (fc : Octet) (maxCount bytes size a n bc present : Nat) (s : State) (k : Result) : Result :=
  if n < 1 ∨ maxCount < n then raiseExc fc .illegalValue s
  else if bc ≠ bytes then raiseExc fc .illegalValue s
  else if present < bc then raiseExc fc .illegalValue s
  else if size < a + n then raiseExc fc .illegalAddress s
  else k

theorem execWrcoils_eq_writeChecks (start count : Word16) (bc : Octet) (data : List Octet) (s : State) :
    execWrcoils (some ⟨start, count, bc, data⟩) s =
      writeChecks 0x0F#8 1968 (ceil8 count.toNat) s.build.nCoils start.toNat count.toNat bc.toNat data.length s
        (memWriteBits .coil start.toNat (unpack data count.toNat) s
          (answer ([0x0F#8] ++ be16enc start ++ be16enc count))) := rfl

theorem execWrregs_eq_writeChecks (start count : Word16) (bc : Octet) (data : List Octet) (s : State) :
    execWrregs (some ⟨start, count, bc, data⟩) s =
      writeChecks 0x10#8 123 (2 * count.toNat) s.build.nHold start.toNat count.toNat bc.toNat data.length s
        (memWriteWords .hold start.toNat ((be16s data).take count.toNat) s
          (answer ([0x10#8] ++ be16enc start ++ be16enc count))) := rfl

theorem writeChecks_value (h : n = 0 ∨ maxCount < n ∨ bc ≠ bytes ∨ present < bc) :
    writeChecks fc maxCount bytes size a n bc present s k = raiseExc fc .illegalValue s := by
  simp only [writeChecks]
  split
  · rfl
  split
  · rfl
  exact if_pos (by omega)

theorem writeChecks_address (h1 : 1 ≤ n) (hn : n ≤ maxCount) (hb : bc = bytes) (hp : bc ≤ present)
    (ha : size < a + n) : writeChecks fc maxCount bytes size a n bc present s k = raiseExc fc .illegalAddress s := by
  rw [writeChecks, if_neg (by omega), if_neg (not_not.2 hb), if_neg (by omega), if_pos ha]

end checks

/-- Settles O37: the three checks of a read, at the bounds of each function. -/
theorem readFunctionsCheckInOrder : Obligations.ReadFunctionsCheckInOrder := by
  intro s o raises
  refine ⟨?_, ?_⟩
  · rintro rfl
    exact ⟨rfl, rfl, rfl, rfl⟩
  · rintro start count rfl
    simp only [raises, exec, execRdcoil, execRddisc, execRdhold, execRdinreg, readBits_eq_readChecks,
      readWords_eq_readChecks]
    exact ⟨fun hn => ⟨readChecks_value hn, readChecks_value hn⟩, fun hn => ⟨readChecks_value hn, readChecks_value hn⟩,
      fun h1 hn => ⟨readChecks_address h1 hn, readChecks_address h1 hn, readChecks_capacity h1 hn,
        readChecks_capacity h1 hn⟩,
      fun h1 hn => ⟨readChecks_address h1 hn, readChecks_address h1 hn, readChecks_capacity h1 hn,
        readChecks_capacity h1 hn⟩⟩

/-- The legal statuses are the two of R274. -/
theorem coilStatusLegal_iff {status : Word16} :
    coilStatusLegal status = true ↔ status = 0x0000#16 ∨ status = 0xFF00#16 := by
  simp [coilStatusLegal]

theorem execWrcoil_value {coil status : Word16} (s : State) (h0 : status ≠ 0x0000#16) (h1 : status ≠ 0xFF00#16) :
    execWrcoil (some ⟨coil, status⟩) s = raiseExc 0x05#8 .illegalValue s :=
  if_pos (Bool.eq_false_iff.2 fun h => (coilStatusLegal_iff.1 h).elim h0 h1)

theorem execWrcoil_address {coil status : Word16} {s : State} (h : status = 0x0000#16 ∨ status = 0xFF00#16)
    (ha : s.build.nCoils ≤ coil.toNat) : execWrcoil (some ⟨coil, status⟩) s = raiseExc 0x05#8 .illegalAddress s := by
  have hl : ¬coilStatusLegal status = false := by simp [coilStatusLegal_iff.2 h]
  exact (if_neg hl).trans (if_pos ha)

theorem execWrreg_address {register value : Word16} {s : State} (ha : s.build.nHold ≤ register.toNat) :
    execWrreg (some ⟨register, value⟩) s = raiseExc 0x06#8 .illegalAddress s := if_pos ha

/-- Settles O42: each write checks its values before its address, and writes after both. -/
theorem writeFunctionsCheckInOrder : Obligations.WriteFunctionsCheckInOrder := by
  intro s raises
  simp only [raises, exec, execWrcoils_eq_writeChecks, execWrregs_eq_writeChecks]
  refine ⟨⟨rfl, rfl, rfl, rfl⟩, fun coil status => ⟨?_, ?_⟩, fun register value => ?_,
    fun start count bc data => ⟨?_, ?_, ?_, ?_⟩⟩
  · exact execWrcoil_value s
  · exact execWrcoil_address
  · exact execWrreg_address
  · exact writeChecks_value
  · exact writeChecks_address
  · exact writeChecks_value
  · exact writeChecks_address

end Sys2Proof.Machine

namespace Sys2Proof.Machine

open Sys2Proof

/-! ## The writes of the holding registers complete (R252, R253) -/

section complete

variable {s : State}

/-- A write whose checks all pass goes on. -/
theorem writeChecks_passes {fc : Octet} {k : Result} {maxCount bytes size a n bc present : Nat} (h1 : 1 ≤ n)
    (hn : n ≤ maxCount) (hb : bc = bytes) (hp : bc ≤ present) (ha : a + n ≤ size) :
    writeChecks fc maxCount bytes size a n bc present s k = k := by
  rw [writeChecks, if_neg (by omega), if_neg (not_not.2 hb), if_neg (by omega), if_neg (by omega)]

theorem execWrreg_writes {register value : Word16} (ha : register.toNat < s.build.nHold) :
    execWrreg (some ⟨register, value⟩) s =
      .next ((s.writeHolding register.toNat [value]).reply ([0x06#8] ++ be16enc register ++ be16enc value)) :=
  (if_neg (Nat.not_le.2 ha)).trans (memWriteWords_eq ha)

theorem be16s_length_of_double {data : List Octet} {n : Nat} (h : data.length = 2 * n) : (be16s data).length = n := by
  rw [be16s_length, h, Nat.mul_div_cancel_left n Nat.two_pos]

/-- With exactly the announced data present, all of its fields are written. -/
theorem execWrregs_writes {start count : Word16} {bc : Octet} {data : List Octet} (h1 : 1 ≤ count.toNat)
    (hn : count.toNat ≤ 0x7B) (hb : bc.toNat = 2 * count.toNat) (hd : data.length = bc.toNat)
    (ha : start.toNat + count.toNat ≤ s.build.nHold) :
    execWrregs (some ⟨start, count, bc, data⟩) s =
      .next ((s.writeHolding start.toNat (be16s data)).reply ([0x10#8] ++ be16enc start ++ be16enc count)) := by
  have hl : (be16s data).length = count.toNat := be16s_length_of_double (hd.trans hb)
  rw [execWrregs_eq_writeChecks, writeChecks_passes h1 hn hb hd.ge ha, List.take_of_length_le hl.le]
  exact memWriteWords_eq (hl ▸ ha)

/-- A run of holding registers written and a response left change no other register of the state (R62). -/
theorem writeHolding_reply_eq (a : Nat) (vs : List Word16) (q : List Octet) :
    (s.writeHolding a vs).reply q = { s with
      mem := { s.mem with holdingRegisters := (s.writeHolding a vs).mem.holdingRegisters }, respPdu := q } := rfl

end complete

/-- Settles O39: the run written is the one register. -/
theorem writeRegisterSetsOneRegister : Obligations.WriteRegisterSetsOneRegister := by
  intro s register value hw ha
  refine ⟨_, execWrreg_writes ha, writeHolding_reply_eq .., ?_, fun a hne => ?_⟩
  · exact State.writeWords_inside (s := s) (sp := .hold) (k := 0) [value] hw Nat.one_pos
  · exact State.writeWords_outside (s := s) (sp := .hold) [value] (Nat.lt_or_gt_of_ne hne)

/-- Settles O41: the run written is the fields of the data. -/
theorem writeRegistersSetsARun : Obligations.WriteRegistersSetsARun := by
  intro s start count bc data hw h1 hn hb hd ha
  have hl : (be16s data).length = count.toNat := be16s_length_of_double (hd.trans hb)
  refine ⟨_, execWrregs_writes h1 hn hb hd ha, writeHolding_reply_eq .., fun i hi => ?_, fun a hout => ?_⟩
  · have hwr : (s.writeHolding start.toNat (be16s data)).mem.word .hold (start.toNat + i) = (be16s data).getD i 0#16 :=
      State.writeWords_inside _ hw (hl ▸ hi)
    rw [State.reply_mem, hwr, be16s_getD data i (by omega), be16_toNat]
  · exact State.writeWords_outside (s := s) (sp := .hold) _ (hl ▸ hout)

end Sys2Proof.Machine

namespace Sys2Proof.Machine

open Sys2Proof

/-! ## The bit functions complete (R270 to R275) -/

section complete

variable {s : State}

/-- A read whose checks all pass goes on. -/
theorem readChecks_passes {fc : Octet} {k : Result} {maxCount lenQ size a n : Nat} (h1 : 1 ≤ n) (hn : n ≤ maxCount)
    (ha : a + n ≤ size) (hc : lenQ ≤ s.build.maxFrame) : readChecks fc maxCount size lenQ a n s k = k := by
  rw [readChecks, if_neg (by omega), if_neg (by omega), capacityGuard_eq hc]

theorem readBits_reads {fc : Octet} {sp : BitSpace} {start count : Word16} (h1 : 1 ≤ count.toNat)
    (hn : count.toNat ≤ 0x7D0) (hm : 2 + ceil8 count.toNat ≤ s.build.maxFrame)
    (hr : start.toNat + count.toNat ≤ bitSize s.build sp) :
    readBits fc sp (some ⟨start, count⟩) s =
      .next (s.reply ([fc, BitVec.ofNat 8 (ceil8 count.toNat)] ++
        pack ((List.range' start.toNat count.toNat).map (s.mem.bit sp)))) := by
  rw [readBits_eq_readChecks, readChecks_passes h1 hn hr hm, memReadBits_eq hr, answer_eq]

/-- Element `i` of a run read is the bank's element `a + i`; behind the run there is nothing but 0 (R270). -/
theorem readRun_getD (m : Memory) (sp : BitSpace) (a n i : Nat) :
    ((List.range' a n).map (m.bit sp)).getD i false = (decide (i < n) && m.bit sp (a + i)) := by
  by_cases hi : i < n
  · simp [hi]
  · rw [List.getD_eq_default _ _ (by simpa using hi)]
    simp [hi]

/-- A bit read with every check passed: only the response is new, and it carries the packed bits (R270). -/
theorem readBits_answers {fc : Octet} {sp : BitSpace} {start count : Word16} (h1 : 1 ≤ count.toNat)
    (hn : count.toNat ≤ 0x7D0) (hm : 2 + ceil8 count.toNat ≤ s.build.maxFrame)
    (hr : start.toNat + count.toNat ≤ bitSize s.build sp) :
    ∃ d, readBits fc sp (some ⟨start, count⟩) s =
        .next { s with respPdu := [fc, BitVec.ofNat 8 (ceil8 count.toNat)] ++ d } ∧
      d.length = ceil8 count.toNat ∧
      ∀ j m, j < d.length → m < 8 → (d.getD j 0#8).getLsbD m =
        (decide (8 * j + m < count.toNat) && s.mem.bit sp (start.toNat + (8 * j + m))) := by
  refine ⟨_, readBits_reads h1 hn hm hr, by simp, fun j m hj hm8 => ?_⟩
  rw [pack_getLsbD _ (pack_length _ ▸ hj) hm8, readRun_getD]

theorem execWrcoil_writes {coil status : Word16} (hv : status = 0x0000#16 ∨ status = 0xFF00#16)
    (ha : coil.toNat < s.build.nCoils) :
    execWrcoil (some ⟨coil, status⟩) s =
      .next ((s.writeCoils coil.toNat [coilStatusOn status]).reply ([0x05#8] ++ be16enc coil ++ be16enc status)) := by
  have hl : ¬coilStatusLegal status = false := by simp [coilStatusLegal_iff.2 hv]
  exact (if_neg hl).trans ((if_neg (Nat.not_le.2 ha)).trans (memWriteBits_eq ha))

theorem execWrcoils_writes {start count : Word16} {bc : Octet} {data : List Octet} (h1 : 1 ≤ count.toNat)
    (hn : count.toNat ≤ 0x7B0) (hb : bc.toNat = ceil8 count.toNat) (hd : bc.toNat ≤ data.length)
    (ha : start.toNat + count.toNat ≤ s.build.nCoils) :
    execWrcoils (some ⟨start, count, bc, data⟩) s =
      .next ((s.writeCoils start.toNat (unpack data count.toNat)).reply
        ([0x0F#8] ++ be16enc start ++ be16enc count)) := by
  rw [execWrcoils_eq_writeChecks, writeChecks_passes h1 hn hb hd ha]
  exact memWriteBits_eq ((unpack_length ..).symm ▸ ha)

/-- A run of coils written and a response left change no other register of the state (R62). -/
theorem writeCoils_reply_eq (a : Nat) (vs : List Bool) (q : List Octet) :
    (s.writeCoils a vs).reply q = { s with
      mem := { s.mem with coils := (s.writeCoils a vs).mem.coils }, respPdu := q } := rfl

end complete

/-- Settles O35: both functions are a bit read that passes its checks. -/
theorem bitReadsAnswerPackedBits : Obligations.BitReadsAnswerPackedBits :=
  fun _ _ _ h1 hn hm => ⟨readBits_answers (sp := .coil) h1 hn hm, readBits_answers (sp := .disc) h1 hn hm⟩

/-- Settles O38: the run written is the one coil. -/
theorem writeCoilSetsOneCoil : Obligations.WriteCoilSetsOneCoil := by
  intro s coil status hw hv ha
  refine ⟨_, execWrcoil_writes hv ha, writeCoils_reply_eq .., ?_, fun a hne => ?_⟩
  · exact State.writeBits_inside (s := s) (sp := .coil) (k := 0) [coilStatusOn status] hw Nat.one_pos
  · exact State.writeBits_outside (s := s) (sp := .coil) [coilStatusOn status] (Nat.lt_or_gt_of_ne hne)

/-- Settles O40: the run written is the unpacked data. -/
theorem writeCoilsSetsARun : Obligations.WriteCoilsSetsARun := by
  intro s start count bc data hw h1 hn hb hd ha
  have hl : (unpack data count.toNat).length = count.toNat := unpack_length ..
  refine ⟨_, execWrcoils_writes h1 hn hb hd.ge ha, writeCoils_reply_eq .., fun i hi => ?_, fun a hout => ?_⟩
  · have hwr : (s.writeCoils start.toNat (unpack data count.toNat)).mem.bit .coil (start.toNat + i) =
        (unpack data count.toNat).getD i false := State.writeBits_inside _ hw (hl.symm ▸ hi)
    rw [State.reply_mem, hwr, unpack_getD data hi]
  · exact State.writeBits_outside (s := s) (sp := .coil) _ (hl.symm ▸ hout)

end Sys2Proof.Machine

namespace Sys2Proof.Machine

open Sys2Proof

/-! ## The debug functions (R291 to R305) -/

/-- An index is refused exactly when it is no variable's (R290). -/
theorem indexInRange_eq_false {s : State} {i : Word16} :
    indexInRange s i = false ↔ (variableCount s).toNat ≤ i.toNat := by
  simp [indexInRange]

theorem indexInRange_eq_true {s : State} {i : Word16} :
    indexInRange s i = true ↔ i.toNat < (variableCount s).toNat := by
  simp [indexInRange]

/-! ### Every debug function (R291) -/

/-- Every debug function answers under its own function code and leaves the Register Bank alone (R291). -/
theorem exec_debug_answers {i : Instr} (s : State) (h : isStandard i = false) :
    ∃ (u : State) (q : List Octet), exec i s = .next (u.reply (functionCode i :: q)) ∧ u.mem = s.mem := by
  cases i with
  | rdcoil o | rddisc o | rdhold o | rdinreg o | wrcoil o | wrreg o | wrcoils o | wrregs o => cases h
  | dbginfo => exact ⟨s, _, rfl, rfl⟩
  | dbgset o =>
    obtain e | ⟨index, f, value, e⟩ := execDbgset_cases o s
    · exact ⟨s, _, e, rfl⟩
    · exact ⟨s.emit (.setTrace index f value), _, e, rfl⟩
  | dbgget o =>
    obtain e | ⟨first, is, e⟩ := execDbgget_cases o s
    · exact ⟨s, _, e, rfl⟩
    · exact ⟨s, _, e.trans rfl, rfl⟩
  | dbglist o =>
    obtain e | ⟨first, is, e⟩ := execDbglist_cases o s
    · exact ⟨s, _, e, rfl⟩
    · exact ⟨s, _, e.trans rfl, rfl⟩
  | dbgmd5 m =>
    obtain ⟨r, o, e⟩ := execDbgmd5_cases m s
    exact ⟨{ s with dbgOrder := o }, _, e, rfl⟩

/-- Settles O33: a debug function answers under its own code, in which bit 7 is clear. -/
theorem debugFunctionsNeverRaise : Obligations.DebugFunctionsNeverRaise := by
  intro i s t hi ht
  obtain ⟨u, q, e, hm⟩ := exec_debug_answers s hi
  obtain rfl := Host.Outcome.next.inj (e.symm.trans ht)
  exact ⟨rfl, functionCode_bit7 i, hm⟩

/-- Settles O53: what 0x42 and 0x45 can answer names all that is new. -/
theorem debugWritesChangeOnlyTheirOwn : Obligations.DebugWritesChangeOnlyTheirOwn := by
  refine ⟨fun s t o ht => ?_, fun s t m ht => ?_⟩
  · obtain e | ⟨index, f, value, e⟩ := execDbgset_cases o s
    · obtain rfl := Host.Outcome.next.inj (e.symm.trans ht)
      exact ⟨rfl, .inl rfl, fun _ _ => rfl, fun _ _ => rfl⟩
    · obtain rfl := Host.Outcome.next.inj (e.symm.trans ht)
      exact ⟨rfl, .inr ⟨index, f, value, rfl⟩, fun _ _ => rfl, fun _ _ => rfl⟩
  · obtain ⟨r, o, e⟩ := execDbgmd5_cases m s
    obtain rfl := Host.Outcome.next.inj (e.symm.trans ht)
    exact ⟨rfl, fun _ _ => rfl, fun _ _ => rfl⟩

/-! ### 0x41, 0x42 and 0x45 (R294, R295, R305) -/

/-- The 16-bit count is the number of variables as long as that number has 16 bits (R290, log 6). -/
theorem variableCount_toNat {s : State} (h : s.vars.length < 65536) : (variableCount s).toNat = s.vars.length :=
  (BitVec.toNat_ofNat ..).trans (Nat.mod_eq_of_lt h)

/-- Settles O44: the two octets of the count, from a decoder that reads none behind the function code. -/
theorem getInfoReportsTheVariableCount : Obligations.GetInfoReportsTheVariableCount := by
  intro s
  have hv := hi8_lo8_toNat (variableCount s)
  exact ⟨⟨hi8 (variableCount s), lo8 (variableCount s), rfl, hv, fun h => hv.trans (variableCount_toNat h)⟩,
    fun payload => dispatch_decoded rfl s⟩

theorem forceFlag_eq_decide (f : Octet) : forceFlag f = decide (f ≠ 0#8) := by
  by_cases h : f = 0#8 <;> simp [forceFlag, h]

section setTrace

variable {s : State} {index length : Word16} {value : List Octet}

/-- 0x42 with every check passed delegates (R295). -/
theorem execDbgset_delegates (force : Octet) (hi : index.toNat < (variableCount s).toNat)
    (hl : length.toNat + 7 ≤ s.build.maxFrame) (hv : length.toNat ≤ value.length) :
    execDbgset (some ⟨index, force, length, value⟩) s =
      .next ((s.emit (.setTrace index (decide (force ≠ 0#8)) value)).reply [0x42#8, 0x7E#8]) := by
  have h1 : ¬(indexInRange s index = false ∨ s.build.maxFrame < length.toNat + 7) := by
    rw [indexInRange_eq_false]
    omega
  simp only [execDbgset, if_neg h1, if_neg (Nat.not_lt.2 hv), forceFlag_eq_decide]
  rfl

theorem execDbgset_refuses (force : Octet)
    (h : (variableCount s).toNat ≤ index.toNat ∨ s.build.maxFrame < length.toNat + 7) :
    execDbgset (some ⟨index, force, length, value⟩) s = .next { s with respPdu := [0x42#8, 0x81#8] } :=
  if_pos (h.imp_left indexInRange_eq_false.2)

end setTrace

/-- Settles O45: the checks of 0x42, the value octets last. -/
theorem setTraceDelegatesAfterItsChecks : Obligations.SetTraceDelegatesAfterItsChecks := by
  intro s index length force value hm
  refine ⟨fun hi hl hv => execDbgset_delegates force hi (by omega) hv.ge, ?_, rfl⟩
  rintro (hi | hl | hv)
  · exact execDbgset_refuses force (.inl hi)
  · exact execDbgset_refuses force (.inr (by omega))
  · exact execDbgset_short (o := some ⟨index, force, length, value⟩) s hv

/-- 0x45 with no recognised marker reports the hash behind the error code (R305, R306). -/
theorem execDbgmd5_unrecognised {m : Option Word16} (s : State) (h1 : m ≠ some 0xDEAD#16) (h2 : m ≠ some 0xADDE#16) :
    execDbgmd5 m s = .next { s with respPdu := [0x45#8, 0x81#8] ++ s.build.hash } :=
  (if_neg h1).trans (if_neg h2)

/-- Settles O49: the two markers, and every other form. -/
theorem getMd5RecordsTheMarker : Obligations.GetMd5RecordsTheMarker := fun s =>
  ⟨rfl, rfl, fun _ h1 h2 => execDbgmd5_unrecognised s (mt Option.some.inj h1) (mt Option.some.inj h2),
    execDbgmd5_unrecognised s nofun nofun⟩

/-! ### 0x43 and 0x44 (R298 to R304) -/

section getTrace

variable {s : State} {n first last : Word16} {idx : List Word16} {k : Nat}

theorem execDbgget_refuses (h : last.toNat < first.toNat ∨ (variableCount s).toNat ≤ last.toNat) :
    execDbgget (some ⟨first, last⟩) s = .next { s with respPdu := [0x43#8, 0x81#8] } :=
  if_pos (h.imp_right indexInRange_eq_false.2)

theorem execDbgget_copies (h : first.toNat ≤ last.toNat) (hl : last.toNat < (variableCount s).toNat) :
    execDbgget (some ⟨first, last⟩) s = copyVariables 0x43#8 first (indexRange first last) s := by
  refine if_neg ?_
  rw [indexInRange_eq_false]
  omega

/-- A list that names an index out of range fails a check, whichever is the first (R302). -/
theorem execDbglist_index (h : ∃ i ∈ idx, (variableCount s).toNat ≤ i.toNat) :
    execDbglist (some ⟨n, idx⟩) s = debugError 0x44#8 s := by
  have hall : idx.all (indexInRange s) = false := by
    simpa only [List.all_eq_false, Bool.not_eq_true, indexInRange_eq_false] using h
  simp only [execDbglist, if_pos hall, ite_self]

theorem execDbglist_copies (hn : n ≠ 0#16) (hl : n.toNat ≤ idx.length)
    (hi : ∀ i ∈ idx, i.toNat < (variableCount s).toNat) :
    execDbglist (some ⟨n, idx⟩) s = copyVariables 0x44#8 (idx.headD 0#16) idx s := by
  have hall : ¬idx.all (indexInRange s) = false := by
    rw [Bool.not_eq_false, List.all_eq_true]
    exact fun i hi' => indexInRange_eq_true.2 (hi i hi')
  exact (if_neg (not_or.2 ⟨hn, Nat.not_lt.2 hl⟩)).trans (if_neg hall)

/-- The last of the first `k` indices is the one at `k - 1`; of none, the first of all stands for it (R301). -/
theorem getLast?_take_getD_headD (is : List Word16) (hk : k ≤ is.length) :
    ((is.take k).getLast?).getD (is.headD 0#16) = is.getD (k - 1) 0#16 := by
  cases k with
  | zero => cases is <;> rfl
  | succ k => simp [List.getLast?_take, show k < is.length from hk]

/-- The copy of 0x43 and 0x44: the first `k` of the variables `is` are in the response, the last of them is reported,
and the next does not fit (R299 to R301, R303, R304). -/
theorem copyVariables_copies (fc : Octet) (is : List Word16) (h10 : 10 ≤ s.build.maxFrame)
    (hm : s.build.maxFrame ≤ 65534) :
    ∃ (k : Nat) (data : List Octet) (nbytes : Word16),
      copyVariables fc (is.headD 0#16) is s = .next { s with
        respPdu := [fc, 0x7E#8] ++ be16enc (is.getD (k - 1) 0#16) ++ be32enc s.tick ++ be16enc nbytes ++ data } ∧
      k ≤ is.length ∧ data = (is.take k).flatMap (varBytes s) ∧ nbytes.toNat = data.length ∧
      10 + data.length ≤ s.build.maxFrame ∧
      (k < is.length → s.build.maxFrame < 10 + data.length + (varBytes s (is.getD k 0#16)).length) := by
  obtain ⟨k, hk, hdata, hlast, hfit, hstop⟩ := copyLoop_spec s (is.headD 0#16) [] is (by simpa using h10)
  rw [List.nil_append] at hdata hfit hstop
  rw [getLast?_take_getD_headD is hk] at hlast
  refine ⟨k, _, BitVec.ofNat 16 ((is.take k).flatMap (varBytes s)).length, ?_, hk, rfl, ?_, hfit, fun hlt => ?_⟩
  · rw [← hlast, ← hdata]
    rfl
  · exact (BitVec.toNat_ofNat ..).trans (Nat.mod_eq_of_lt (by omega))
  · exact hstop _ (by simp [hlt])

/-- The indices of a range count up from its start. -/
theorem indexRange_eq_map : indexRange first last =
    (List.range (last.toNat + 1 - first.toNat)).map fun j => BitVec.ofNat 16 (first.toNat + j) := by
  rw [indexRange, List.range'_eq_map_range, List.map_map]
  rfl

theorem indexRange_length : (indexRange first last).length = last.toNat + 1 - first.toNat := by
  simp [indexRange_eq_map]

/-- Index `j` of a range is `j` after its start: none of them wraps. -/
theorem indexRange_getD_toNat {j : Nat} (hj : first.toNat + j ≤ last.toNat) :
    ((indexRange first last).getD j 0#16).toNat = first.toNat + j := by
  have hlt : j < last.toNat + 1 - first.toNat := by omega
  have h16 : first.toNat + j < 2 ^ 16 := by omega
  simpa [indexRange_eq_map, hlt] using h16

theorem indexRange_headD (h : first.toNat ≤ last.toNat) : (indexRange first last).headD 0#16 = first := by
  rw [List.headD_eq_getD]
  exact BitVec.eq_of_toNat_eq (indexRange_getD_toNat (j := 0) h)

/-- The octets of the first `k` variables of a range. -/
theorem indexRange_take_flatMap (hk : k ≤ last.toNat + 1 - first.toNat) :
    ((indexRange first last).take k).flatMap (varBytes s) =
      (List.range k).flatMap fun j => s.vars.getD (first.toNat + j) [] := by
  rw [indexRange_eq_map, ← List.map_take, List.take_range, Nat.min_eq_left hk, List.flatMap_map]
  refine List.flatMap_congr fun j hj => ?_
  have hj' := List.mem_range.1 hj
  have h16 : first.toNat + j < 2 ^ 16 := by omega
  rw [varBytes, BitVec.toNat_ofNat, Nat.mod_eq_of_lt h16]

end getTrace

/-- Settles O48: every check of 0x43 and 0x44 stands before the copy. -/
theorem outOfRangeTracesCopyNothing : Obligations.OutOfRangeTracesCopyNothing := by
  refine fun s => ⟨fun first last h => execDbgget_refuses h, rfl, fun n idx h => ?_, rfl⟩
  obtain hn | hl | hi := h
  · exact if_pos (.inl hn)
  · exact execDbglist_short (o := some ⟨n, idx⟩) s hl
  · exact execDbglist_index hi

/-- Settles O46: the copy of a range. -/
theorem getTraceCopiesARange : Obligations.GetTraceCopiesARange := by
  intro s first last h10 hm hle hlast
  obtain ⟨k, data, nbytes, hexec, hk, hdata, hn, hfit, hstop⟩ :=
    copyVariables_copies 0x43#8 (indexRange first last) h10 hm
  rw [indexRange_headD hle, ← execDbgget_copies hle hlast] at hexec
  rw [indexRange_length] at hk hstop
  refine ⟨k, data, _, nbytes, hexec, hk, hdata.trans (indexRange_take_flatMap hk), hn,
    indexRange_getD_toNat (j := k - 1) (by omega), hfit, fun hlt => ?_⟩
  rw [← indexRange_getD_toNat (last := last) (j := k) (by omega)]
  exact hstop hlt

/-- Settles O47: the copy of the list. -/
theorem getTraceCopiesAList : Obligations.GetTraceCopiesAList := by
  intro s n idx h10 hm hn hlen hi
  obtain ⟨k, data, nbytes, hexec, hcopied⟩ := copyVariables_copies 0x44#8 idx h10 hm
  exact ⟨k, data, nbytes, (execDbglist_copies hn hlen.ge hi).trans hexec, hcopied⟩

end Sys2Proof.Machine

namespace Sys2Proof.Machine

open Sys2Proof

/-! ## Every event goes on (R328)

Only three things in the model can stop a step: a handler out of range, which `dispatch_handled` shuts out; the dispatch
of an empty PDU, which neither framer does; and an illegal configuration. None needs the invariant. -/

section safe

variable {s : State}

theorem safe_next (t : State) : Safe (.next t) := ⟨t, rfl⟩

/-- A completion drops the frame, or dispatches a PDU that is not empty (R159, R162). -/
theorem safe_rtuComplete (h : s.build.Legal) (hl : s.lastCount = s.rxq.length) : Safe (rtuComplete s) := by
  rcases hv : rtuVerdict s.rxOverrun s.slaveId s.rxq with _ | d
  · obtain ⟨-, h4, -⟩ := rtuVerdict_none.1 hv
    obtain ⟨u, hu, -⟩ := dispatch_handled (s := accepted s) h (framePdu_ne_nil h4)
    rw [rtuComplete_accept hl hv, hu]
    exact safe_next _
  · rw [rtuComplete_drop hl hv]
    exact safe_next _

theorem safe_rtuWindow (h : s.build.Legal) : Safe (rtuWindow s) := by
  simp only [rtuWindow]
  split
  · split
    · exact safe_rtuComplete (s := countDown s) h (Eq.symm ‹_›)
    · exact safe_next _
  · exact safe_next _

/-- Of the ticks only the window's can dispatch (R155). -/
theorem safe_serialTick (h : s.build.Legal) : Safe (serialTick s) := by
  cases hf : s.fsm with
  | collecting =>
    rw [serialTick_collecting hf]
    exact safe_rtuWindow h
  | responding =>
    cases hp : s.txPhase <;> simp only [serialTick, hf, hp] <;> exact safe_next _
  | idle | validating | dispatching =>
    simp only [serialTick, hf]
    exact safe_next _

/-- A pass goes on as every slot's service does: none of them changes the build (R190). -/
theorem safe_tcpPoll (between : List (List RuntimeChange)) (h : s.build.Legal) : Safe (tcpPoll between s) := by
  have hserve (i : Nat) (u : State) (hu : u.build.Legal) : ∃ v, tcpServe i u = .next v ∧ v.build.Legal := by
    obtain ⟨v, hv⟩ := tcpServe_goes_on i hu
    exact ⟨v, hv, (effect_tcpServe hu hv).build ▸ hu⟩
  obtain ⟨t, ht, -⟩ := tcpServeAll_keeps (P := fun u => u.build.Legal) hserve (fun _ _ hu => hu)
    (List.range s.build.maxSrvClients) between (tcpAccept s) ((effect_tcpAccept s).build ▸ h)
  exact ⟨t, ht⟩

/-- Every event goes on, in whatever state it comes; a `Reset` must bring a legal baud rate (R31, R354). -/
theorem safe_handle {e : Event} (h : s.build.Legal) (hr : ∀ l, e = .reset l → 1 ≤ l.baud.toNat) :
    Safe (handle e s) := by
  cases e with
  | reset l => exact ⟨_, resetEvent_eq_next.2 ⟨⟨h, hr l rfl⟩, rfl⟩⟩
  | pollTcp between => exact safe_tcpPoll between h
  | tick => exact safe_serialTick h
  | pollSerial | rxByte b | txDrained | tcpConnect | tcpConnectWithdraw | tcpData i octets | tcpClose i | appWrite ws
    | runtime cs => exact safe_next _

end safe

/-- Settles O56: with no event nothing happens, and every event goes on. -/
theorem everyEventIsAccepted : Obligations.EveryEventIsAccepted := by
  intro s hc hr
  rcases hi : s.inputs with _ | ⟨e, rest⟩
  · rw [step_none hc hi]
    exact safe_next s
  · rw [step_event hc hi]
    exact safe_handle (s := { s with inputs := rest }) hc.1 fun l he => hr l rest (he ▸ hi)

end Sys2Proof.Machine

namespace Sys2Proof.Machine

open Sys2Proof

/-! ## The configuration (R353) -/

/-- No step changes the build: a `Reset` takes it over from the state it is given (R52). -/
theorem step_build {s t : State} (ht : step s = .next t) : t.build = s.build := by
  obtain ⟨-, rfl⟩ | ⟨e, rest, hi, hh⟩ := step_cases ht
  · rfl
  · obtain he | ⟨l, rfl⟩ := isReset_cases e
    · exact (effect_step hi he ht).build
    · obtain ⟨-, rfl⟩ := resetEvent_eq_next.1 hh
      rfl

/-- Settles O12: no step changes the build, and the effect of any event but `Reset` keeps the six registers. -/
theorem configurationIsImmutable : Obligations.ConfigurationIsImmutable := by
  refine fun s t ht => ⟨step_build ht, fun hr => ?_⟩
  obtain ⟨-, rfl⟩ | ⟨e, rest, hi, -⟩ := step_cases ht
  · exact ⟨rfl, rfl, rfl, rfl, rfl, rfl⟩
  · have h := effect_step hi (hr e rest hi) ht
    exact ⟨h.slaveId, h.baud, h.t15, h.t35, h.txenPresent, h.txenLeadIn⟩

end Sys2Proof.Machine
